-- ==== Sys2Proof/Word.lean ====
section
/-! DEFINITION. The word types of the core and their plainest readings (spec/00_scope.md R6, R7). -/

namespace Sys2Proof

/-- XLEN = 32 bits: a register value, a data cell, the PC, an immediate, an operand or a result
(R5, R7, R25). -/
abbrev Word := BitVec 32

/-- One byte of a serialised record or cell (R81); the core itself never sees one (R63). -/
abbrev Byte := BitVec 8

/-- One 64-bit instruction record (R80). -/
abbrev Record := BitVec 64

/-- A 5-bit register index, R0 to R31 (R25, R85): every value names a register. -/
abbrev RegNum := BitVec 5

end Sys2Proof
end

