-- ==== Sys2Proof/Config.lean ====
section
/-! DEFINITION. What is fixed for a run: the opcode names and units of the instruction set
(spec/30_encoding.md R82), the form of the data memory (spec/20_memory.md R62) and the launch
parameters (spec/00_scope.md R5). -/

namespace Sys2Proof

/-- The 21 opcodes of R82. Their 5-bit tags are `Opcode.tag` (Machine/Operands.lean). -/
inductive Opcode
  | movc
  | add | sub | and | or | xor | mul
  | addl | subl | andl | orl | xorl | mull
  | load | ldr | store | str
  | bz | bnz | jump
  | halt
deriving DecidableEq, Repr

/-- The three functional units (R10 `u.unit`, R126). -/
inductive FuncUnit
  | int | mul | mem
deriving DecidableEq, Repr

/-- Data memory (R62): a list of (cell index, 32-bit word) pairs. The smallest unit the spec
addresses is a whole cell (R63), so an entry is a cell and not a byte (assumption 3). -/
abbrev Memory := List (Nat × Word)

/-- What a cell that is not listed holds: 0, the default of DMEM_INIT (R5, R45). -/
abbrev Memory.unlisted : Word := 0

/-- The ONE canonical form: cell indices strictly rising, and no entry equal to what an unlisted
cell holds. -/
abbrev Memory.wf (m : Memory) : Prop :=
  m.Pairwise (fun c c' => c.1 < c'.1) ∧ ∀ c ∈ m, c.2 ≠ Memory.unlisted

/-- INT_DEPTH, MUL_DEPTH and MEM_DEPTH of R5: the stages of each unit (R126, R131). -/
def FuncUnit.depth : FuncUnit → Nat
  | .int => 2
  | .mul => 3
  | .mem => 3

/-- The launch parameters of R5 together with the program the host loads before reset (R224):
none of them changes while the core runs. CODE_SIZE is `code.length`. NREGS, XLEN, IMM_W,
INSN_SIZE and the unit depths are fixed numbers of the spec and stand in the types and rules. -/
structure Launch where
  /-- Code memory, record 0 first (R60). -/
  code : List Record
  /-- CODE_BASE, the PC of record 0 (R22). -/
  codeBase : Word
  /-- IQ_SIZE (R37). -/
  iqSize : Nat
  /-- LSQ_SIZE (R38). -/
  lsqSize : Nat
  /-- ROB_SIZE (R39). -/
  robSize : Nat
  /-- DMEM_CELLS (R62). -/
  dmemCells : Nat
  /-- REG_INIT (R45). -/
  regInit : Vector Word 32
  /-- DMEM_INIT (R45), as the cells whose initial value is not 0. -/
  dmemInit : Memory
  /-- CYCLE_BUDGET, absent by default (R101). -/
  cycleBudget : Option Nat
  /-- STOP_ON_CODE_SIZE (R101). -/
  stopOnCodeSize : Bool
deriving DecidableEq, Repr

/-- CODE_SIZE (R5): the number of instruction records in code memory. -/
def Launch.codeSize (l : Launch) : Nat := l.code.length

/-- The defaults of R5, with no program loaded: CODE_SIZE = 0 (assumption 1). -/
def Launch.default : Launch where
  code := []
  codeBase := 4000
  iqSize := 8
  lsqSize := 6
  robSize := 12
  dmemCells := 4096
  regInit := Vector.replicate 32 0
  dmemInit := []
  cycleBudget := none
  stopOnCodeSize := true

end Sys2Proof
end

