-- ==== Sys2Proof/Syntax.lean ====
section
/-! DEFINITION. The instruction set: one constructor per row of spec/opcode_table.json, holding
exactly the fields R83 (spec/30_encoding.md) says the instruction uses. Unused fields of a record
are ignored (R87), so they have no place here. -/

namespace Sys2Proof

/-- The 21 instructions of R82, operands in the assembly order of R83. -/
inductive Instr
  /-- `MOVC Rd,#imm` (R180) -/
  | movc (rd : RegNum) (imm : Word)
  /-- `ADD Rd,Rs1,Rs2` (R160) -/
  | add (rd rs1 rs2 : RegNum)
  /-- `SUB Rd,Rs1,Rs2` (R161) -/
  | sub (rd rs1 rs2 : RegNum)
  /-- `AND Rd,Rs1,Rs2` (R162) -/
  | and (rd rs1 rs2 : RegNum)
  /-- `OR Rd,Rs1,Rs2` (R163) -/
  | or (rd rs1 rs2 : RegNum)
  /-- `XOR Rd,Rs1,Rs2` (R164) -/
  | xor (rd rs1 rs2 : RegNum)
  /-- `MUL Rd,Rs1,Rs2` (R165) -/
  | mul (rd rs1 rs2 : RegNum)
  /-- `ADDL Rd,Rs1,#imm` (R166) -/
  | addl (rd rs1 : RegNum) (imm : Word)
  /-- `SUBL Rd,Rs1,#imm` (R167) -/
  | subl (rd rs1 : RegNum) (imm : Word)
  /-- `ANDL Rd,Rs1,#imm` (R168) -/
  | andl (rd rs1 : RegNum) (imm : Word)
  /-- `ORL Rd,Rs1,#imm` (R169) -/
  | orl (rd rs1 : RegNum) (imm : Word)
  /-- `XORL Rd,Rs1,#imm` (R170) -/
  | xorl (rd rs1 : RegNum) (imm : Word)
  /-- `MULL Rd,Rs1,#imm` (R171) -/
  | mull (rd rs1 : RegNum) (imm : Word)
  /-- `LOAD Rd,Rs1,#imm` (R150): rs1 is the base -/
  | load (rd rs1 : RegNum) (imm : Word)
  /-- `LDR Rd,Rs1,Rs2` (R151): rs1 is the base, rs2 the index -/
  | ldr (rd rs1 rs2 : RegNum)
  /-- `STORE Rs1,Rs2,#imm` (R152): rs1 is the data, rs2 the base -/
  | store (rs1 rs2 : RegNum) (imm : Word)
  /-- `STR Rs1,Rs2,Rs3` (R153): rs1 is the data, rs2 the base, rs3 the index -/
  | str (rs1 rs2 rs3 : RegNum)
  /-- `BZ #imm` (R185) -/
  | bz (imm : Word)
  /-- `BNZ #imm` (R187) -/
  | bnz (imm : Word)
  /-- `JUMP Rs1,#imm` (R189) -/
  | jump (rs1 : RegNum) (imm : Word)
  /-- `HALT` (R195) -/
  | halt
deriving DecidableEq, Repr

end Sys2Proof
end

