-- ==== Sys2Proof/WellFormed.lean ====
section
/-! DEFINITION. What may be given to the core: a legal record (spec/30_encoding.md R86, R89), an
assembly line the loader accepts (R95, R96, R98) and launch parameters R5 allows. An `Instr` needs
no check of its own: its fields are 5-bit and 32-bit, and every value of them is allowed (R85). -/

namespace Sys2Proof

/-- The bits that select an instruction: the tag `w[4:0]` and the reserved `w[31:25]` (R89). -/
def recordMask : Record := 0x00000000FE00001F

/-- R86, R89: a record is legal when under the mask it is one of the tags 0x01 to 0x15; a nonzero
reserved bit puts the masked word above every tag. -/
def recordLegal (w : Record) : Bool :=
  decide (1 ≤ (w &&& recordMask).toNat ∧ (w &&& recordMask).toNat ≤ 0x15)

/-- One operand of a program line: a register index or a signed immediate, as the text gives it
(R95). Both are unbounded here: the loader checks them (R98). -/
inductive AsmOperand
  | reg (n : Nat)
  | imm (v : Int)
deriving DecidableEq, Repr

/-- One program line after splitting: a mnemonic and its operands (R95). -/
structure AsmLine where
  mnemonic : String
  operands : List AsmOperand
deriving DecidableEq, Repr

/-- Why the loader refuses a line (R98). Each is fatal: no program reaches the core (R224). -/
inductive LoadError
  /-- the mnemonic is not in R82 -/
  | unknownMnemonic
  /-- the operand count or kinds do not match R83 -/
  | wrongOperands
  /-- a register index is not 0 to 31 -/
  | registerRange
  /-- an immediate is outside -2^31 to 2^31 - 1 -/
  | immediateRange
deriving DecidableEq, Repr

/-- The kinds of operand of R83's assembly column. -/
inductive OperandKind
  | reg | imm
deriving DecidableEq, Repr

/-- R82: the mnemonic of each opcode. -/
def Opcode.mnemonic : Opcode → String
  | .movc => "MOVC"
  | .add => "ADD" | .sub => "SUB" | .and => "AND" | .or => "OR" | .xor => "XOR" | .mul => "MUL"
  | .addl => "ADDL" | .subl => "SUBL" | .andl => "ANDL" | .orl => "ORL" | .xorl => "XORL"
  | .mull => "MULL"
  | .load => "LOAD" | .ldr => "LDR" | .store => "STORE" | .str => "STR"
  | .bz => "BZ" | .bnz => "BNZ" | .jump => "JUMP"
  | .halt => "HALT"

/-- R82, in the order of the tags. -/
def Opcode.all : List Opcode :=
  [.movc, .add, .sub, .and, .or, .xor, .mul, .addl, .subl, .andl, .orl, .xorl, .mull,
   .load, .ldr, .store, .str, .bz, .bnz, .jump, .halt]

/-- R82: the opcode a mnemonic names, if any. -/
def Opcode.ofMnemonic (m : String) : Option Opcode :=
  Opcode.all.find? fun op => op.mnemonic == m

/-- R83, the assembly column: the operand kinds of each instruction, in order. -/
def Opcode.operandKinds : Opcode → List OperandKind
  | .movc => [.reg, .imm]
  | .add | .sub | .and | .or | .xor | .mul => [.reg, .reg, .reg]
  | .addl | .subl | .andl | .orl | .xorl | .mull => [.reg, .reg, .imm]
  | .load => [.reg, .reg, .imm]
  | .ldr => [.reg, .reg, .reg]
  | .store => [.reg, .reg, .imm]
  | .str => [.reg, .reg, .reg]
  | .bz | .bnz => [.imm]
  | .jump => [.reg, .imm]
  | .halt => []

/-- The kind of an operand as written. -/
def AsmOperand.kind : AsmOperand → OperandKind
  | .reg _ => .reg
  | .imm _ => .imm

/-- R98: a register index is 0 to 31. -/
def AsmOperand.regInRange : AsmOperand → Bool
  | .reg n => decide (n ≤ 31)
  | .imm _ => true

/-- R98: an immediate is -2^31 to 2^31 - 1. -/
def AsmOperand.immInRange : AsmOperand → Bool
  | .reg _ => true
  | .imm v => decide (-2147483648 ≤ v ∧ v ≤ 2147483647)

/-- R98: the checks of one line, in the order the rule lists them; the opcode on success. -/
def AsmLine.check (l : AsmLine) : Except LoadError Opcode :=
  match Opcode.ofMnemonic l.mnemonic with
  | none => .error .unknownMnemonic
  | some op =>
    if l.operands.map AsmOperand.kind ≠ op.operandKinds then .error .wrongOperands
    else if !l.operands.all AsmOperand.regInRange then .error .registerRange
    else if !l.operands.all AsmOperand.immInRange then .error .immediateRange
    else .ok op

/-- A line the loader accepts (R98). -/
def AsmLine.wellFormed (l : AsmLine) : Bool :=
  match l.check with
  | .ok _ => true
  | .error _ => false

/-- What R5 asks of the launch parameters: each queue holds at least one entry, and DMEM_INIT is in
canonical form and names only cells of the data memory (R62). -/
abbrev Launch.wellFormed (l : Launch) : Prop :=
  1 ≤ l.iqSize ∧ 1 ≤ l.lsqSize ∧ 1 ≤ l.robSize ∧
    l.dmemInit.wf ∧ ∀ c ∈ l.dmemInit, c.1 < l.dmemCells

end Sys2Proof
end

