-- ==== Sys2Proof/Decode.lean ====
section
/-! DEFINITION. Records to instructions and back (spec/30_encoding.md R80 to R89), the byte order of
a serialised record (R81), and the loader's translation of a program line (R95, R96, R98). -/

namespace Sys2Proof

/-- R82: the 5-bit tag of each opcode. -/
def opcodeTag : Opcode → BitVec 5
  | .movc => 0x01
  | .add => 0x02 | .sub => 0x03 | .and => 0x04 | .or => 0x05 | .xor => 0x06 | .mul => 0x07
  | .addl => 0x08 | .subl => 0x09 | .andl => 0x0A | .orl => 0x0B | .xorl => 0x0C | .mull => 0x0D
  | .load => 0x0E | .ldr => 0x0F | .store => 0x10 | .str => 0x11
  | .bz => 0x12 | .bnz => 0x13 | .jump => 0x14
  | .halt => 0x15

/-- R82: the opcode of an instruction. -/
def instrOpcode : Instr → Opcode
  | .movc _ _ => .movc
  | .add _ _ _ => .add
  | .sub _ _ _ => .sub
  | .and _ _ _ => .and
  | .or _ _ _ => .or
  | .xor _ _ _ => .xor
  | .mul _ _ _ => .mul
  | .addl _ _ _ => .addl
  | .subl _ _ _ => .subl
  | .andl _ _ _ => .andl
  | .orl _ _ _ => .orl
  | .xorl _ _ _ => .xorl
  | .mull _ _ _ => .mull
  | .load _ _ _ => .load
  | .ldr _ _ _ => .ldr
  | .store _ _ _ => .store
  | .str _ _ _ => .str
  | .bz _ => .bz
  | .bnz _ => .bnz
  | .jump _ _ => .jump
  | .halt => .halt

/-- `op = w[4:0]` (R80). -/
def recOp (w : Record) : BitVec 5 := w.extractLsb' 0 5

/-- `rd = w[9:5]` (R80). -/
def recRd (w : Record) : RegNum := w.extractLsb' 5 5

/-- `rs1 = w[14:10]` (R80). -/
def recRs1 (w : Record) : RegNum := w.extractLsb' 10 5

/-- `rs2 = w[19:15]` (R80). -/
def recRs2 (w : Record) : RegNum := w.extractLsb' 15 5

/-- `rs3 = w[24:20]` (R80). -/
def recRs3 (w : Record) : RegNum := w.extractLsb' 20 5

/-- `rsv = w[31:25]` (R80). -/
def recRsv (w : Record) : BitVec 7 := w.extractLsb' 25 7

/-- `imm = w[63:32]` (R80, R84): neither shifted nor scaled. -/
def recImm (w : Record) : Word := w.extractLsb' 32 32

/-- Why a record is illegal (R86). -/
inductive DecodeReject
  /-- the reserved bits `w[31:25]` are not 0 -/
  | reservedBits
  /-- the tag is 0x00 or 0x16 to 0x1F -/
  | unassignedTag
deriving DecidableEq, Repr

/-- R82, R83: the row a tag selects, with the fields that row uses; other fields are ignored
(R87). -/
def decodeTag (w : Record) : Except DecodeReject Instr :=
  match (recOp w).toNat with
  | 0x01 => .ok (.movc (recRd w) (recImm w))
  | 0x02 => .ok (.add (recRd w) (recRs1 w) (recRs2 w))
  | 0x03 => .ok (.sub (recRd w) (recRs1 w) (recRs2 w))
  | 0x04 => .ok (.and (recRd w) (recRs1 w) (recRs2 w))
  | 0x05 => .ok (.or (recRd w) (recRs1 w) (recRs2 w))
  | 0x06 => .ok (.xor (recRd w) (recRs1 w) (recRs2 w))
  | 0x07 => .ok (.mul (recRd w) (recRs1 w) (recRs2 w))
  | 0x08 => .ok (.addl (recRd w) (recRs1 w) (recImm w))
  | 0x09 => .ok (.subl (recRd w) (recRs1 w) (recImm w))
  | 0x0A => .ok (.andl (recRd w) (recRs1 w) (recImm w))
  | 0x0B => .ok (.orl (recRd w) (recRs1 w) (recImm w))
  | 0x0C => .ok (.xorl (recRd w) (recRs1 w) (recImm w))
  | 0x0D => .ok (.mull (recRd w) (recRs1 w) (recImm w))
  | 0x0E => .ok (.load (recRd w) (recRs1 w) (recImm w))
  | 0x0F => .ok (.ldr (recRd w) (recRs1 w) (recRs2 w))
  | 0x10 => .ok (.store (recRs1 w) (recRs2 w) (recImm w))
  | 0x11 => .ok (.str (recRs1 w) (recRs2 w) (recRs3 w))
  | 0x12 => .ok (.bz (recImm w))
  | 0x13 => .ok (.bnz (recImm w))
  | 0x14 => .ok (.jump (recRs1 w) (recImm w))
  | 0x15 => .ok .halt
  | _ => .error .unassignedTag

/-- The decoder: total on 64-bit words (R89), rejecting by name (R86). -/
def decode (w : Record) : Except DecodeReject Instr :=
  if recRsv w ≠ 0 then .error .reservedBits else decodeTag w

/-- R80: `w = imm ++ rsv ++ rs3 ++ rs2 ++ rs1 ++ rd ++ op` with `rsv` = 0. -/
def packRecord (op : BitVec 5) (rd rs1 rs2 rs3 : RegNum) (imm : Word) : Record :=
  imm ++ (0 : BitVec 7) ++ rs3 ++ rs2 ++ rs1 ++ rd ++ op

/-- The record of an instruction (R80, R82, R83); fields it does not use are written 0, as in
R99. -/
def encode : Instr → Record
  | .movc rd imm => packRecord 0x01 rd 0 0 0 imm
  | .add rd rs1 rs2 => packRecord 0x02 rd rs1 rs2 0 0
  | .sub rd rs1 rs2 => packRecord 0x03 rd rs1 rs2 0 0
  | .and rd rs1 rs2 => packRecord 0x04 rd rs1 rs2 0 0
  | .or rd rs1 rs2 => packRecord 0x05 rd rs1 rs2 0 0
  | .xor rd rs1 rs2 => packRecord 0x06 rd rs1 rs2 0 0
  | .mul rd rs1 rs2 => packRecord 0x07 rd rs1 rs2 0 0
  | .addl rd rs1 imm => packRecord 0x08 rd rs1 0 0 imm
  | .subl rd rs1 imm => packRecord 0x09 rd rs1 0 0 imm
  | .andl rd rs1 imm => packRecord 0x0A rd rs1 0 0 imm
  | .orl rd rs1 imm => packRecord 0x0B rd rs1 0 0 imm
  | .xorl rd rs1 imm => packRecord 0x0C rd rs1 0 0 imm
  | .mull rd rs1 imm => packRecord 0x0D rd rs1 0 0 imm
  | .load rd rs1 imm => packRecord 0x0E rd rs1 0 0 imm
  | .ldr rd rs1 rs2 => packRecord 0x0F rd rs1 rs2 0 0
  | .store rs1 rs2 imm => packRecord 0x10 0 rs1 rs2 0 imm
  | .str rs1 rs2 rs3 => packRecord 0x11 0 rs1 rs2 rs3 0
  | .bz imm => packRecord 0x12 0 0 0 0 imm
  | .bnz imm => packRecord 0x13 0 0 0 0 imm
  | .jump rs1 imm => packRecord 0x14 0 rs1 0 0 imm
  | .halt => packRecord 0x15 0 0 0 0 0

/-- R81: byte `k` of a record is `w[8k+7:8k]`. -/
def recordByte (w : Record) (k : Nat) : Byte := w.extractLsb' (8 * k) 8

/-- R81: a record as eight bytes, the least significant first. -/
def recordToBytes (w : Record) : List Byte :=
  [recordByte w 0, recordByte w 1, recordByte w 2, recordByte w 3,
   recordByte w 4, recordByte w 5, recordByte w 6, recordByte w 7]

/-- R81 read back: the record in the first eight bytes, with the bytes after it; fewer than eight
bytes are no record. -/
def recordOfBytes : List Byte → Option (Record × List Byte)
  | b0 :: b1 :: b2 :: b3 :: b4 :: b5 :: b6 :: b7 :: rest =>
    some (b7 ++ b6 ++ b5 ++ b4 ++ b3 ++ b2 ++ b1 ++ b0, rest)
  | _ => none

/-- The instruction in a byte sequence, with the bytes after it; none where the bytes are too few
or the record is illegal. -/
def decodeBytes (bs : List Byte) : Option (Instr × List Byte) :=
  match recordOfBytes bs with
  | none => none
  | some (w, rest) =>
    match decode w with
    | .ok i => some (i, rest)
    | .error _ => none

/-- The record whose low `nbits` bits are `w` and whose bits above are 0. -/
def tableRecord (nbits w : Nat) : Record := BitVec.ofNat 64 (w % 2 ^ nbits)

/-- The host's question: the instruction read from a table row's word, laid out as bytes (R81) and
decoded. -/
def decodeTableWord (nbits w : Nat) : Option Instr :=
  (decodeBytes (recordToBytes (tableRecord nbits w))).map Prod.fst

/-- R98: the 5-bit index of a register operand the loader has checked. -/
def AsmOperand.regField : AsmOperand → RegNum
  | .reg n => BitVec.ofNat 5 n
  | .imm _ => 0

/-- R84, R95: the two's-complement word of an immediate operand the loader has checked. -/
def AsmOperand.immField : AsmOperand → Word
  | .reg _ => 0
  | .imm v => BitVec.ofInt 32 v

/-- R83, R96: the instruction of an opcode and its operands in assembly order. -/
def instrOf (op : Opcode) (x y z : AsmOperand) : Instr :=
  match op with
  | .movc => .movc x.regField y.immField
  | .add => .add x.regField y.regField z.regField
  | .sub => .sub x.regField y.regField z.regField
  | .and => .and x.regField y.regField z.regField
  | .or => .or x.regField y.regField z.regField
  | .xor => .xor x.regField y.regField z.regField
  | .mul => .mul x.regField y.regField z.regField
  | .addl => .addl x.regField y.regField z.immField
  | .subl => .subl x.regField y.regField z.immField
  | .andl => .andl x.regField y.regField z.immField
  | .orl => .orl x.regField y.regField z.immField
  | .xorl => .xorl x.regField y.regField z.immField
  | .mull => .mull x.regField y.regField z.immField
  | .load => .load x.regField y.regField z.immField
  | .ldr => .ldr x.regField y.regField z.regField
  | .store => .store x.regField y.regField z.immField
  | .str => .str x.regField y.regField z.regField
  | .bz => .bz x.immField
  | .bnz => .bnz x.immField
  | .jump => .jump x.regField y.immField
  | .halt => .halt

/-- R83, R98: the record the loader makes of one line, or the error with which it refuses it. -/
def assembleLine (l : AsmLine) : Except LoadError Record :=
  match l.check with
  | .error e => .error e
  | .ok op =>
    let operand (k : Nat) : AsmOperand := l.operands.getD k (.imm 0)
    .ok (encode (instrOf op (operand 0) (operand 1) (operand 2)))

/-- R95, R98: line `k` becomes record `k`; the first bad line refuses the whole program, with no
partial initialisation. -/
def assemble : List AsmLine → Except LoadError (List Record)
  | [] => .ok []
  | l :: ls =>
    match assembleLine l with
    | .error e => .error e
    | .ok w =>
      match assemble ls with
      | .error e => .error e
      | .ok ws => .ok (w :: ws)

end Sys2Proof
end

