-- ==== Sys2Proof/Machine/State.lean ====
section
/-! DEFINITION. The state of the core as plain data: exactly what spec/10_state.md R20 lists, with
the launch parameters and code memory of a run beside it (assumption 1), and the state after reset
(R45). -/

namespace Sys2Proof.Machine

/-- One scoreboard entry (R30). `tag` is the ROB index of the last dispatched producer, meaningful
only while `valid` is false; its bound ROB_SIZE is an invariant. -/
structure RegEntry where
  value : Word
  valid : Bool
  tag : Nat
deriving DecidableEq, Repr

/-- The 32 scoreboard entries, R0 to R31 (R25, R30). No register is hardwired (R26). -/
abbrev Scoreboard := Vector RegEntry 32

/-- The zero-flag entry Z (R32). -/
structure ZEntry where
  value : Bool
  valid : Bool
  tag : Nat
deriving DecidableEq, Repr

/-- The Fetch latch `F` (R35) and the Decode latch `D` (R36). -/
structure FrontLatch where
  valid : Bool
  stalled : Bool
  pc : Word
  word : Record
deriving DecidableEq, Repr

/-- A micro-operation record `u` (R10). `rob` is its ROB index. -/
structure MicroOp where
  op : Opcode
  pc : Word
  rd : RegNum
  rob : Nat
  imm : Word
  a : Word
  b : Word
  d : Word
  ea : Word
  result : Word
  unit : FuncUnit
deriving DecidableEq, Repr

/-- What an occupied IQ slot or LSQ entry holds (R37, R38). -/
structure QueueEntry where
  ready : Bool
  u : MicroOp
deriving DecidableEq, Repr

/-- The issue queue: IQ_SIZE slots; `none` is a slot with `occupied = 0` (R37, assumption 2). -/
abbrev IssueQueue := List (Option QueueEntry)

/-- The load-store queue: a ring of LSQ_SIZE entries (R38). -/
structure LoadStoreQueue where
  entries : List (Option QueueEntry)
  head : Nat
  tail : Nat
  count : Nat
deriving DecidableEq, Repr

/-- What an occupied ROB entry holds (R39). -/
structure RobEntry where
  complete : Bool
  pc : Word
  op : Opcode
  rd : RegNum
  hasRd : Bool
deriving DecidableEq, Repr

/-- The reorder buffer: a ring of ROB_SIZE entries; `none` is an entry with `occupied = 0` (R39,
assumption 2). -/
structure ReorderBuffer where
  entries : List (Option RobEntry)
  head : Nat
  tail : Nat
  count : Nat
deriving DecidableEq, Repr

/-- The retire latch `RET` when valid (R41). -/
structure Retired where
  pc : Word
  op : Opcode
deriving DecidableEq, Repr

/-- The fault codes of R201 (`none` is the absence of a `FaultRecord`). -/
inductive FaultCode
  /-- code 1, raised by Decode (R203) -/
  | illegalInstruction
  /-- code 2, raised by stage MEM1 (R204) -/
  | dataAddressRange
  /-- code 3, raised by Fetch (R205) -/
  | fetchPcInvalid
deriving DecidableEq, Repr

/-- The `fault` state element when it is not `none` (R201). -/
structure FaultRecord where
  code : FaultCode
  pc : Word
  info : BitVec 64
deriving DecidableEq, Repr

/-- The state of the core (R20). -/
structure State where
  /-- The launch parameters and code memory, fixed for a run (R5, R20, R60; assumption 1). -/
  launch : Launch
  /-- The address of the next record Fetch will read (R21). -/
  pc : Word
  /-- The register scoreboard (R30). -/
  regs : Scoreboard
  /-- The zero flag (R32). -/
  z : ZEntry
  /-- The Fetch latch (R35). -/
  f : FrontLatch
  /-- The Decode latch (R36). -/
  d : FrontLatch
  /-- The issue queue (R37). -/
  iq : IssueQueue
  /-- The load-store queue (R38). -/
  lsq : LoadStoreQueue
  /-- The reorder buffer (R39). -/
  rob : ReorderBuffer
  /-- The functional-unit latches (R40); `none` is a latch with `valid = 0`. -/
  int1 : Option MicroOp
  int2 : Option MicroOp
  mul1 : Option MicroOp
  mul2 : Option MicroOp
  mul3 : Option MicroOp
  mem1 : Option MicroOp
  mem2 : Option MicroOp
  mem3 : Option MicroOp
  /-- The retire latch (R41). -/
  ret : Option Retired
  /-- The pipeline-wide halt flag (R42). -/
  haltFetch : Bool
  /-- 1 once a HALT entry has retired (R42). -/
  halted : Bool
  /-- The number of ROB entries retired (R42, R105). -/
  completed : BitVec 64
  /-- The number of cycles run since reset (R42). -/
  cycle : BitVec 64
  /-- The first fault raised, if any (R42, R201). -/
  fault : Option FaultRecord
  /-- The data memory (R62). -/
  mem : Memory
deriving DecidableEq, Repr

/-- Why the machine answers `fault`. The cycle that raises a fault is itself a next state, with the
fault recorded in it (R202); every later step finds the core stopped for good and answers one of
these. All are raised by `step` alone and are safe: the spec runs no more cycles then. -/
inductive Fault
  /-- ILLEGAL_INSTRUCTION is recorded (R203): safe. -/
  | illegalInstruction (pc : Word) (info : BitVec 64)
  /-- DATA_ADDRESS_RANGE is recorded (R204): safe. -/
  | dataAddressRange (pc : Word) (info : BitVec 64)
  /-- FETCH_PC_INVALID is recorded (R205): safe. -/
  | fetchPcInvalid (pc : Word) (info : BitVec 64)
deriving DecidableEq, Repr

/-- Why the machine refuses. -/
inductive Refusal
  /-- An instruction that has no meaning yet; no arm of `exec` raises it now. Safe. -/
  | notModelled (mnemonic : String)
deriving DecidableEq, Repr

/-- An empty Fetch or Decode latch as reset leaves it (R45). -/
def FrontLatch.reset : FrontLatch where
  valid := false
  stalled := false
  pc := 0
  word := 0

/-- Register `i` at reset: value REG_INIT(i), valid, tag 0 (R45). -/
def RegEntry.reset (v : Word) : RegEntry where
  value := v
  valid := true
  tag := 0

/-- The state R45 gives for the launch parameters `l`. -/
def State.resetFrom (l : Launch) : State where
  launch := l
  pc := l.codeBase
  regs := l.regInit.map RegEntry.reset
  z := { value := false, valid := true, tag := 0 }
  f := FrontLatch.reset
  d := FrontLatch.reset
  iq := List.replicate l.iqSize none
  lsq := { entries := List.replicate l.lsqSize none, head := 0, tail := 0, count := 0 }
  rob := { entries := List.replicate l.robSize none, head := 0, tail := 0, count := 0 }
  int1 := none
  int2 := none
  mul1 := none
  mul2 := none
  mul3 := none
  mem1 := none
  mem2 := none
  mem3 := none
  ret := none
  haltFetch := false
  halted := false
  completed := 0
  cycle := 0
  fault := none
  mem := l.dmemInit

/-- The machine right after reset with the default launch parameters and no program loaded. -/
def State.reset : State := State.resetFrom Launch.default

end Sys2Proof.Machine
end

