-- ==== Sys2Proof/Machine/Ops.lean ====
section
/-! DEFINITION. The named operations over memory, the scoreboard, the queues, the reorder buffer and
the latches, raising a fault (spec/60_exceptions.md R202) and the reset that alone leaves it
(spec/70_reset_and_hazards.md R220). -/

namespace Sys2Proof.Machine

/-! ### Data memory (spec/20_memory.md R62) -/

/-- `MemRead(ea)`: data cell `ea`. -/
def memRead : Memory → Nat → Word
  | [], _ => Memory.unlisted
  | (b, w) :: t, a => if a = b then w else memRead t a

/-- A cell as a list: nothing when it holds what an unlisted cell holds. -/
def cellList (a : Nat) (v : Word) : Memory :=
  if v = Memory.unlisted then [] else [(a, v)]

/-- `MemWrite(ea, v)`: cell `ea` becomes `v`, in canonical form. -/
def memWrite : Memory → Nat → Word → Memory
  | [], a, v => cellList a v
  | (b, w) :: t, a, v =>
    if a < b then cellList a v ++ (b, w) :: t
    else if a = b then cellList a v ++ t
    else (b, w) :: memWrite t a v

/-! ### Scoreboard (spec/10_state.md R30, R31) -/

/-- Scoreboard entry `r`. -/
def Scoreboard.entry (sb : Scoreboard) (r : RegNum) : RegEntry :=
  sb[r.toNat]'r.isLt

/-- Scoreboard entry `r` replaced. -/
def Scoreboard.put (sb : Scoreboard) (r : RegNum) (e : RegEntry) : Scoreboard :=
  sb.set r.toNat e r.isLt

/-- `invalidate(i, r)` (R31): `valid(i) <- 0` and `tag(i) <- r`. -/
def Scoreboard.invalidate (sb : Scoreboard) (i : RegNum) (r : Nat) : Scoreboard :=
  sb.put i { sb.entry i with valid := false, tag := r }

/-- `writeback(i, v, r)` (R31): takes effect only when `tag(i) = r` and `valid(i) = 0`. -/
def Scoreboard.writeback (sb : Scoreboard) (i : RegNum) (v : Word) (r : Nat) : Scoreboard :=
  if (sb.entry i).tag = r ∧ (sb.entry i).valid = false then
    sb.put i { sb.entry i with value := v, valid := true }
  else sb

/-- `x[i]` (R8): the value field of register `i`. -/
def State.reg (s : State) (i : RegNum) : Word := (s.regs.entry i).value

/-- `valid(i)` (R8). -/
def State.regValid (s : State) (i : RegNum) : Bool := (s.regs.entry i).valid

/-- `tag(i)` (R8). -/
def State.regTag (s : State) (i : RegNum) : Nat := (s.regs.entry i).tag

/-! ### Reorder buffer (spec/10_state.md R39, spec/40_pipeline.md R102, R118) -/

/-- The ROB entry at an index, if that entry is occupied. -/
def ReorderBuffer.at? (q : ReorderBuffer) (k : Nat) : Option RobEntry := q.entries.getD k none

/-- R118: write `e` at the tail and advance the tail. -/
def ReorderBuffer.allocate (q : ReorderBuffer) (size : Nat) (e : RobEntry) : ReorderBuffer where
  entries := q.entries.set q.tail (some e)
  head := q.head
  tail := (q.tail + 1) % size
  count := q.count + 1

/-- `rob[k].complete <- 1` (R132, R129). -/
def ReorderBuffer.setComplete (q : ReorderBuffer) (k : Nat) : ReorderBuffer :=
  { q with entries := q.entries.modify k (Option.map fun e => { e with complete := true }) }

/-- R102: free the head entry and advance the head. -/
def ReorderBuffer.pop (q : ReorderBuffer) (size : Nat) : ReorderBuffer where
  entries := q.entries.set q.head none
  head := (q.head + 1) % size
  tail := q.tail
  count := q.count - 1

/-- R102: the head entry when it may retire. -/
def ReorderBuffer.retirable (q : ReorderBuffer) : Option RobEntry :=
  if q.count = 0 then none else (q.at? q.head).filter fun e => e.complete

/-- How far index `k` of a ring lies behind its head: `(k - head) mod size` (R121). -/
def ringAge (size head k : Nat) : Nat := (((k : Int) - (head : Int)) % (size : Int)).toNat

/-- R121: the age of ROB index `k`, `(k - rob_head) mod ROB_SIZE`. -/
def ReorderBuffer.age (q : ReorderBuffer) (size k : Nat) : Nat := ringAge size q.head k

/-! ### Issue queue (spec/40_pipeline.md R121, R123) -/

/-- R113: some IQ slot has `occupied = 0`. -/
def IssueQueue.hasFree (q : IssueQueue) : Bool := q.any Option.isNone

/-- R123: write `u` into the lowest-numbered free slot. -/
def IssueQueue.insert : IssueQueue → MicroOp → IssueQueue
  | [], _ => []
  | none :: t, u => some { ready := true, u := u } :: t
  | some e :: t, u => some e :: IssueQueue.insert t u

/-- R121: an entry that unit `fu` may take. -/
def QueueEntry.candidate (fu : FuncUnit) (e : QueueEntry) : Bool :=
  e.ready && decide (e.u.unit = fu)

/-- R121: the slot, counted from `k`, of the candidate of least age, with its record. -/
def IssueQueue.oldest (fu : FuncUnit) (age : Nat → Nat) :
    IssueQueue → Nat → Option (Nat × MicroOp)
  | [], _ => none
  | none :: t, k => IssueQueue.oldest fu age t (k + 1)
  | some e :: t, k =>
    if e.candidate fu then
      match IssueQueue.oldest fu age t (k + 1) with
      | none => some (k, e.u)
      | some best => if age best.2.rob < age e.u.rob then some best else some (k, e.u)
    else IssueQueue.oldest fu age t (k + 1)

/-- R121: free slot `k`. -/
def IssueQueue.free (q : IssueQueue) (k : Nat) : IssueQueue := q.set k none

/-! ### Load-store queue (spec/40_pipeline.md R122, R124) -/

/-- R124: write `u` at the tail and advance the tail. -/
def LoadStoreQueue.push (q : LoadStoreQueue) (size : Nat) (u : MicroOp) : LoadStoreQueue where
  entries := q.entries.set q.tail (some { ready := true, u := u })
  head := q.head
  tail := (q.tail + 1) % size
  count := q.count + 1

/-- R122: the oldest record, if the queue holds one. -/
def LoadStoreQueue.front (q : LoadStoreQueue) : Option MicroOp :=
  if q.count = 0 then none else (q.entries.getD q.head none).map QueueEntry.u

/-- R122: free the head entry and advance the head. -/
def LoadStoreQueue.pop (q : LoadStoreQueue) (size : Nat) : LoadStoreQueue where
  entries := q.entries.set q.head none
  head := (q.head + 1) % size
  tail := q.tail
  count := q.count - 1

/-! ### Latches and the program counter -/

/-- `clear L` (R8): the latch is empty; its other fields are never read while it is (R46). -/
def FrontLatch.clear (l : FrontLatch) : FrontLatch := { l with valid := false }

/-- `L <- (valid 1, stalled 0, pc, word)` (R111). -/
def FrontLatch.fill (pc : Word) (w : Record) : FrontLatch where
  valid := true
  stalled := false
  pc := pc
  word := w

/-- `D.stalled <- 1` (R113). -/
def State.stallDecode (s : State) : State := { s with d := { s.d with stalled := true } }

/-- `clear D; D.stalled <- 0` (R113). -/
def State.clearDecode (s : State) : State :=
  { s with d := { s.d.clear with stalled := false } }

/-- A taken branch (R186): `pc <- target` and `clear F`. -/
def State.takeBranch (s : State) (target : Word) : State :=
  { s with pc := target, f := s.f.clear }

/-- The halt flag (R110, R195): `halt_fetch <- 1` and `clear F`. -/
def State.stopFetch (s : State) : State := { s with haltFetch := true, f := s.f.clear }

/-! ### Stopping, faults and reset -/

/-- R101: the conditions, each evaluated before a cycle, under which the core runs no more. -/
def State.stopped (s : State) : Bool :=
  s.fault.isSome || s.halted
    || (s.launch.stopOnCodeSize && decide (s.completed.toNat = s.launch.codeSize))
    || (match s.launch.cycleBudget with
        | none => false
        | some n => decide (n ≤ s.cycle.toNat))

/-- R201: the number of a fault code. -/
def FaultCode.number : FaultCode → BitVec 2
  | .illegalInstruction => 1
  | .dataAddressRange => 2
  | .fetchPcInvalid => 3

/-- `raise Fault(code, pc, info)` (R202), the ONE operation every fault goes through: it records the
fault and changes nothing else; the cycle then skips its remaining steps (`runCycle`). There is no
trap entry: nothing is saved and control does not transfer (R209). -/
def State.raise (s : State) (code : FaultCode) (pc : Word) (info : BitVec 64) : State :=
  { s with fault := some { code := code, pc := pc, info := info } }

/-- The outcome of stepping a core whose `fault` is recorded: it runs no more cycles (R202). -/
def FaultRecord.toFault (r : FaultRecord) : Fault :=
  match r.code with
  | .illegalInstruction => .illegalInstruction r.pc r.info
  | .dataAddressRange => .dataAddressRange r.pc r.info
  | .fetchPcInvalid => .fetchPcInvalid r.pc r.info

/-- Reset (R220), at any time: the state of R45 for the same launch parameters. There is no return
from a fault but this (R210). -/
def State.applyReset (s : State) : State := State.resetFrom s.launch

/-- `cycle <- cycle + 1` (R100 step 8). -/
def State.tick (s : State) : State := { s with cycle := s.cycle + 1 }

/-! ### What the host reads (spec/10_state.md R50) -/

/-- The register dump: value and valid of all 32 registers. -/
def State.dumpRegs (s : State) : Vector (Word × Bool) 32 :=
  s.regs.map fun e => (e.value, e.valid)

/-- The memory dump: all DMEM_CELLS data cells, cell 0 first. -/
def State.dumpMem (s : State) : List Word :=
  (List.range s.launch.dmemCells).map (memRead s.mem)

end Sys2Proof.Machine
end

