-- ==== Sys2Proof/Machine/Flags.lean ====
section
/-! DEFINITION. The zero flag Z, the only flag of the core (spec/10_state.md R32, R33). -/

namespace Sys2Proof.Machine

/-- R32: the value Z takes from a 32-bit result: 1 when the result is 0. -/
def zeroFlag (result : Word) : Bool := decide (result = 0)

/-- R117: dispatch of a Z-setting instruction makes Z invalid and tags it with its ROB index. -/
def ZEntry.invalidate (z : ZEntry) (r : Nat) : ZEntry := { z with valid := false, tag := r }

/-- R132: the guarded writeback of Z. -/
def ZEntry.writeback (z : ZEntry) (v : Bool) (r : Nat) : ZEntry :=
  if z.tag = r ∧ z.valid = false then { z with value := v, valid := true } else z

end Sys2Proof.Machine
end

