-- ==== Sys2Proof/Machine/Operands.lean ====
section
/-! DEFINITION. The family tables of spec/40_pipeline.md R114, the operand forms and the operand read
of R116, and the effective address of R129. -/

namespace Sys2Proof.Machine

/-- R114, column HasDest. -/
def hasDest : Opcode → Bool
  | .movc => true
  | .add | .sub | .and | .or | .xor | .mul => true
  | .addl | .subl | .andl | .orl | .xorl | .mull => true
  | .load | .ldr => true
  | .store | .str => false
  | .bz | .bnz | .jump => false
  | .halt => false

/-- R114, column SetsZ (R32). -/
def setsZ : Opcode → Bool
  | .add | .sub | .mul => true
  | .addl | .subl | .mull => true
  | .movc => false
  | .and | .or | .xor => false
  | .andl | .orl | .xorl => false
  | .load | .ldr | .store | .str => false
  | .bz | .bnz | .jump => false
  | .halt => false

/-- R113, R114: BZ and BNZ wait for Z. -/
def readsZ : Opcode → Bool
  | .bz | .bnz => true
  | .movc => false
  | .add | .sub | .and | .or | .xor | .mul => false
  | .addl | .subl | .andl | .orl | .xorl | .mull => false
  | .load | .ldr | .store | .str => false
  | .jump => false
  | .halt => false

/-- R114, column Unit. -/
def unitOf : Opcode → FuncUnit
  | .movc => .int
  | .add | .sub | .and | .or | .xor => .int
  | .mul => .mul
  | .addl | .subl | .andl | .orl | .xorl => .int
  | .mull => .mul
  | .load | .ldr | .store | .str => .mem
  | .bz | .bnz | .jump => .int
  | .halt => .int

/-- R114, column IsMem: the LSQ and the memory unit. -/
def isMem : Opcode → Bool
  | .load | .ldr | .store | .str => true
  | .movc => false
  | .add | .sub | .and | .or | .xor | .mul => false
  | .addl | .subl | .andl | .orl | .xorl | .mull => false
  | .bz | .bnz | .jump => false
  | .halt => false

/-- R129: LOAD and LDR read data memory in MEM3; the other memory instructions write it. -/
def isLoad : Opcode → Bool
  | .load | .ldr => true
  | .store | .str => false
  | .movc => false
  | .add | .sub | .and | .or | .xor | .mul => false
  | .addl | .subl | .andl | .orl | .xorl | .mull => false
  | .bz | .bnz | .jump => false
  | .halt => false

/-- Where an operand word of R116 comes from. -/
inductive Operand
  /-- not used: 0 -/
  | zero
  /-- `x[r]` -/
  | reg (r : RegNum)
  /-- the record's immediate -/
  | imm (v : Word)
deriving DecidableEq, Repr

/-- R116: the operand word, from the scoreboard as it stands. -/
def Operand.read (s : State) : Operand → Word
  | .zero => 0
  | .reg r => s.reg r
  | .imm v => v

/-- R114: the register this operand needs valid, if any. -/
def Operand.source : Operand → List RegNum
  | .zero => []
  | .reg r => [r]
  | .imm _ => []

/-- What Decode needs of an instruction (R113 to R116). Fields an instruction does not use are 0
(R10, assumption 5). -/
structure Shape where
  op : Opcode
  rd : RegNum
  imm : Word
  a : Operand
  b : Operand
  d : Operand
deriving DecidableEq, Repr

/-- R114, column Sources: the registers among the operands. -/
def Shape.sources (sh : Shape) : List RegNum := sh.a.source ++ sh.b.source ++ sh.d.source

/-- `OperandRead` (R116), with `u.rob <- rob_tail` (R113). `ea` and `result` are not known yet. -/
def Shape.operandRead (sh : Shape) (s : State) : MicroOp where
  op := sh.op
  pc := s.d.pc
  rd := sh.rd
  rob := s.rob.tail
  imm := sh.imm
  a := sh.a.read s
  b := sh.b.read s
  d := sh.d.read s
  ea := 0
  result := 0
  unit := unitOf sh.op

/-- R129: `ea <- u32(u.a + u.b)`. -/
def effectiveAddress (u : MicroOp) : Word := u.a + u.b

/-- R64, R129: `0 ≤ s32(ea) < DMEM_CELLS`. -/
def addressInRange (l : Launch) (ea : Word) : Bool :=
  decide (0 ≤ ea.toInt ∧ ea.toInt < (l.dmemCells : Int))

end Sys2Proof.Machine
end

