-- ==== Sys2Proof/Machine/Dispatching.lean ====
section
/-! DEFINITION. The dispatch of a decoded instruction: the hazards and the all-or-nothing dispatch of
spec/40_pipeline.md R113 to R119, the one operation every meaning of `exec` goes through. -/

namespace Sys2Proof.Machine

/-- R114: a source register, or Z for BZ and BNZ, is not valid. -/
def dataHazard (sh : Shape) (s : State) : Bool :=
  sh.sources.any (fun r => !s.regValid r) || (readsZ sh.op && !s.z.valid)

/-- R115: the target queue or the ROB is full. -/
def structHazard (op : Opcode) (s : State) : Bool :=
  (if isMem op then decide (s.lsq.count = s.launch.lsqSize) else !s.iq.hasFree)
    || decide (s.rob.count = s.launch.robSize)

/-- The ROB entry of the record `u` whose instruction record has `rd` in its `rd` field (R118). -/
def MicroOp.robEntry (u : MicroOp) (rd : RegNum) : RobEntry where
  complete := false
  pc := u.pc
  op := u.op
  rd := rd
  hasRd := hasDest u.op

/-- `RobAllocate(D.pc, d)` (R118) for the record `u`. The entry's `rd` is `d.rd`, the field of the
record in `D` (R80), also where the instruction does not use it. -/
def State.robAllocate (s : State) (u : MicroOp) : State :=
  { s with rob := s.rob.allocate s.launch.robSize (u.robEntry (recRd s.d.word)) }

/-- R117: a destination register becomes invalid, tagged with the ROB index of `u`. -/
def State.invalidateDest (s : State) (u : MicroOp) : State :=
  { s with regs := if hasDest u.op then s.regs.invalidate u.rd u.rob else s.regs }

/-- R117: Z becomes invalid, tagged with the ROB index of `u`, if `u` sets it. -/
def State.invalidateZ (s : State) (u : MicroOp) : State :=
  { s with z := if setsZ u.op then s.z.invalidate u.rob else s.z }

/-- R113: into the LSQ if it is a memory instruction (R124), else into the IQ (R123). -/
def State.enqueue (s : State) (u : MicroOp) : State :=
  { s with
    iq := if isMem u.op then s.iq else s.iq.insert u
    lsq := if isMem u.op then s.lsq.push s.launch.lsqSize u else s.lsq }

/-- R113, the dispatch lines up to `DispatchEffect`. -/
def State.allocate (s : State) (u : MicroOp) : State :=
  (((s.robAllocate u).invalidateDest u).invalidateZ u).enqueue u

/-- R113 from the data hazards on: stall, or dispatch the record and apply the instruction's
dispatch effect (branches only). Operands are read before the destination is invalidated (R116). -/
def dispatch (sh : Shape) (effect : MicroOp → State → State) (s : State) :
    Host.Outcome State Fault Refusal :=
  if dataHazard sh s || structHazard sh.op s then .next s.stallDecode
  else .next (effect (sh.operandRead s) (s.allocate (sh.operandRead s))).clearDecode

/-- `DispatchEffect` of every instruction that is not a branch (R113): none. -/
def noEffect (_ : MicroOp) (s : State) : State := s

end Sys2Proof.Machine
end

