-- ==== Sys2Proof/Machine/Alu.lean ====
section
/-! DEFINITION. The twelve ALU instructions (spec/42_alu.md): what Decode does with each (its
`exec…`), and the result its unit computes (its `…Result`, R130), on words modulo 2^32. -/

namespace Sys2Proof.Machine

/-- R116: the register form, `u.a <- x[rs1]` and `u.b <- x[rs2]`. -/
def aluRegShape (op : Opcode) (rd rs1 rs2 : RegNum) : Shape where
  op := op
  rd := rd
  imm := 0
  a := .reg rs1
  b := .reg rs2
  d := .zero

/-- R116: the literal form, `u.a <- x[rs1]` and `u.b <- imm`. -/
def aluLitShape (op : Opcode) (rd rs1 : RegNum) (imm : Word) : Shape where
  op := op
  rd := rd
  imm := imm
  a := .reg rs1
  b := .imm imm
  d := .zero

/-- R160: `u32(a + b)`. -/
def addResult (a b : Word) : Word := a + b

/-- R161: `u32(a - b)`. -/
def subResult (a b : Word) : Word := a - b

/-- R162: bit by bit and. -/
def andResult (a b : Word) : Word := a &&& b

/-- R163: bit by bit or. -/
def orResult (a b : Word) : Word := a ||| b

/-- R164: bit by bit exclusive or. -/
def xorResult (a b : Word) : Word := a ^^^ b

/-- R165: `u32(s32(a) · s32(b))`, the exact signed product narrowed to its low 32 bits. -/
def mulResult (a b : Word) : Word := BitVec.ofInt 32 (a.toInt * b.toInt)

/-- ADD (R160). -/
def execAdd (rd rs1 rs2 : RegNum) (s : State) : Host.Outcome State Fault Refusal :=
  dispatch (aluRegShape .add rd rs1 rs2) noEffect s

/-- SUB (R161). -/
def execSub (rd rs1 rs2 : RegNum) (s : State) : Host.Outcome State Fault Refusal :=
  dispatch (aluRegShape .sub rd rs1 rs2) noEffect s

/-- AND (R162). -/
def execAnd (rd rs1 rs2 : RegNum) (s : State) : Host.Outcome State Fault Refusal :=
  dispatch (aluRegShape .and rd rs1 rs2) noEffect s

/-- OR (R163). -/
def execOr (rd rs1 rs2 : RegNum) (s : State) : Host.Outcome State Fault Refusal :=
  dispatch (aluRegShape .or rd rs1 rs2) noEffect s

/-- XOR (R164). -/
def execXor (rd rs1 rs2 : RegNum) (s : State) : Host.Outcome State Fault Refusal :=
  dispatch (aluRegShape .xor rd rs1 rs2) noEffect s

/-- MUL (R165). -/
def execMul (rd rs1 rs2 : RegNum) (s : State) : Host.Outcome State Fault Refusal :=
  dispatch (aluRegShape .mul rd rs1 rs2) noEffect s

/-- ADDL (R166). -/
def execAddl (rd rs1 : RegNum) (imm : Word) (s : State) : Host.Outcome State Fault Refusal :=
  dispatch (aluLitShape .addl rd rs1 imm) noEffect s

/-- SUBL (R167). -/
def execSubl (rd rs1 : RegNum) (imm : Word) (s : State) : Host.Outcome State Fault Refusal :=
  dispatch (aluLitShape .subl rd rs1 imm) noEffect s

/-- ANDL (R168). -/
def execAndl (rd rs1 : RegNum) (imm : Word) (s : State) : Host.Outcome State Fault Refusal :=
  dispatch (aluLitShape .andl rd rs1 imm) noEffect s

/-- ORL (R169). -/
def execOrl (rd rs1 : RegNum) (imm : Word) (s : State) : Host.Outcome State Fault Refusal :=
  dispatch (aluLitShape .orl rd rs1 imm) noEffect s

/-- XORL (R170). -/
def execXorl (rd rs1 : RegNum) (imm : Word) (s : State) : Host.Outcome State Fault Refusal :=
  dispatch (aluLitShape .xorl rd rs1 imm) noEffect s

/-- MULL (R171). -/
def execMull (rd rs1 : RegNum) (imm : Word) (s : State) : Host.Outcome State Fault Refusal :=
  dispatch (aluLitShape .mull rd rs1 imm) noEffect s

end Sys2Proof.Machine
end

