-- ==== Sys2Proof/Machine/Branch.lean ====
section
/-! DEFINITION. Branches and the jump (spec/44_branch.md), resolved in the cycle they dispatch
(R186). A target is any 32-bit value, checked only at the next fetch (R190). -/

namespace Sys2Proof.Machine

/-- R116, R185, R187: no register; the immediate is the offset. -/
def branchShape (op : Opcode) (imm : Word) : Shape where
  op := op
  rd := 0
  imm := imm
  a := .zero
  b := .zero
  d := .zero

/-- R116, R189: address rs1, offset imm. -/
def jumpShape (rs1 : RegNum) (imm : Word) : Shape where
  op := .jump
  rd := 0
  imm := imm
  a := .reg rs1
  b := .imm imm
  d := .zero

/-- R185: `if Z.value = 1: pc <- u32(D.pc + imm); clear F`. -/
def bzEffect (u : MicroOp) (s : State) : State :=
  if s.z.value then s.takeBranch (u.pc + u.imm) else s

/-- R187: `if Z.value = 0: pc <- u32(D.pc + imm); clear F`. -/
def bnzEffect (u : MicroOp) (s : State) : State :=
  if s.z.value then s else s.takeBranch (u.pc + u.imm)

/-- R189: `pc <- u32(x[rs1] + imm); clear F`. -/
def jumpEffect (u : MicroOp) (s : State) : State := s.takeBranch (u.a + u.b)

/-- BZ (R185). -/
def execBz (imm : Word) (s : State) : Host.Outcome State Fault Refusal :=
  dispatch (branchShape .bz imm) bzEffect s

/-- BNZ (R187). -/
def execBnz (imm : Word) (s : State) : Host.Outcome State Fault Refusal :=
  dispatch (branchShape .bnz imm) bnzEffect s

/-- JUMP (R189). -/
def execJump (rs1 : RegNum) (imm : Word) (s : State) : Host.Outcome State Fault Refusal :=
  dispatch (jumpShape rs1 imm) jumpEffect s

end Sys2Proof.Machine
end

