-- ==== Sys2Proof/Machine/Halt.lean ====
section
/-! DEFINITION. HALT (spec/45_halt.md). -/

namespace Sys2Proof.Machine

/-- R116: HALT has no operand. -/
def haltShape : Shape where
  op := .halt
  rd := 0
  imm := 0
  a := .zero
  b := .zero
  d := .zero

/-- HALT (R195): the halt flag is set and `F` squashed the first cycle Decode examines it, before the
hazard checks, even if it then stalls (R110, R113). -/
def execHalt (s : State) : Host.Outcome State Fault Refusal :=
  dispatch haltShape noEffect s.stopFetch

end Sys2Proof.Machine
end

