-- ==== Sys2Proof/Machine/Mem.lean ====
section
/-! DEFINITION. The memory instructions (spec/41_memory_ops.md): their dispatch. The address check in
MEM1 and the access in MEM3 they share are `stageMem1` and `stageMem3` (Machine/Units.lean). -/

namespace Sys2Proof.Machine

/-- R116, R150: base rs1, offset imm. -/
def loadShape (rd rs1 : RegNum) (imm : Word) : Shape where
  op := .load
  rd := rd
  imm := imm
  a := .reg rs1
  b := .imm imm
  d := .zero

/-- R116, R151: base rs1, index rs2. -/
def ldrShape (rd rs1 rs2 : RegNum) : Shape where
  op := .ldr
  rd := rd
  imm := 0
  a := .reg rs1
  b := .reg rs2
  d := .zero

/-- R116, R152: data rs1, base rs2, offset imm. -/
def storeShape (rs1 rs2 : RegNum) (imm : Word) : Shape where
  op := .store
  rd := 0
  imm := imm
  a := .reg rs2
  b := .imm imm
  d := .reg rs1

/-- R116, R153: data rs1, base rs2, index rs3. -/
def strShape (rs1 rs2 rs3 : RegNum) : Shape where
  op := .str
  rd := 0
  imm := 0
  a := .reg rs2
  b := .reg rs3
  d := .reg rs1

/-- LOAD (R150). -/
def execLoad (rd rs1 : RegNum) (imm : Word) (s : State) : Host.Outcome State Fault Refusal :=
  dispatch (loadShape rd rs1 imm) noEffect s

/-- LDR (R151). -/
def execLdr (rd rs1 rs2 : RegNum) (s : State) : Host.Outcome State Fault Refusal :=
  dispatch (ldrShape rd rs1 rs2) noEffect s

/-- STORE (R152): no register is invalidated. -/
def execStore (rs1 rs2 : RegNum) (imm : Word) (s : State) : Host.Outcome State Fault Refusal :=
  dispatch (storeShape rs1 rs2 imm) noEffect s

/-- STR (R153): no register is invalidated. -/
def execStr (rs1 rs2 rs3 : RegNum) (s : State) : Host.Outcome State Fault Refusal :=
  dispatch (strShape rs1 rs2 rs3) noEffect s

end Sys2Proof.Machine
end

