-- ==== Sys2Proof/Machine/Move.lean ====
section
/-! DEFINITION. Move-immediate (spec/43_move.md). -/

namespace Sys2Proof.Machine

/-- R116, R180: no source; the value is the record's immediate. -/
def movcShape (rd : RegNum) (imm : Word) : Shape where
  op := .movc
  rd := rd
  imm := imm
  a := .zero
  b := .zero
  d := .zero

/-- R180: `u.result <- u.imm`. -/
def movcResult (imm : Word) : Word := imm

/-- MOVC (R180). -/
def execMovc (rd : RegNum) (imm : Word) (s : State) : Host.Outcome State Fault Refusal :=
  dispatch (movcShape rd imm) noEffect s

end Sys2Proof.Machine
end

