-- ==== Sys2Proof/Machine/Dispatch.lean ====
section
/-! DEFINITION. What Decode does with a legal instruction in the Decode latch (spec/40_pipeline.md
R113): one arm per constructor, each one call of that instruction's meaning. -/

namespace Sys2Proof.Machine

def exec (i : Instr) (s : State) : Host.Outcome State Fault Refusal :=
  match i with
  | .movc rd imm => Sys2Proof.Machine.execMovc rd imm s
  | .add rd rs1 rs2 => Sys2Proof.Machine.execAdd rd rs1 rs2 s
  | .sub rd rs1 rs2 => Sys2Proof.Machine.execSub rd rs1 rs2 s
  | .and rd rs1 rs2 => Sys2Proof.Machine.execAnd rd rs1 rs2 s
  | .or rd rs1 rs2 => Sys2Proof.Machine.execOr rd rs1 rs2 s
  | .xor rd rs1 rs2 => Sys2Proof.Machine.execXor rd rs1 rs2 s
  | .mul rd rs1 rs2 => Sys2Proof.Machine.execMul rd rs1 rs2 s
  | .addl rd rs1 imm => Sys2Proof.Machine.execAddl rd rs1 imm s
  | .subl rd rs1 imm => Sys2Proof.Machine.execSubl rd rs1 imm s
  | .andl rd rs1 imm => Sys2Proof.Machine.execAndl rd rs1 imm s
  | .orl rd rs1 imm => Sys2Proof.Machine.execOrl rd rs1 imm s
  | .xorl rd rs1 imm => Sys2Proof.Machine.execXorl rd rs1 imm s
  | .mull rd rs1 imm => Sys2Proof.Machine.execMull rd rs1 imm s
  | .load rd rs1 imm => Sys2Proof.Machine.execLoad rd rs1 imm s
  | .ldr rd rs1 rs2 => Sys2Proof.Machine.execLdr rd rs1 rs2 s
  | .store rs1 rs2 imm => Sys2Proof.Machine.execStore rs1 rs2 imm s
  | .str rs1 rs2 rs3 => Sys2Proof.Machine.execStr rs1 rs2 rs3 s
  | .bz imm => Sys2Proof.Machine.execBz imm s
  | .bnz imm => Sys2Proof.Machine.execBnz imm s
  | .jump rs1 imm => Sys2Proof.Machine.execJump rs1 imm s
  | .halt => Sys2Proof.Machine.execHalt s

end Sys2Proof.Machine
end

