-- ==== Sys2Proof/Machine/Units.lean ====
section
/-! DEFINITION. The back end: retirement (spec/40_pipeline.md R102 to R105), the functional-unit
stages and the writeback (R126 to R133), and issue (R120 to R122). -/

namespace Sys2Proof.Machine

/-- `Compute(u)` (R130), the result function of the family rules. -/
def compute (u : MicroOp) : Word :=
  match u.op with
  | .movc => movcResult u.imm
  | .add | .addl => addResult u.a u.b
  | .sub | .subl => subResult u.a u.b
  | .and | .andl => andResult u.a u.b
  | .or | .orl => orResult u.a u.b
  | .xor | .xorl => xorResult u.a u.b
  | .mul | .mull => mulResult u.a u.b
  | .load | .ldr | .store | .str => 0
  | .bz | .bnz | .jump => 0
  | .halt => 0

/-- `Writeback(u)` (R132): the register and Z, each guarded by its tag, and the ROB entry. -/
def State.writeback (s : State) (u : MicroOp) : State :=
  { s with
    regs := if hasDest u.op then s.regs.writeback u.rd u.result u.rob else s.regs
    z := if setsZ u.op then s.z.writeback (zeroFlag u.result) u.rob else s.z
    rob := s.rob.setComplete u.rob }

/-- The store of MEM3 (R129): `MemWrite(u.ea, u.d); rob[u.rob].complete <- 1`. -/
def State.memStore (s : State) (u : MicroOp) : State :=
  { s with
    mem := memWrite s.mem u.ea.toNat u.d
    rob := s.rob.setComplete u.rob }

/-- The load of MEM3 (R129): `u.result <- MemRead(u.ea)`. -/
def MicroOp.loaded (u : MicroOp) (m : Memory) : MicroOp :=
  { u with result := memRead m u.ea.toNat }

/-- The record with its result, as stage 1 hands it on (R127, R128). -/
def MicroOp.computed (u : MicroOp) : MicroOp := { u with result := compute u }

/-- The record with its effective address, as MEM1 hands it on (R129). -/
def MicroOp.addressed (u : MicroOp) : MicroOp := { u with ea := effectiveAddress u }

/-! ### Retirement -/

/-- The retirement of the head entry `e` (R102, R103). -/
def State.retireEntry (s : State) (e : RobEntry) : State :=
  { s with
    rob := s.rob.pop s.launch.robSize
    completed := s.completed + 1
    ret := some { pc := e.pc, op := e.op }
    halted := s.halted || decide (e.op = .halt) }

/-- `Retire()` (R102): only the head, only when it is complete, at most one a cycle (R104). -/
def retireStage (s : State) : State :=
  match s.rob.retirable with
  | none => { s with ret := none }
  | some e => s.retireEntry e

/-! ### Final stages -/

/-- `StageMEM3()` (R129). -/
def stageMem3 (s : State) : State :=
  match s.mem3 with
  | none => s
  | some u =>
    if isLoad u.op then { s.writeback (u.loaded s.mem) with mem3 := none }
    else { s.memStore u with mem3 := none }

/-- `StageMUL3()` (R128). -/
def stageMul3 (s : State) : State :=
  match s.mul3 with
  | none => s
  | some u => { s.writeback u with mul3 := none }

/-- `StageINT2()` (R127). -/
def stageInt2 (s : State) : State :=
  match s.int2 with
  | none => s
  | some u => { s.writeback u with int2 := none }

/-! ### Middle stages -/

/-- `StageMEM2()` (R129). -/
def stageMem2 (s : State) : State :=
  match s.mem2 with
  | none => s
  | some u => { s with mem3 := some u, mem2 := none }

/-- `StageMUL2()` (R128). -/
def stageMul2 (s : State) : State :=
  match s.mul2 with
  | none => s
  | some u => { s with mul3 := some u, mul2 := none }

/-! ### First stages -/

/-- `StageMEM1()` (R129): the address and its range check, which raises DATA_ADDRESS_RANGE (R204)
and leaves the record in MEM1 (R202). -/
def stageMem1 (s : State) : State :=
  match s.mem1 with
  | none => s
  | some u =>
    if addressInRange s.launch (effectiveAddress u) then
      { s with mem2 := some u.addressed, mem1 := none }
    else s.raise .dataAddressRange u.pc ((effectiveAddress u).zeroExtend 64)

/-- `StageMUL1()` (R128). -/
def stageMul1 (s : State) : State :=
  match s.mul1 with
  | none => s
  | some u => { s with mul2 := some u.computed, mul1 := none }

/-- `StageINT1()` (R127). -/
def stageInt1 (s : State) : State :=
  match s.int1 with
  | none => s
  | some u => { s with int2 := some u.computed, int1 := none }

/-! ### Issue -/

/-- `IssueLSQ()` (R122): the oldest memory instruction only. -/
def issueLsq (s : State) : State :=
  if s.mem1.isSome then s
  else
    match s.lsq.front with
    | none => s
    | some u => { s with mem1 := some u, lsq := s.lsq.pop s.launch.lsqSize }

/-- R121: the slot and record unit `fu` takes next. -/
def State.nextFor (s : State) (fu : FuncUnit) : Option (Nat × MicroOp) :=
  s.iq.oldest fu (s.rob.age s.launch.robSize) 0

/-- `IssueIQ(INT)` (R121). -/
def issueInt (s : State) : State :=
  if s.int1.isSome then s
  else
    match s.nextFor .int with
    | none => s
    | some (k, u) => { s with int1 := some u, iq := s.iq.free k }

/-- `IssueIQ(MUL)` (R121). -/
def issueMul (s : State) : State :=
  if s.mul1.isSome then s
  else
    match s.nextFor .mul with
    | none => s
    | some (k, u) => { s with mul1 := some u, iq := s.iq.free k }

/-- Steps 1 to 4 of R100 up to the stage that can raise a fault, MEM1. -/
def throughMem1 (s : State) : State :=
  stageMem1 (stageMul2 (stageMem2 (stageInt2 (stageMul3 (stageMem3 (retireStage s))))))

/-- The rest of step 4, and step 5 (R100). -/
def fromMul1 (s : State) : State :=
  issueMul (issueInt (issueLsq (stageInt1 (stageMul1 s))))

/-- Steps 1 to 5 of R100: everything before Decode. A fault of MEM1 skips the steps after it
(R202). -/
def backEnd (s : State) : State :=
  if (throughMem1 s).fault.isSome then throughMem1 s else fromMul1 (throughMem1 s)

end Sys2Proof.Machine
end

