-- ==== Sys2Proof/Machine/Front.lean ====
section
/-! DEFINITION. The front end, Decode and Fetch (spec/40_pipeline.md R110 to R113), and one whole
cycle (R100). -/

namespace Sys2Proof.Machine

/-- `Decode()` (R113): an illegal record raises ILLEGAL_INSTRUCTION and stays in `D` (R202, R203);
a legal one is `exec`'s. -/
def decodeStage (s : State) : Host.Outcome State Fault Refusal :=
  if s.d.valid then
    match decode s.d.word with
    | .error _ => .next (s.raise .illegalInstruction s.d.pc s.d.word)
    | .ok i => exec i s
  else .next s

/-- R22: `pc ≥ CODE_BASE` and `(pc - CODE_BASE) mod 4 = 0`. -/
def pcWellFormed (l : Launch) (pc : Word) : Bool :=
  decide (l.codeBase.toNat ≤ pc.toNat ∧ (pc.toNat - l.codeBase.toNat) % 4 = 0)

/-- R22: `index = (pc - base) / 4`. -/
def codeIndex (l : Launch) (pc : Word) : Nat := (pc.toNat - l.codeBase.toNat) / 4

/-- `Code(idx)` at a PC (R60); none at or past CODE_SIZE. -/
def codeAt (l : Launch) (pc : Word) : Option Record := l.code[codeIndex l pc]?

/-- R111: the hand-off of `F` to an empty `D`. -/
def State.handOff (s : State) : State :=
  { s with d := FrontLatch.fill s.f.pc s.f.word, f := s.f.clear }

/-- `F.stalled <- 1` (R111). -/
def State.stallFetch (s : State) : State := { s with f := { s.f with stalled := true } }

/-- R111: `F <- (valid 1, stalled 0, pc, Code(idx)); pc <- u32(pc + 4)`. -/
def State.fetched (s : State) (w : Record) : State :=
  { s with f := FrontLatch.fill s.pc w, pc := s.pc + 4 }

/-- The last lines of R111: a record just fetched goes on to an empty `D` in the same cycle. -/
def State.passOn (s : State) : State := if s.d.valid then s.stallFetch else s.handOff

/-- R111 from the PC check on: raise FETCH_PC_INVALID (R205), fetch nothing past the end of code, or
fetch one record. -/
def fetchRecord (s : State) : State :=
  if pcWellFormed s.launch s.pc then
    match codeAt s.launch s.pc with
    | none => s
    | some w => (s.fetched w).passOn
  else s.raise .fetchPcInvalid s.pc (s.pc.zeroExtend 64)

/-- `F.stalled <- 0`, the first line of R111. -/
def State.unstallFetch (s : State) : State := { s with f := { s.f with stalled := false } }

/-- `Fetch()` (R110, R111) after its first line. -/
def fetchBody (s : State) : State :=
  if s.haltFetch then s
  else if s.f.valid then
    if s.d.valid then s.stallFetch else fetchRecord s.handOff
  else fetchRecord s

/-- `Fetch()` (R110, R111). -/
def fetchStage (s : State) : State := fetchBody s.unstallFetch

/-- Steps 7 and 8 of R100, from the state Decode leaves; a fault skips Fetch but not the increment of
`cycle` (R202). -/
def finishCycle (s : State) : State :=
  if s.fault.isSome then s.tick else (fetchStage s).tick

/-- One cycle (R100), for a core that is not stopped. -/
def runCycle (s : State) : Host.Outcome State Fault Refusal :=
  if (backEnd s).fault.isSome then .next (backEnd s).tick
  else
    match decodeStage (backEnd s) with
    | .next t => .next (finishCycle t)
    | .fault r => .fault r
    | .refused r => .refused r

/-- The `step` input (R50, R101): a stopped core runs no cycle. After a fault it is stopped for good
and the outcome names the fault (R202); stopped otherwise, its state stays the end state. -/
def stepOnce (s : State) : Host.Outcome State Fault Refusal :=
  match s.fault with
  | some r => .fault r.toFault
  | none => if s.stopped then .next s else runCycle s

/-- Code memory with record `r` at index `n`; the records a gap needs are 0. -/
def placeRecord : List Record → Nat → Record → List Record
  | [], 0, r => [r]
  | _ :: t, 0, r => r :: t
  | [], n + 1, r => 0 :: placeRecord [] n r
  | w :: t, n + 1, r => w :: placeRecord t n r

/-- The state as the fetch of record `r` at the current PC leaves it (R111 with an empty `D`): the
record stands in code memory, `pc` is past it, and `D` holds it (assumption 4). -/
def State.withFetched (s : State) (r : Record) : State :=
  { s with
    launch := { s.launch with code := placeRecord s.launch.code (codeIndex s.launch s.pc) r }
    pc := s.pc + 4
    d := FrontLatch.fill s.pc r }

end Sys2Proof.Machine
end

