-- ==== Sys2Proof/Machine/Step.lean ====
section
/-! DEFINITION. The step of the machine: one cycle of spec/40_pipeline.md R100 under the stop rule
R101, and the placing of an instruction where the next step's Decode runs it. -/

namespace Sys2Proof.Machine

/-- One call of the `step` input (R50). -/
def step (s : State) : Host.Outcome State Fault Refusal := stepOnce s

/-- `s` with the instruction whose bits are `w` placed so that the very next step decodes and runs it:
loaded into code memory and fetched into `D` (assumption 4). -/
def State.withFetchWord (s : State) (nbits w : Nat) : State :=
  s.withFetched (tableRecord nbits w)

end Sys2Proof.Machine
end

