-- ==== Sys2Proof/Safety.lean ====
section
/-! DEFINITION. The terms claims are stated in: when a run is safe, what is in flight, the invariants the
rules keep (spec/40_pipeline.md R125, R140 to R144), what a dispatch does (R113 to R119), and an
instruction alone in the core. -/

namespace Sys2Proof.Machine

/-! ### Safe runs -/

/-- A state a claim about a program's end may speak of: no fault is recorded (R208). -/
def State.faultFree (s : State) : Prop := s.fault = none

/-- A terminal state that is not a fault (R101): nothing but reset leaves it (R218). -/
def State.ended (s : State) : Prop := s.fault = none ∧ s.stopped = true

/-! ### Instructions in flight -/

/-- The occupied entries of a queue. -/
def occupied (q : List (Option QueueEntry)) : List QueueEntry := q.filterMap id

/-- The records in the occupied entries of a queue. -/
def queued (q : List (Option QueueEntry)) : List MicroOp := (occupied q).map QueueEntry.u

/-- Dispatched and not yet issued (R141): the IQ or the LSQ holds the record. -/
def State.waiting (s : State) : List MicroOp := queued s.iq ++ queued s.lsq.entries

/-- In the first stage of a unit. -/
def State.inStage1 (s : State) : List MicroOp :=
  s.int1.toList ++ s.mul1.toList ++ s.mem1.toList

/-- In the second stage of a unit. -/
def State.inStage2 (s : State) : List MicroOp :=
  s.int2.toList ++ s.mul2.toList ++ s.mem2.toList

/-- In the third stage of a unit; the integer unit has none (R127). -/
def State.inStage3 (s : State) : List MicroOp := s.mul3.toList ++ s.mem3.toList

/-- Dispatched and not yet written back, youngest first. -/
def State.inFlight (s : State) : List MicroOp :=
  s.waiting ++ s.inStage1 ++ s.inStage2 ++ s.inStage3

/-- `u` will write register `i`. -/
def MicroOp.writes (u : MicroOp) (i : RegNum) : Bool := hasDest u.op && decide (u.rd = i)

/-- The youngest in-flight producer of register `i` (R142). -/
def State.producer (s : State) (i : RegNum) : Option MicroOp :=
  s.inFlight.find? fun u => u.writes i

/-- The youngest in-flight producer of Z (R142). -/
def State.zProducer (s : State) : Option MicroOp := s.inFlight.find? fun u => setsZ u.op

/-! ### Invariants -/

/-- A ring (R38, R39): the occupied entries are the `count` entries from the head on. -/
structure RingInv {α : Type} (entries : List (Option α)) (head tail count size : Nat) : Prop where
  length : entries.length = size
  head_lt : head < size
  count_le : count ≤ size
  tail_eq : tail = (head + count) % size
  filled : ∀ k, k < size → ((entries.getD k none).isSome = true ↔ ringAge size head k < count)

/-- What a waiting record is (R37, R38): ready, and in the queue of its unit. -/
structure QueueInv (s : State) : Prop where
  iq_length : s.iq.length = s.launch.iqSize
  iq_entry : ∀ e ∈ occupied s.iq,
    e.ready = true ∧ e.u.unit = unitOf e.u.op ∧ isMem e.u.op = false
  lsq_ring : RingInv s.lsq.entries s.lsq.head s.lsq.tail s.lsq.count s.launch.lsqSize
  lsq_entry : ∀ e ∈ occupied s.lsq.entries,
    e.ready = true ∧ e.u.unit = unitOf e.u.op ∧ isMem e.u.op = true

/-- What a unit's latch holds (R127 to R129): an instruction of that unit, with its result or its
checked address once stage 1 has run. -/
structure UnitInv (s : State) : Prop where
  int1 : ∀ u ∈ s.int1, unitOf u.op = .int
  int2 : ∀ u ∈ s.int2, unitOf u.op = .int ∧ u.result = compute u
  mul1 : ∀ u ∈ s.mul1, unitOf u.op = .mul
  mul2 : ∀ u ∈ s.mul2, unitOf u.op = .mul ∧ u.result = compute u
  mul3 : ∀ u ∈ s.mul3, unitOf u.op = .mul ∧ u.result = compute u
  mem1 : ∀ u ∈ s.mem1, unitOf u.op = .mem
  mem2 : ∀ u ∈ s.mem2,
    unitOf u.op = .mem ∧ u.ea = effectiveAddress u ∧ addressInRange s.launch u.ea = true
  mem3 : ∀ u ∈ s.mem3,
    unitOf u.op = .mem ∧ u.ea = effectiveAddress u ∧ addressInRange s.launch u.ea = true

/-- R125 and R131: one instruction is dispatched a cycle and every one moves on every cycle, so each
place of the convoy holds at most one. -/
structure ConvoyInv (s : State) : Prop where
  waiting : s.waiting.length ≤ 1
  stage1 : s.inStage1.length ≤ 1
  stage2 : s.inStage2.length ≤ 1
  stage3 : s.inStage3.length ≤ 1

/-- R118, R140, R141, R143: the ROB holds every in-flight instruction once, in program order, with its
destination register if it has one, and every incomplete entry is in flight. -/
structure RobInv (s : State) : Prop where
  ring : RingInv s.rob.entries s.rob.head s.rob.tail s.rob.count s.launch.robSize
  tracked : ∀ u ∈ s.inFlight, ∃ rd, s.rob.at? u.rob = some (u.robEntry rd) ∧
    (hasDest u.op = true → rd = u.rd)
  ordered : s.inFlight.Pairwise fun y o =>
    s.rob.age s.launch.robSize o.rob < s.rob.age s.launch.robSize y.rob
  pending : ∀ k, k < s.launch.robSize → ∀ e ∈ s.rob.at? k, e.complete = false →
    ∃ u ∈ s.inFlight, u.rob = k

/-- R142: a register or Z is invalid exactly while a producer of it is in flight, and its tag names
the youngest. -/
structure ScoreboardInv (s : State) : Prop where
  free : ∀ i, s.producer i = none → s.regValid i = true
  held : ∀ i, ∀ u ∈ s.producer i, s.regValid i = false ∧ s.regTag i = u.rob
  z_free : s.zProducer = none → s.z.valid = true
  z_held : ∀ u ∈ s.zProducer, s.z.valid = false ∧ s.z.tag = u.rob

/-- The legal instruction a front-end latch holds, if it holds one. -/
def decodedIn (l : FrontLatch) : Option Instr :=
  if l.valid then (decode l.word).toOption else none

/-- What the front-end latches hold (R110, R111, R119, R196): records read from code memory, the
younger in `F`, each followed by the next PC; and after the halt flag only the HALT itself. -/
structure FrontInv (s : State) : Prop where
  fetch_behind : s.f.valid = true → s.d.valid = true
  decode_record : s.d.valid = true → codeAt s.launch s.d.pc = some s.d.word
  fetch_record : s.f.valid = true → codeAt s.launch s.f.pc = some s.f.word
  fetch_follows : s.f.valid = true → s.f.pc = s.d.pc + 4 ∧ s.pc = s.f.pc + 4
  pc_follows : s.haltFetch = false → s.d.valid = true → s.f.valid = false → s.pc = s.d.pc + 4
  halt_empties : s.haltFetch = true → s.f.valid = false
  halt_holds : s.haltFetch = true → s.d.valid = true → decodedIn s.d = some .halt

/-- Data memory: the canonical form, and only cells that exist (R62). -/
structure MemoryInv (s : State) : Prop where
  form : s.mem.wf
  cells : ∀ c ∈ s.mem, c.1 < s.launch.dmemCells

/-- The invariants together. -/
structure Inv (s : State) : Prop where
  launch : s.launch.wellFormed
  queue : QueueInv s
  units : UnitInv s
  convoy : ConvoyInv s
  rob : RobInv s
  scoreboard : ScoreboardInv s
  front : FrontInv s
  memory : MemoryInv s

/-- The state Decode finds (R100, R125): issue has emptied the queues. -/
structure DecodeInv (s : State) : Prop where
  inv : Inv s
  issued : s.waiting = []

/-! ### Dispatch -/

/-- R114, column Sources: the registers an instruction needs valid. -/
def sourcesOf : Instr → List RegNum
  | .movc _ _ => []
  | .add _ rs1 rs2 | .sub _ rs1 rs2 | .and _ rs1 rs2 | .or _ rs1 rs2 | .xor _ rs1 rs2
  | .mul _ rs1 rs2 => [rs1, rs2]
  | .addl _ rs1 _ | .subl _ rs1 _ | .andl _ rs1 _ | .orl _ rs1 _ | .xorl _ rs1 _
  | .mull _ rs1 _ => [rs1]
  | .load _ rs1 _ => [rs1]
  | .ldr _ rs1 rs2 => [rs1, rs2]
  | .store rs1 rs2 _ => [rs1, rs2]
  | .str rs1 rs2 rs3 => [rs1, rs2, rs3]
  | .bz _ | .bnz _ => []
  | .jump rs1 _ => [rs1]
  | .halt => []

/-- R83, R114: the destination register of an instruction, if it has one. -/
def destOf : Instr → Option RegNum
  | .movc rd _ => some rd
  | .add rd _ _ | .sub rd _ _ | .and rd _ _ | .or rd _ _ | .xor rd _ _ | .mul rd _ _ => some rd
  | .addl rd _ _ | .subl rd _ _ | .andl rd _ _ | .orl rd _ _ | .xorl rd _ _
  | .mull rd _ _ => some rd
  | .load rd _ _ | .ldr rd _ _ => some rd
  | .store _ _ _ | .str _ _ _ => none
  | .bz _ | .bnz _ | .jump _ _ => none
  | .halt => none

/-- R114, R115: one of the conditions under which Decode stalls instruction `i`. -/
def Stalls (s : State) (i : Instr) : Prop :=
  (∃ r ∈ sourcesOf i, s.regValid r = false) ∨
  (readsZ (instrOpcode i) = true ∧ s.z.valid = false) ∨
  (isMem (instrOpcode i) = true ∧ s.lsq.count = s.launch.lsqSize) ∨
  (isMem (instrOpcode i) = false ∧ s.iq.hasFree = false) ∨
  s.rob.count = s.launch.robSize

/-- R21, R185 to R189: in state `s` the instruction `i` dispatches from `D` and is a taken branch to
`target`. -/
def TakenTo (s : State) (i : Instr) (target : Word) : Prop :=
  ¬ Stalls s i ∧
  ((∃ imm, i = .bz imm ∧ s.z.valid = true ∧ s.z.value = true ∧ target = s.d.pc + imm) ∨
    (∃ imm, i = .bnz imm ∧ s.z.valid = true ∧ s.z.value = false ∧ target = s.d.pc + imm) ∨
    ∃ rs1 imm, i = .jump rs1 imm ∧ s.regValid rs1 = true ∧ target = s.reg rs1 + imm)

/-- When an instruction dispatches, in a state Decode can find: its sources are valid, Z too for BZ
and BNZ, and the ROB has room. A full IQ or LSQ is not among the conditions: in such a state neither is
full (R125). -/
structure CanDispatch (s : State) (op : Opcode) (sources : List RegNum) : Prop where
  found : DecodeInv s
  sources : ∀ r ∈ sources, s.regValid r = true
  zero : readsZ op = true → s.z.valid = true
  room : s.rob.count < s.launch.robSize

/-- R113, R117, R118, R123, R124: the record `u` has been dispatched. It is the one waiting record: a
memory instruction is pushed onto the LSQ and leaves the IQ alone, any other is inserted into the IQ and
leaves the LSQ alone. It has the ROB entry at the old tail, with the `rd` field of the record in `D`;
its destination and Z are invalid and tagged with that entry; `D` is empty. Nothing else has changed
but, for a branch and HALT, the path of Fetch. -/
structure Dispatched (s : State) (u : MicroOp) (t : State) : Prop where
  identity : u.rob = s.rob.tail ∧ u.pc = s.d.pc
  entry : t.rob.at? s.rob.tail =
    some { complete := false, pc := s.d.pc, op := u.op, rd := recRd s.d.word, hasRd := hasDest u.op }
  other_entries : t.rob.entries.length = s.rob.entries.length ∧
    ∀ k, k ≠ s.rob.tail → t.rob.at? k = s.rob.at? k
  ring : t.rob.head = s.rob.head ∧ t.rob.tail = (s.rob.tail + 1) % s.launch.robSize ∧
    t.rob.count = s.rob.count + 1
  dest : hasDest u.op = true →
    t.regs.entry u.rd = { value := s.reg u.rd, valid := false, tag := s.rob.tail }
  other_regs : ∀ r, u.writes r = false → t.regs.entry r = s.regs.entry r
  zero : t.z = if setsZ u.op then { value := s.z.value, valid := false, tag := s.rob.tail } else s.z
  waiting : t.waiting = [u] ∧
    occupied (if isMem u.op then t.lsq.entries else t.iq) = [{ ready := true, u := u }]
  queue : t.iq = (if isMem u.op then s.iq else s.iq.insert u) ∧
    t.lsq = (if isMem u.op then s.lsq.push s.launch.lsqSize u else s.lsq)
  latch : t.d = { s.d with valid := false, stalled := false }
  fixed : t.launch = s.launch ∧ t.mem = s.mem
  units : t.int1 = s.int1 ∧ t.int2 = s.int2 ∧ t.mul1 = s.mul1 ∧ t.mul2 = s.mul2 ∧
    t.mul3 = s.mul3 ∧ t.mem1 = s.mem1 ∧ t.mem2 = s.mem2 ∧ t.mem3 = s.mem3
  control : t.ret = s.ret ∧ t.halted = s.halted ∧ t.completed = s.completed ∧
    t.cycle = s.cycle ∧ t.fault = s.fault

/-- Decode has left the path of Fetch as it was. -/
structure SamePath (s t : State) : Prop where
  pc : t.pc = s.pc
  latch : t.f = s.f
  running : t.haltFetch = s.haltFetch

/-- R186: Decode has redirected Fetch to `target` and squashed `F`. -/
structure Redirected (s : State) (target : Word) (t : State) : Prop where
  pc : t.pc = target
  latch : t.f = { s.f with valid := false }
  running : t.haltFetch = s.haltFetch

/-! ### An instruction alone in the core -/

/-- Instruction `i` stands in `D` with nothing in flight before it and nothing to fetch after it: the
PC it leaves, `next`, is past the end of code. Five cycles fit into the cycle budget, if there is one. -/
structure Alone (s : State) (i : Instr) (next : Word) : Prop where
  inv : Inv s
  empty : s.inFlight = [] ∧ s.rob.count = 0
  decoded : s.d.valid = true ∧ decode s.d.word = .ok i
  behind : s.f.valid = false
  after : pcWellFormed s.launch next = true ∧ codeAt s.launch next = none
  running : s.stopped = false
  budget : ∀ n ∈ s.launch.cycleBudget, s.cycle.toNat + 5 ≤ n

/-- The instruction that was alone in `D` in state `s` has written back: no fault, nothing in flight,
every register and Z valid, and its ROB entry, the only one, complete. -/
structure Settled (s t : State) : Prop where
  fault : t.fault = none
  empty : t.inFlight = []
  regs : ∀ r, t.regValid r = true
  zero : t.z.valid = true
  count : t.rob.count = 1
  complete : ∃ e, t.rob.at? s.rob.tail = some e ∧ e.complete = true ∧ e.pc = s.d.pc

/-- Every data cell reads as before. -/
def SameMemory (s t : State) : Prop := ∀ a, memRead t.mem a = memRead s.mem a

/-- Every register reads as before. -/
def SameRegs (s t : State) : Prop := ∀ r, t.reg r = s.reg r

/-- Register `rd` holds `v`; every other register reads as before. -/
def OnlyReg (s t : State) (rd : RegNum) (v : Word) : Prop :=
  t.reg rd = v ∧ ∀ r, r ≠ rd → t.reg r = s.reg r

/-- Data cell `ea` holds `v`; every other data cell reads as before. -/
def OnlyCell (s t : State) (ea v : Word) : Prop :=
  memRead t.mem ea.toNat = v ∧ ∀ a, a ≠ ea.toNat → memRead t.mem a = memRead s.mem a

/-- R129, R204: `0 ≤ s32(ea) < DMEM_CELLS`. -/
def InRange (s : State) (ea : Word) : Prop := 0 ≤ ea.toInt ∧ ea.toInt < (s.launch.dmemCells : Int)

end Sys2Proof.Machine
end

