-- ==== Sys2Proof/Safety/Sequential.lean ====
section
/-! DEFINITION. The sequential machine a program means (spec/40_pipeline.md R144,
spec/70_reset_and_hazards.md R226): one instruction after another over registers, Z and data memory;
and the sequential view of a state of the core, its in-flight instructions finished in program
order. -/

namespace Sys2Proof.Machine

/-- What an instruction can name (R43): the registers, Z and data memory. -/
structure Arch where
  regs : Vector Word 32
  z : Bool
  mem : Memory
deriving DecidableEq, Repr

/-- `x[r]`. -/
def Arch.get (A : Arch) (r : RegNum) : Word := A.regs[r.toNat]'r.isLt

/-- `x[r] <- v`. -/
def Arch.set (A : Arch) (r : RegNum) (v : Word) : Arch :=
  { A with regs := A.regs.set r.toNat v r.isLt }

/-- `x[r] <- v; Z <- (v = 0)`. -/
def Arch.setZ (A : Arch) (r : RegNum) (v : Word) : Arch := { A.set r v with z := decide (v = 0) }

/-- Data cell `ea`. -/
def Arch.load (A : Arch) (ea : Word) : Word := memRead A.mem ea.toNat

/-- Data cell `ea` becomes `v`. -/
def Arch.store (A : Arch) (ea v : Word) : Arch := { A with mem := memWrite A.mem ea.toNat v }

/-- What one instruction does, taken by itself (R150 to R195). -/
def seqExec (i : Instr) (A : Arch) : Arch :=
  match i with
  | .movc rd imm => A.set rd imm
  | .add rd rs1 rs2 => A.setZ rd (A.get rs1 + A.get rs2)
  | .sub rd rs1 rs2 => A.setZ rd (A.get rs1 - A.get rs2)
  | .and rd rs1 rs2 => A.set rd (A.get rs1 &&& A.get rs2)
  | .or rd rs1 rs2 => A.set rd (A.get rs1 ||| A.get rs2)
  | .xor rd rs1 rs2 => A.set rd (A.get rs1 ^^^ A.get rs2)
  | .mul rd rs1 rs2 => A.setZ rd (A.get rs1 * A.get rs2)
  | .addl rd rs1 imm => A.setZ rd (A.get rs1 + imm)
  | .subl rd rs1 imm => A.setZ rd (A.get rs1 - imm)
  | .andl rd rs1 imm => A.set rd (A.get rs1 &&& imm)
  | .orl rd rs1 imm => A.set rd (A.get rs1 ||| imm)
  | .xorl rd rs1 imm => A.set rd (A.get rs1 ^^^ imm)
  | .mull rd rs1 imm => A.setZ rd (A.get rs1 * imm)
  | .load rd rs1 imm => A.set rd (A.load (A.get rs1 + imm))
  | .ldr rd rs1 rs2 => A.set rd (A.load (A.get rs1 + A.get rs2))
  | .store rs1 rs2 imm => A.store (A.get rs2 + imm) (A.get rs1)
  | .str rs1 rs2 rs3 => A.store (A.get rs2 + A.get rs3) (A.get rs1)
  | .bz _ => A
  | .bnz _ => A
  | .jump _ _ => A
  | .halt => A

/-- The PC after an instruction at `pc` (R22, R185, R187, R189). -/
def seqNext (i : Instr) (A : Arch) (pc : Word) : Word :=
  match i with
  | .bz imm => if A.z = true then pc + imm else pc + 4
  | .bnz imm => if A.z = false then pc + imm else pc + 4
  | .jump rs1 imm => A.get rs1 + imm
  | .movc _ _ => pc + 4
  | .add _ _ _ | .sub _ _ _ | .and _ _ _ | .or _ _ _ | .xor _ _ _ | .mul _ _ _ => pc + 4
  | .addl _ _ _ | .subl _ _ _ | .andl _ _ _ | .orl _ _ _ | .xorl _ _ _ | .mull _ _ _ => pc + 4
  | .load _ _ _ | .ldr _ _ _ | .store _ _ _ | .str _ _ _ => pc + 4
  | .halt => pc + 4

/-- The effect a dispatched record will have had once it has written back. -/
def MicroOp.finish (u : MicroOp) (A : Arch) : Arch :=
  if isLoad u.op then A.set u.rd (A.load (effectiveAddress u))
  else if isMem u.op then A.store (effectiveAddress u) u.d
  else if setsZ u.op then A.setZ u.rd (compute u)
  else if hasDest u.op then A.set u.rd (compute u)
  else A

/-- What the core has already written. -/
def State.written (s : State) : Arch where
  regs := s.regs.map fun e => e.value
  z := s.z.value
  mem := s.mem

/-- The sequential view: what is written, with every in-flight instruction finished in program order
(oldest first). With nothing in flight it is what is written. -/
def State.arch (s : State) : Arch := s.inFlight.foldr MicroOp.finish s.written

/-- The PC of the next instruction to dispatch (R111, R119). -/
def State.nextPc (s : State) : Word :=
  if s.d.valid then s.d.pc else if s.f.valid then s.f.pc else s.pc

end Sys2Proof.Machine
end

