-- ==== Sys2Proof/Certificates/Slice0/Obligations.lean ====
section
/-! DEFINITION. The statements for the provers, each from the rules its docstring names. What the
statements share (`Inv`, `CanDispatch`, `Dispatched`, `Alone`, `Settled` and the rest) is defined in
Sys2Proof/Safety.lean and Sys2Proof/Safety/Sequential.lean. -/

open Sys2Proof Sys2Proof.Machine

/-! ### Encoding -/

/-- R80, R82, R83: no operand bit is lost between an instruction and its record, nor in its bytes
(R81). -/
def Obligations.EncodeDecodeRoundTrip : Prop :=
  ∀ i : Instr,
    decode (encode i) = .ok i ∧ recordLegal (encode i) = true ∧ recRsv (encode i) = 0 ∧
    ∀ rest, decodeBytes (recordToBytes (encode i) ++ rest) = some (i, rest)

/-- R89: exactly one row of R82, or illegal; the mask takes in the reserved bits. -/
def Obligations.DecoderMatchesMaskedTag : Prop :=
  ∀ w : Record,
    (∀ op, (∃ i, decode w = .ok i ∧ instrOpcode i = op) ↔
      w &&& 0x00000000FE00001F = (opcodeTag op).zeroExtend 64) ∧
    ((∃ e, decode w = .error e) ↔
      ∀ op, w &&& 0x00000000FE00001F ≠ (opcodeTag op).zeroExtend 64) ∧
    ∀ op op', opcodeTag op = opcodeTag op' → op = op'

/-- R99, the whole table. -/
def Obligations.WorkedEncodings : Prop :=
  (decode 0x0000000500000021 = .ok (.movc 1 5) ∧ encode (.movc 1 5) = 0x0000000500000021) ∧
    (decode 0xFFFFFFFF000000E1 = .ok (.movc 7 (-1)) ∧ encode (.movc 7 (-1)) = 0xFFFFFFFF000000E1) ∧
    (decode 0x0000000000008442 = .ok (.add 2 1 1) ∧ encode (.add 2 1 1) = 0x0000000000008442) ∧
    (decode 0x0000000000010467 = .ok (.mul 3 1 2) ∧ encode (.mul 3 1 2) = 0x0000000000010467) ∧
    (decode 0x0000000100000429 = .ok (.subl 1 1 1) ∧ encode (.subl 1 1 1) = 0x0000000100000429) ∧
    (decode 0x000000040000006E = .ok (.load 3 0 4) ∧ encode (.load 3 0 4) = 0x000000040000006E) ∧
    (decode 0x00000000000398AF = .ok (.ldr 5 6 7) ∧ encode (.ldr 5 6 7) = 0x00000000000398AF) ∧
    (decode 0x0000000000010410 = .ok (.store 1 2 0) ∧ encode (.store 1 2 0) = 0x0000000000010410) ∧
    (decode 0x0000000000310411 = .ok (.str 1 2 3) ∧ encode (.str 1 2 3) = 0x0000000000310411) ∧
    (decode 0x0000000800000012 = .ok (.bz 8) ∧ encode (.bz 8) = 0x0000000800000012) ∧
    (decode 0xFFFFFFF800000013 = .ok (.bnz (-8)) ∧ encode (.bnz (-8)) = 0xFFFFFFF800000013) ∧
    (decode 0x0000000000001014 = .ok (.jump 4 0) ∧ encode (.jump 4 0) = 0x0000000000001014) ∧
    (decode 0x0000000000000015 = .ok .halt ∧ encode .halt = 0x0000000000000015)

/-- R81 for records. The serialisation of data cells is a loader's and is not modelled. -/
def Obligations.RecordBytesAreLittleEndian : Prop :=
  ∀ (w : Record) (rest : List Byte),
    (recordToBytes w).length = 8 ∧
    (∀ k, k < 8 → (recordToBytes w)[k]? = some (w.extractLsb' (8 * k) 8)) ∧
    recordOfBytes (recordToBytes w ++ rest) = some (w, rest)

/-- R98: what is refused, and that a refused program gives no record at all. -/
def Obligations.LoaderAcceptsExactlyLegalLines : Prop :=
  (∀ l : AsmLine, (∃ w, assembleLine l = .ok w) ↔
      ∃ op : Opcode, op.mnemonic = l.mnemonic ∧
        l.operands.map AsmOperand.kind = op.operandKinds ∧
        (∀ n, .reg n ∈ l.operands → n ≤ 31) ∧
        (∀ v, .imm v ∈ l.operands → -2 ^ 31 ≤ v ∧ v ≤ 2 ^ 31 - 1)) ∧
    (∀ p : List AsmLine, (∃ e, assemble p = .error e) ↔
      ∃ l ∈ p, ∃ e, assembleLine l = .error e) ∧
    ∀ (p : List AsmLine) (ws : List Record), assemble p = .ok ws →
      ws.length = p.length ∧ ∀ w ∈ ws, recordLegal w = true ∧ ∃ i, decode w = .ok i

/-! ### The cycle -/

/-- R100, R113: what the step adds around `exec` is the back end before it (steps 1 to 5), and Fetch
and the cycle count after it (steps 7 and 8). -/
def Obligations.StepRunsDecodedInstruction : Prop :=
  ∀ (s : State) (i : Instr), s.stopped = false → (backEnd s).fault = none →
    s.d.valid = true → decode s.d.word = .ok i →
    ∃ t, exec i (backEnd s) = .next t ∧ t.fault = none ∧ step s = .next (fetchStage t).tick

/-- R101, each condition evaluated before the cycle. -/
def Obligations.StoppedExactlyAsListed : Prop :=
  (∀ s : State, (s.stopped = true ↔ s.fault ≠ none ∨ s.halted = true ∨
        (s.launch.stopOnCodeSize = true ∧ s.completed.toNat = s.launch.codeSize) ∨
        ∃ n, s.launch.cycleBudget = some n ∧ n ≤ s.cycle.toNat) ∧
      (s.stopped = true → ∀ t, step s = .next t → t = s) ∧
      (s.stopped = false → ∃ t, step s = .next t)) ∧
    ∀ l : Launch, l.code = [] → l.stopOnCodeSize = true → (State.resetFrom l).stopped = true

/-- R100 step 8, R202, R214. What a stopped core answers is the model's choice (assumption 7), as is
the wrap of the counter (assumption 8). -/
def Obligations.EveryCycleIsCounted : Prop :=
  ∀ s : State,
    (s.stopped = false → ∃ t, step s = .next t ∧ t.cycle = s.cycle + 1) ∧
    (∀ r, s.fault = some r → step s = .fault r.toFault) ∧
    (s.fault = none → s.stopped = true → step s = .next s)

/-- R102, R103 and R105: one entry a cycle, and nothing else counts it. -/
def Obligations.RetireTakesCompleteHead : Prop :=
  ∀ s : State,
    (∀ e, s.rob.count ≠ 0 → s.rob.at? s.rob.head = some e → e.complete = true →
      retireStage s = { s with
        rob := { s.rob with
          entries := s.rob.entries.set s.rob.head none
          head := (s.rob.head + 1) % s.launch.robSize
          count := s.rob.count - 1 }
        completed := s.completed + 1
        ret := some { pc := e.pc, op := e.op }
        halted := s.halted || decide (e.op = .halt) }) ∧
    (s.rob.count = 0 ∨ (∀ e, s.rob.at? s.rob.head = some e → e.complete = false) →
      retireStage s = { s with ret := none }) ∧
    ∀ t, s.stopped = false → step s = .next t →
      t.completed = (retireStage s).completed ∧ t.ret = (retireStage s).ret ∧
      t.halted = (retireStage s).halted ∧ t.rob.head = (retireStage s).rob.head

/-- R111 with R110 and R65, case by case; `h` is the state after the hand-off of a held `F`. -/
def Obligations.FetchReadsAtMostOneRecord : Prop :=
  ∀ s : State,
    (s.haltFetch = true → fetchStage s = { s with f := { s.f with stalled := false } }) ∧
    (s.haltFetch = false → s.f.valid = true → s.d.valid = true →
      fetchStage s = { s with f := { s.f with stalled := true } }) ∧
    (s.haltFetch = false → ¬ (s.f.valid = true ∧ s.d.valid = true) →
      ∀ h : State, (h = if s.f.valid then
          { s with
            d := { valid := true, stalled := false, pc := s.f.pc, word := s.f.word }
            f := { s.f with valid := false, stalled := false } }
        else { s with f := { s.f with stalled := false } }) →
      (pcWellFormed s.launch s.pc = false →
        fetchStage s = { h with
          fault := some { code := .fetchPcInvalid, pc := s.pc, info := s.pc.zeroExtend 64 } }) ∧
      (pcWellFormed s.launch s.pc = true → s.launch.codeSize ≤ codeIndex s.launch s.pc →
        fetchStage s = h) ∧
      ∀ w, pcWellFormed s.launch s.pc = true →
        s.launch.code[codeIndex s.launch s.pc]? = some w →
        (h.d.valid = false → fetchStage s = { h with
          pc := s.pc + 4
          d := { valid := true, stalled := false, pc := s.pc, word := w }
          f := { valid := false, stalled := false, pc := s.pc, word := w } }) ∧
        (h.d.valid = true → fetchStage s = { h with
          pc := s.pc + 4
          f := { valid := true, stalled := true, pc := s.pc, word := w } }))

/-- R113 to R115, R119: dispatch is all-or-nothing but for the halt flag of a HALT. -/
def Obligations.DecodeStallsOrDispatches : Prop :=
  ∀ (s : State) (i : Instr),
    (Stalls s i → exec i s = .next { s with
      d := { s.d with stalled := true }
      haltFetch := s.haltFetch || decide (i = .halt)
      f := if i = .halt then { s.f with valid := false } else s.f }) ∧
    (¬ Stalls s i → ∃ t, exec i s = .next t ∧ t.d.valid = false ∧ t.d.stalled = false ∧
      t.rob.count = s.rob.count + 1)

/-- The frame of R113: what no instruction changes at dispatch. -/
def Obligations.DispatchLeavesTheRest : Prop :=
  ∀ (s : State) (i : Instr), ∃ t, exec i s = .next t ∧
    (∀ r, t.reg r = s.reg r) ∧ t.z.value = s.z.value ∧
    (∀ r, destOf i ≠ some r → t.regs.entry r = s.regs.entry r) ∧
    (setsZ (instrOpcode i) = false → t.z = s.z) ∧
    (∀ a, memRead t.mem a = memRead s.mem a) ∧ t.launch = s.launch ∧
    t.int1 = s.int1 ∧ t.int2 = s.int2 ∧ t.mul1 = s.mul1 ∧ t.mul2 = s.mul2 ∧ t.mul3 = s.mul3 ∧
    t.mem1 = s.mem1 ∧ t.mem2 = s.mem2 ∧ t.mem3 = s.mem3 ∧
    t.ret = s.ret ∧ t.halted = s.halted ∧ t.completed = s.completed ∧ t.cycle = s.cycle ∧
    t.fault = s.fault ∧ t.rob.head = s.rob.head ∧ t.d.pc = s.d.pc ∧ t.d.word = s.d.word

/-- R121 for U = INT and U = MUL. -/
def Obligations.IssueTakesTheOldestOfItsUnit : Prop :=
  ∀ s : State,
    let candidate (fu : FuncUnit) (k : Nat) (e : QueueEntry) : Prop :=
      s.iq[k]? = some (some e) ∧ e.ready = true ∧ e.u.unit = fu
    let oldest (fu : FuncUnit) (k : Nat) (e : QueueEntry) : Prop :=
      candidate fu k e ∧ ∀ j e', candidate fu j e' →
        s.rob.age s.launch.robSize e.u.rob ≤ s.rob.age s.launch.robSize e'.u.rob
    (s.int1 ≠ none ∨ (∀ k e, ¬ candidate .int k e) → issueInt s = s) ∧
    (s.int1 = none → (∃ k e, candidate .int k e) → ∃ k e, oldest .int k e ∧
      issueInt s = { s with int1 := some e.u, iq := s.iq.set k none }) ∧
    (s.mul1 ≠ none ∨ (∀ k e, ¬ candidate .mul k e) → issueMul s = s) ∧
    (s.mul1 = none → (∃ k e, candidate .mul k e) → ∃ k e, oldest .mul k e ∧
      issueMul s = { s with mul1 := some e.u, iq := s.iq.set k none })

/-- R123, its first sentence, is the first clause. The second clause, on a queue with no free slot,
is not R123's: it is the model's own choice (assumption 9). -/
def Obligations.IqInsertTakesTheLowestFreeSlot : Prop :=
  ∀ (q : IssueQueue) (u : MicroOp),
    (q.hasFree = true → ∃ k, q[k]? = some none ∧
      (∀ j, j < k → ∃ e, q[j]? = some (some e)) ∧
      q.insert u = q.set k (some { ready := true, u := u })) ∧
    (q.hasFree = false → q.insert u = q)

/-- R122 and R124 over every ring. -/
def Obligations.LsqIsAFifoRing : Prop :=
  (∀ (q : LoadStoreQueue) (size : Nat) (u : MicroOp),
      RingInv q.entries q.head q.tail q.count size → q.count < size →
      ∃ p : LoadStoreQueue, q.push size u = p ∧
        RingInv p.entries p.head p.tail p.count size ∧
        p.entries[q.tail]? = some (some { ready := true, u := u }) ∧
        (∀ k, k ≠ q.tail → p.entries[k]? = q.entries[k]?) ∧
        p.head = q.head ∧ p.tail = (q.tail + 1) % size ∧ p.count = q.count + 1 ∧
        p.front = if q.count = 0 then some u else q.front) ∧
    ∀ s : State,
      RingInv s.lsq.entries s.lsq.head s.lsq.tail s.lsq.count s.launch.lsqSize →
      (s.lsq.count = 0 ∨ s.mem1 ≠ none → issueLsq s = s) ∧
      (s.lsq.count ≠ 0 → s.mem1 = none → ∃ e : QueueEntry,
        s.lsq.entries[s.lsq.head]? = some (some e) ∧
        issueLsq s = { s with
          mem1 := some e.u
          lsq := { s.lsq with
            entries := s.lsq.entries.set s.lsq.head none
            head := (s.lsq.head + 1) % s.launch.lsqSize
            count := s.lsq.count - 1 } } ∧
        RingInv (issueLsq s).lsq.entries (issueLsq s).lsq.head (issueLsq s).lsq.tail
          (issueLsq s).lsq.count s.launch.lsqSize)

/-- R132 with the guard of R31. -/
def Obligations.WritebackIsGuardedByTheTag : Prop :=
  ∀ (s : State) (u : MicroOp), ∃ t, s.writeback u = t ∧
    (hasDest u.op = true → s.regTag u.rd = u.rob → s.regValid u.rd = false →
      t.regs.entry u.rd = { value := u.result, valid := true, tag := u.rob }) ∧
    (hasDest u.op = false ∨ s.regTag u.rd ≠ u.rob ∨ s.regValid u.rd = true → t.regs = s.regs) ∧
    (∀ r, r ≠ u.rd → t.regs.entry r = s.regs.entry r) ∧
    (setsZ u.op = true → s.z.tag = u.rob → s.z.valid = false →
      t.z = { value := decide (u.result = 0), valid := true, tag := u.rob }) ∧
    (setsZ u.op = false ∨ s.z.tag ≠ u.rob ∨ s.z.valid = true → t.z = s.z) ∧
    (∀ e, s.rob.at? u.rob = some e → t.rob.at? u.rob = some { e with complete := true }) ∧
    (∀ k, k ≠ u.rob → t.rob.at? k = s.rob.at? k) ∧
    { t with regs := s.regs, z := s.z, rob := s.rob } = s ∧
    t.rob.head = s.rob.head ∧ t.rob.tail = s.rob.tail ∧ t.rob.count = s.rob.count

/-- R116, R134 and R227: the only bypass is the writeback of the same cycle. -/
def Obligations.WritebackIsSeenByDecode : Prop :=
  ∀ (s : State) (r : RegNum) (u : MicroOp), Inv s → s.stopped = false →
    s.producer r = some u → s.int2 = some u ∨ s.mul3 = some u ∨ s.mem3 = some u →
    (backEnd s).regValid r = true ∧
    (backEnd s).reg r = if isLoad u.op then memRead s.mem u.ea.toNat else u.result

/-- R126 to R129, R131: the depths are INT 2, MUL 3 and MEM 3. -/
def Obligations.EveryRecordMovesOnEveryCycle : Prop :=
  ∀ s : State, s.stopped = false → (∀ u ∈ s.mem1, InRange s (u.a + u.b)) →
    ∃ t, step s = .next t ∧
      t.int2 = s.int1.map (fun u => { u with result := compute u }) ∧
      t.mul2 = s.mul1.map (fun u => { u with result := compute u }) ∧
      t.mem2 = s.mem1.map (fun u => { u with ea := u.a + u.b }) ∧
      t.mul3 = s.mul2 ∧ t.mem3 = s.mem2 ∧
      (Inv s → t.inStage1 = s.waiting)

/-- R125, for the sizes R5 allows (at least 1), which the invariants include. -/
def Obligations.QueuesNeverFill : Prop :=
  ∀ s : State, Inv s → s.stopped = false → (∀ u ∈ s.mem1, InRange s (u.a + u.b)) →
    (∀ g, g = stageInt1 (stageMul1 (throughMem1 s)) →
      g.int1 = none ∧ g.mul1 = none ∧ g.mem1 = none) ∧
    (backEnd s).waiting = [] ∧ (backEnd s).iq.hasFree = true ∧
    (backEnd s).lsq.count < s.launch.lsqSize ∧
    ∃ t, step s = .next t ∧ (queued t.iq).length ≤ 1 ∧ (queued t.lsq.entries).length ≤ 1

/-! ### Faults -/

/-- R203, with the encodings R86 lists. -/
def Obligations.IllegalRecordFaults : Prop :=
  (∀ s : State, s.stopped = false → (∀ u ∈ s.mem1, InRange s (u.a + u.b)) →
      s.d.valid = true →
      (recRsv s.d.word ≠ 0 ∨ (recOp s.d.word).toNat = 0 ∨ 0x16 ≤ (recOp s.d.word).toNat) →
      ∃ t, step s = .next t ∧
        t.fault = some { code := .illegalInstruction, pc := s.d.pc, info := s.d.word } ∧
        t.d = s.d ∧ t.f = s.f ∧ t.pc = s.pc ∧ t.haltFetch = s.haltFetch ∧
        t.waiting = (backEnd s).waiting ∧ t.rob.tail = s.rob.tail ∧ t.cycle = s.cycle + 1) ∧
    (∀ w : Record, (∃ e, decode w = .error e) ↔
      recRsv w ≠ 0 ∨ (recOp w).toNat = 0 ∨ 0x16 ≤ (recOp w).toNat) ∧
    ∀ (l : AsmLine) (w : Record), assembleLine l = .ok w → ∃ i, decode w = .ok i

/-- R204, R64: the faulting instruction writes no register and no cell. -/
def Obligations.DataAddressRangeFaults : Prop :=
  ∀ (s : State) (u : MicroOp), s.stopped = false → s.mem1 = some u →
    (¬ InRange s (u.a + u.b) → ∃ t, step s = .next t ∧
      t.fault = some
        { code := .dataAddressRange, pc := u.pc, info := (u.a + u.b).zeroExtend 64 } ∧
      t.mem1 = some u ∧
      t.mem = (stageMem3 (retireStage s)).mem ∧
      t.regs = (stageInt2 (stageMul3 (stageMem3 (retireStage s)))).regs ∧
      t.z = (stageInt2 (stageMul3 (stageMem3 (retireStage s)))).z ∧
      t.pc = s.pc ∧ t.f = s.f ∧ t.d = s.d ∧ t.iq = s.iq ∧ t.lsq = s.lsq ∧
      t.rob.tail = s.rob.tail ∧ t.cycle = s.cycle + 1) ∧
    (InRange s (u.a + u.b) → ∃ t, step s = .next t ∧
      t.mem2 = some { u with ea := u.a + u.b } ∧
      ∀ r, t.fault = some r → r.code ≠ .dataAddressRange)

/-- R205 and R65; the wrap is R23's, and what a taken branch is (`TakenTo`), R21's. -/
def Obligations.FetchPcInvalidFaults : Prop :=
  (∀ s : State, s.fault = none → (fetchStage s).fault =
      if s.haltFetch = false ∧ ¬ (s.f.valid = true ∧ s.d.valid = true) ∧
          (s.pc.toNat < s.launch.codeBase.toNat ∨
            (s.pc.toNat - s.launch.codeBase.toNat) % 4 ≠ 0) then
        some { code := .fetchPcInvalid, pc := s.pc, info := s.pc.zeroExtend 64 }
      else none) ∧
    ∀ s t : State, step s = .next t → pcWellFormed s.launch s.pc = true →
      pcWellFormed t.launch t.pc = false →
      2 ^ 32 ≤ s.pc.toNat + 4 ∨
      ∃ i target, s.d.valid = true ∧ decode s.d.word = .ok i ∧ TakenTo (backEnd s) i target ∧
        ((t.pc = target ∧ pcWellFormed s.launch target = false) ∨
          (t.pc = target + 4 ∧ 2 ^ 32 ≤ target.toNat + 4))

/-- R207, with R200's three events and R201's fields. -/
def Obligations.EarliestFaultWins : Prop :=
  ∀ s t : State, s.stopped = false → step s = .next t →
    (∀ r, t.fault = some r →
      (r.code = .dataAddressRange ∧ ∃ u, s.mem1 = some u ∧ ¬ InRange s (u.a + u.b) ∧
        r.pc = u.pc ∧ r.info = (u.a + u.b).zeroExtend 64) ∨
      (r.code = .illegalInstruction ∧ (∀ u ∈ s.mem1, InRange s (u.a + u.b)) ∧
        s.d.valid = true ∧ (∃ e, decode s.d.word = .error e) ∧
        r.pc = s.d.pc ∧ r.info = s.d.word) ∨
      (r.code = .fetchPcInvalid ∧ (∀ u ∈ s.mem1, InRange s (u.a + u.b)) ∧
        (s.d.valid = true → ∃ i, decode s.d.word = .ok i) ∧
        pcWellFormed s.launch r.pc = false ∧ r.info = r.pc.zeroExtend 64 ∧ t.pc = r.pc)) ∧
    ((∃ u, s.mem1 = some u ∧ ¬ InRange s (u.a + u.b)) →
      t.fault.map FaultRecord.code = some .dataAddressRange) ∧
    ((∀ u ∈ s.mem1, InRange s (u.a + u.b)) → s.d.valid = true →
      (∃ e, decode s.d.word = .error e) →
      t.fault.map FaultRecord.code = some .illegalInstruction)

/-- R202: the steps after the raising one do not run, and the faulting record stays in its latch. -/
def Obligations.FaultStopsTheCoreUntilReset : Prop :=
  ∀ (s t : State) (r : FaultRecord), s.stopped = false → step s = .next t →
    t.fault = some r →
    t.cycle = s.cycle + 1 ∧ t.stopped = true ∧ (∀ t', step t = .next t' → t' = t) ∧
    t.applyReset.fault = none ∧
    (r.code = .dataAddressRange → t.mem1 = s.mem1 ∧ t.mem1 ≠ none ∧ t.d = s.d ∧ t.f = s.f ∧
      t.iq = s.iq ∧ t.lsq = s.lsq ∧ t.rob.tail = s.rob.tail ∧ t.pc = s.pc) ∧
    (r.code = .illegalInstruction → t.d = s.d ∧ t.d.valid = true ∧ t.f = s.f ∧
      t.rob.tail = s.rob.tail ∧ t.pc = s.pc) ∧
    (r.code = .fetchPcInvalid → t.pc = r.pc)

/-! ### What changes what -/

/-- R62, R104, R152, R153: no other stage and no retirement writes memory. -/
def Obligations.MemoryChangesOnlyByStoresInMem3 : Prop :=
  ∀ s t : State, Inv s → step s = .next t → ∀ a, memRead t.mem a ≠ memRead s.mem a →
    ∃ u, s.mem3 = some u ∧ (u.op = .store ∨ u.op = .str) ∧ u.ea.toNat = a ∧
      memRead t.mem a = u.d

/-- R27, R32: no other write of a register or of Z exists. -/
def Obligations.RegistersAndZChangeOnlyByWriteback : Prop :=
  ∀ s t : State, Inv s → step s = .next t →
    (∀ r, t.reg r ≠ s.reg r → ∃ u, (s.int2 = some u ∨ s.mul3 = some u ∨ s.mem3 = some u) ∧
      u.writes r = true ∧ u.op ∉ [Opcode.store, .str, .bz, .bnz, .jump, .halt] ∧
      t.reg r = if isLoad u.op then memRead s.mem u.ea.toNat else u.result) ∧
    (t.z.value ≠ s.z.value → ∃ u, (s.int2 = some u ∨ s.mul3 = some u) ∧
      u.op ∈ [Opcode.add, .sub, .mul, .addl, .subl, .mull] ∧
      t.z.value = decide (u.result = 0))

/-- R21: Fetch and a taken branch (`TakenTo`, in the state Decode finds) are the only writers of
`pc`. -/
def Obligations.PcChangesOnlyByFetchAndBranches : Prop :=
  ∀ s t : State, step s = .next t →
    t.pc = s.pc ∨ t.pc = s.pc + 4 ∨
    ∃ i target, s.d.valid = true ∧ decode s.d.word = .ok i ∧ TakenTo (backEnd s) i target ∧
      (t.pc = target ∨ t.pc = target + 4)

/-- R60, R73, R224: code memory does not change while the core runs. -/
def Obligations.CodeAndParametersNeverChange : Prop :=
  ∀ s : State, (∀ t, step s = .next t → t.launch = s.launch) ∧
    (∀ i t, exec i s = .next t → t.launch = s.launch) ∧ s.applyReset.launch = s.launch

/-- R196, from R110 and R195. -/
def Obligations.HaltContainment : Prop :=
  (∀ s t : State, s.stopped = false → (∀ u ∈ s.mem1, InRange s (u.a + u.b)) →
      s.d.valid = true → decode s.d.word = .ok .halt → step s = .next t →
      t.haltFetch = true ∧ t.f.valid = false ∧ t.pc = s.pc) ∧
    ∀ s t : State, Inv s → s.stopped = false → s.haltFetch = true → step s = .next t →
      t.haltFetch = true ∧ t.f.valid = false ∧ t.pc = s.pc ∧
      (s.d.valid = false → t.d.valid = false ∧ t.waiting = (backEnd s).waiting ∧
        t.rob.tail = s.rob.tail) ∧
      (s.d.valid = true → decode s.d.word = .ok .halt ∧
        (t.d.valid = true ∧ t.d.word = s.d.word ∧ t.rob.tail = s.rob.tail ∨
          t.d.valid = false ∧ t.rob.tail = (s.rob.tail + 1) % s.launch.robSize))

/-! ### Reset and invariants -/

/-- R45 for the launch parameters of the state; unlisted fields of an empty slot are not kept
(assumption 2). -/
def Obligations.ResetGivesTheTable : Prop :=
  (∀ s t : State, s.applyReset = t →
      t.launch = s.launch ∧ t.pc = s.launch.codeBase ∧
      (∀ r, t.regs.entry r =
        { value := s.launch.regInit[r.toNat]'r.isLt, valid := true, tag := 0 }) ∧
      t.z = { value := false, valid := true, tag := 0 } ∧
      t.f = { valid := false, stalled := false, pc := 0, word := 0 } ∧
      t.d = { valid := false, stalled := false, pc := 0, word := 0 } ∧
      t.iq.length = s.launch.iqSize ∧ occupied t.iq = [] ∧
      t.lsq.entries.length = s.launch.lsqSize ∧ occupied t.lsq.entries = [] ∧
      t.lsq.head = 0 ∧ t.lsq.tail = 0 ∧ t.lsq.count = 0 ∧
      t.rob.entries.length = s.launch.robSize ∧ (∀ k, t.rob.at? k = none) ∧
      t.rob.head = 0 ∧ t.rob.tail = 0 ∧ t.rob.count = 0 ∧
      t.inStage1 = [] ∧ t.inStage2 = [] ∧ t.inStage3 = [] ∧ t.ret = none ∧
      t.haltFetch = false ∧ t.halted = false ∧ t.completed = 0 ∧ t.cycle = 0 ∧ t.fault = none ∧
      ∀ a, memRead t.mem a = memRead s.launch.dmemInit a) ∧
    State.reset.pc = 4000 ∧ (∀ r, State.reset.reg r = 0) ∧ ∀ a, memRead State.reset.mem a = 0

/-- The base of `StepKeepsTheInvariants`. -/
def Obligations.ResetMeetsTheInvariants : Prop :=
  (∀ l : Launch, l.wellFormed → Inv (State.resetFrom l)) ∧ Inv State.reset

/-- R125, R140 to R143, R196 and R62 as one inductive invariant; no run from reset is assumed. -/
def Obligations.StepKeepsTheInvariants : Prop :=
  ∀ s t : State, Inv s → step s = .next t → Inv t

/-- R142, after every step; in-flight records are those dispatched and not yet written back, and the
younger has the greater age. -/
def Obligations.ScoreboardNamesTheYoungestProducer : Prop :=
  ∀ s t : State, Inv s → step s = .next t →
    (∀ i, (t.regValid i = false ↔ ∃ u ∈ t.inFlight, u.writes i = true) ∧
      (t.regValid i = false → ∃ u ∈ t.inFlight, u.writes i = true ∧ t.regTag i = u.rob ∧
        ∀ v ∈ t.inFlight, v.writes i = true →
          t.rob.age t.launch.robSize v.rob ≤ t.rob.age t.launch.robSize u.rob)) ∧
    (t.z.valid = false ↔ ∃ u ∈ t.inFlight, setsZ u.op = true) ∧
    (t.z.valid = false → ∃ u ∈ t.inFlight, setsZ u.op = true ∧ t.z.tag = u.rob ∧
      ∀ v ∈ t.inFlight, setsZ v.op = true →
        t.rob.age t.launch.robSize v.rob ≤ t.rob.age t.launch.robSize u.rob)

/-- R143: a full queue stalls dispatch, and nothing else adds entries. -/
def Obligations.StepKeepsTheCapacities : Prop :=
  ∀ s t : State, s.rob.count ≤ s.launch.robSize → s.lsq.count ≤ s.launch.lsqSize →
    s.iq.length = s.launch.iqSize → step s = .next t →
    t.rob.count ≤ t.launch.robSize ∧ t.lsq.count ≤ t.launch.lsqSize ∧
    t.iq.length = t.launch.iqSize ∧ (occupied t.iq).length ≤ t.launch.iqSize

/-- The form of assumption 3. -/
def Obligations.StepKeepsTheMemoryForm : Prop :=
  ∀ s t : State, s.mem.wf → step s = .next t → t.mem.wf

/-- R62's MemRead and MemWrite, over the model's list of cells (assumption 3). -/
def Obligations.MemoryReadsWhatWasWritten : Prop :=
  (∀ (m : Memory) (a b : Nat) (v : Word), m.wf →
      memRead (memWrite m a v) b = if b = a then v else memRead m b) ∧
    ∀ m m' : Memory, m.wf → m'.wf → (∀ a, memRead m a = memRead m' a) → m = m'

/-- R144 and R226: out-of-order completion, forwarding, stalls and squashes show no result but the
sequential one. -/
def Obligations.CycleRefinesSequentialExecution : Prop :=
  (∀ s t : State, Inv s → step s = .next t → t.fault = none →
      (t.arch = s.arch ∧ t.nextPc = s.nextPc) ∨
      ∃ w i, codeAt s.launch s.nextPc = some w ∧ decode w = .ok i ∧
        t.arch = seqExec i s.arch ∧
        (t.haltFetch = false → t.nextPc = seqNext i s.arch s.nextPc)) ∧
    ∀ s : State, Inv s →
      (∀ r, s.regValid r = true → s.arch.get r = s.reg r) ∧
      (s.z.valid = true → s.arch.z = s.z.value) ∧
      (s.inFlight = [] → s.arch = s.written)

/-! ### The instructions -/

/-- R160: ADD writes the sum modulo 2^32 to Rd and Z. -/
def Obligations.AddWritesSum : Prop :=
  ∀ (rd rs1 rs2 : RegNum) (s : State),
    (∀ (rs3 : RegNum) (imm : Word), decode (packRecord 0x02 rd rs1 rs2 rs3 imm) = .ok (.add rd rs1 rs2)) ∧
    (CanDispatch s .add [rs1, rs2] → ∃ u t, exec (.add rd rs1 rs2) s = .next t ∧
      Dispatched s u t ∧ SamePath s t ∧
      u.op = .add ∧ u.rd = rd ∧ u.a = s.reg rs1 ∧ u.b = s.reg rs2 ∧ u.unit = .int) ∧
    (Alone s (.add rd rs1 rs2) (s.d.pc + 4) → ∃ t : State, core.run 4 s = .next t ∧
      Settled s t ∧ OnlyReg s t rd (s.reg rs1 + s.reg rs2) ∧
      t.z.value = decide (s.reg rs1 + s.reg rs2 = 0) ∧ SameMemory s t)

/-- R161: SUB writes the difference modulo 2^32 to Rd and Z. -/
def Obligations.SubWritesDifference : Prop :=
  ∀ (rd rs1 rs2 : RegNum) (s : State),
    (∀ (rs3 : RegNum) (imm : Word), decode (packRecord 0x03 rd rs1 rs2 rs3 imm) = .ok (.sub rd rs1 rs2)) ∧
    (CanDispatch s .sub [rs1, rs2] → ∃ u t, exec (.sub rd rs1 rs2) s = .next t ∧
      Dispatched s u t ∧ SamePath s t ∧
      u.op = .sub ∧ u.rd = rd ∧ u.a = s.reg rs1 ∧ u.b = s.reg rs2 ∧ u.unit = .int) ∧
    (Alone s (.sub rd rs1 rs2) (s.d.pc + 4) → ∃ t : State, core.run 4 s = .next t ∧
      Settled s t ∧ OnlyReg s t rd (s.reg rs1 - s.reg rs2) ∧
      t.z.value = decide (s.reg rs1 - s.reg rs2 = 0) ∧ SameMemory s t)

/-- R162: AND writes the bitwise and to Rd and leaves Z. -/
def Obligations.AndWritesConjunction : Prop :=
  ∀ (rd rs1 rs2 : RegNum) (s : State),
    (∀ (rs3 : RegNum) (imm : Word), decode (packRecord 0x04 rd rs1 rs2 rs3 imm) = .ok (.and rd rs1 rs2)) ∧
    (CanDispatch s .and [rs1, rs2] → ∃ u t, exec (.and rd rs1 rs2) s = .next t ∧
      Dispatched s u t ∧ SamePath s t ∧
      u.op = .and ∧ u.rd = rd ∧ u.a = s.reg rs1 ∧ u.b = s.reg rs2 ∧ u.unit = .int) ∧
    (Alone s (.and rd rs1 rs2) (s.d.pc + 4) → ∃ t : State, core.run 4 s = .next t ∧
      Settled s t ∧ OnlyReg s t rd (s.reg rs1 &&& s.reg rs2) ∧
      t.z.value = s.z.value ∧ SameMemory s t)

/-- R163: OR writes the bitwise or to Rd and leaves Z. -/
def Obligations.OrWritesDisjunction : Prop :=
  ∀ (rd rs1 rs2 : RegNum) (s : State),
    (∀ (rs3 : RegNum) (imm : Word), decode (packRecord 0x05 rd rs1 rs2 rs3 imm) = .ok (.or rd rs1 rs2)) ∧
    (CanDispatch s .or [rs1, rs2] → ∃ u t, exec (.or rd rs1 rs2) s = .next t ∧
      Dispatched s u t ∧ SamePath s t ∧
      u.op = .or ∧ u.rd = rd ∧ u.a = s.reg rs1 ∧ u.b = s.reg rs2 ∧ u.unit = .int) ∧
    (Alone s (.or rd rs1 rs2) (s.d.pc + 4) → ∃ t : State, core.run 4 s = .next t ∧
      Settled s t ∧ OnlyReg s t rd (s.reg rs1 ||| s.reg rs2) ∧
      t.z.value = s.z.value ∧ SameMemory s t)

/-- R164: XOR writes the bitwise exclusive or to Rd and leaves Z. -/
def Obligations.XorWritesExclusiveOr : Prop :=
  ∀ (rd rs1 rs2 : RegNum) (s : State),
    (∀ (rs3 : RegNum) (imm : Word), decode (packRecord 0x06 rd rs1 rs2 rs3 imm) = .ok (.xor rd rs1 rs2)) ∧
    (CanDispatch s .xor [rs1, rs2] → ∃ u t, exec (.xor rd rs1 rs2) s = .next t ∧
      Dispatched s u t ∧ SamePath s t ∧
      u.op = .xor ∧ u.rd = rd ∧ u.a = s.reg rs1 ∧ u.b = s.reg rs2 ∧ u.unit = .int) ∧
    (Alone s (.xor rd rs1 rs2) (s.d.pc + 4) → ∃ t : State, core.run 4 s = .next t ∧
      Settled s t ∧ OnlyReg s t rd (s.reg rs1 ^^^ s.reg rs2) ∧
      t.z.value = s.z.value ∧ SameMemory s t)

/-- R165: MUL writes the low 32 bits of the signed product to Rd and Z. -/
def Obligations.MulWritesLowProduct : Prop :=
  ∀ (rd rs1 rs2 : RegNum) (s : State),
    (∀ (rs3 : RegNum) (imm : Word), decode (packRecord 0x07 rd rs1 rs2 rs3 imm) = .ok (.mul rd rs1 rs2)) ∧
    (CanDispatch s .mul [rs1, rs2] → ∃ u t, exec (.mul rd rs1 rs2) s = .next t ∧
      Dispatched s u t ∧ SamePath s t ∧
      u.op = .mul ∧ u.rd = rd ∧ u.a = s.reg rs1 ∧ u.b = s.reg rs2 ∧ u.unit = .mul) ∧
    (Alone s (.mul rd rs1 rs2) (s.d.pc + 4) → ∃ t : State, core.run 5 s = .next t ∧
      Settled s t ∧ OnlyReg s t rd (BitVec.ofInt 32 ((s.reg rs1).toInt * (s.reg rs2).toInt)) ∧
      t.z.value = decide (BitVec.ofInt 32 ((s.reg rs1).toInt * (s.reg rs2).toInt) = 0) ∧ SameMemory s t)

/-- R166: ADDL writes the sum with the literal modulo 2^32 to Rd and Z. -/
def Obligations.AddlWritesSum : Prop :=
  ∀ (rd rs1 : RegNum) (imm : Word) (s : State),
    (∀ (rs2 rs3 : RegNum), decode (packRecord 0x08 rd rs1 rs2 rs3 imm) = .ok (.addl rd rs1 imm)) ∧
    (CanDispatch s .addl [rs1] → ∃ u t, exec (.addl rd rs1 imm) s = .next t ∧
      Dispatched s u t ∧ SamePath s t ∧
      u.op = .addl ∧ u.rd = rd ∧ u.a = s.reg rs1 ∧ u.b = imm ∧ u.unit = .int) ∧
    (Alone s (.addl rd rs1 imm) (s.d.pc + 4) → ∃ t : State, core.run 4 s = .next t ∧
      Settled s t ∧ OnlyReg s t rd (s.reg rs1 + imm) ∧
      t.z.value = decide (s.reg rs1 + imm = 0) ∧ SameMemory s t)

/-- R167: SUBL writes the difference with the literal modulo 2^32 to Rd and Z. -/
def Obligations.SublWritesDifference : Prop :=
  ∀ (rd rs1 : RegNum) (imm : Word) (s : State),
    (∀ (rs2 rs3 : RegNum), decode (packRecord 0x09 rd rs1 rs2 rs3 imm) = .ok (.subl rd rs1 imm)) ∧
    (CanDispatch s .subl [rs1] → ∃ u t, exec (.subl rd rs1 imm) s = .next t ∧
      Dispatched s u t ∧ SamePath s t ∧
      u.op = .subl ∧ u.rd = rd ∧ u.a = s.reg rs1 ∧ u.b = imm ∧ u.unit = .int) ∧
    (Alone s (.subl rd rs1 imm) (s.d.pc + 4) → ∃ t : State, core.run 4 s = .next t ∧
      Settled s t ∧ OnlyReg s t rd (s.reg rs1 - imm) ∧
      t.z.value = decide (s.reg rs1 - imm = 0) ∧ SameMemory s t)

/-- R168: ANDL writes the bitwise and with the literal to Rd and leaves Z. -/
def Obligations.AndlWritesConjunction : Prop :=
  ∀ (rd rs1 : RegNum) (imm : Word) (s : State),
    (∀ (rs2 rs3 : RegNum), decode (packRecord 0x0A rd rs1 rs2 rs3 imm) = .ok (.andl rd rs1 imm)) ∧
    (CanDispatch s .andl [rs1] → ∃ u t, exec (.andl rd rs1 imm) s = .next t ∧
      Dispatched s u t ∧ SamePath s t ∧
      u.op = .andl ∧ u.rd = rd ∧ u.a = s.reg rs1 ∧ u.b = imm ∧ u.unit = .int) ∧
    (Alone s (.andl rd rs1 imm) (s.d.pc + 4) → ∃ t : State, core.run 4 s = .next t ∧
      Settled s t ∧ OnlyReg s t rd (s.reg rs1 &&& imm) ∧
      t.z.value = s.z.value ∧ SameMemory s t)

/-- R169: ORL writes the bitwise or with the literal to Rd and leaves Z. -/
def Obligations.OrlWritesDisjunction : Prop :=
  ∀ (rd rs1 : RegNum) (imm : Word) (s : State),
    (∀ (rs2 rs3 : RegNum), decode (packRecord 0x0B rd rs1 rs2 rs3 imm) = .ok (.orl rd rs1 imm)) ∧
    (CanDispatch s .orl [rs1] → ∃ u t, exec (.orl rd rs1 imm) s = .next t ∧
      Dispatched s u t ∧ SamePath s t ∧
      u.op = .orl ∧ u.rd = rd ∧ u.a = s.reg rs1 ∧ u.b = imm ∧ u.unit = .int) ∧
    (Alone s (.orl rd rs1 imm) (s.d.pc + 4) → ∃ t : State, core.run 4 s = .next t ∧
      Settled s t ∧ OnlyReg s t rd (s.reg rs1 ||| imm) ∧
      t.z.value = s.z.value ∧ SameMemory s t)

/-- R170: XORL writes the bitwise exclusive or with the literal to Rd and leaves Z. -/
def Obligations.XorlWritesExclusiveOr : Prop :=
  ∀ (rd rs1 : RegNum) (imm : Word) (s : State),
    (∀ (rs2 rs3 : RegNum), decode (packRecord 0x0C rd rs1 rs2 rs3 imm) = .ok (.xorl rd rs1 imm)) ∧
    (CanDispatch s .xorl [rs1] → ∃ u t, exec (.xorl rd rs1 imm) s = .next t ∧
      Dispatched s u t ∧ SamePath s t ∧
      u.op = .xorl ∧ u.rd = rd ∧ u.a = s.reg rs1 ∧ u.b = imm ∧ u.unit = .int) ∧
    (Alone s (.xorl rd rs1 imm) (s.d.pc + 4) → ∃ t : State, core.run 4 s = .next t ∧
      Settled s t ∧ OnlyReg s t rd (s.reg rs1 ^^^ imm) ∧
      t.z.value = s.z.value ∧ SameMemory s t)

/-- R171: MULL writes the low 32 bits of the signed product with the literal to Rd and Z. -/
def Obligations.MullWritesLowProduct : Prop :=
  ∀ (rd rs1 : RegNum) (imm : Word) (s : State),
    (∀ (rs2 rs3 : RegNum), decode (packRecord 0x0D rd rs1 rs2 rs3 imm) = .ok (.mull rd rs1 imm)) ∧
    (CanDispatch s .mull [rs1] → ∃ u t, exec (.mull rd rs1 imm) s = .next t ∧
      Dispatched s u t ∧ SamePath s t ∧
      u.op = .mull ∧ u.rd = rd ∧ u.a = s.reg rs1 ∧ u.b = imm ∧ u.unit = .mul) ∧
    (Alone s (.mull rd rs1 imm) (s.d.pc + 4) → ∃ t : State, core.run 5 s = .next t ∧
      Settled s t ∧ OnlyReg s t rd (BitVec.ofInt 32 ((s.reg rs1).toInt * imm.toInt)) ∧
      t.z.value = decide (BitVec.ofInt 32 ((s.reg rs1).toInt * imm.toInt) = 0) ∧ SameMemory s t)

/-- R180: MOVC writes its 32-bit immediate to Rd and leaves Z. -/
def Obligations.MovcWritesImmediate : Prop :=
  ∀ (rd : RegNum) (imm : Word) (s : State),
    (∀ (rs1 rs2 rs3 : RegNum),
      decode (packRecord 0x01 rd rs1 rs2 rs3 imm) = .ok (.movc rd imm)) ∧
    (CanDispatch s .movc [] → ∃ u t, exec (.movc rd imm) s = .next t ∧
      Dispatched s u t ∧ SamePath s t ∧
      u.op = .movc ∧ u.rd = rd ∧ u.imm = imm ∧ u.unit = .int) ∧
    (Alone s (.movc rd imm) (s.d.pc + 4) → ∃ t : State, core.run 4 s = .next t ∧
      Settled s t ∧ OnlyReg s t rd imm ∧ t.z.value = s.z.value ∧ SameMemory s t)

/-- R150: LOAD writes data cell x[rs1] + imm to Rd, or faults out of range. -/
def Obligations.LoadReadsBasePlusOffset : Prop :=
  ∀ (rd rs1 : RegNum) (imm : Word) (s : State),
    (∀ (rs2 rs3 : RegNum), decode (packRecord 0x0E rd rs1 rs2 rs3 imm) = .ok (.load rd rs1 imm)) ∧
    (CanDispatch s .load [rs1] → ∃ u t, exec (.load rd rs1 imm) s = .next t ∧
      Dispatched s u t ∧ SamePath s t ∧
      u.op = .load ∧ u.rd = rd ∧ u.a = s.reg rs1 ∧ u.b = imm ∧ u.unit = .mem) ∧
    (Alone s (.load rd rs1 imm) (s.d.pc + 4) → InRange s (s.reg rs1 + imm) →
      ∃ t : State, core.run 5 s = .next t ∧ Settled s t ∧
        OnlyReg s t rd (memRead s.mem (s.reg rs1 + imm).toNat) ∧
        t.z.value = s.z.value ∧ SameMemory s t) ∧
    (Alone s (.load rd rs1 imm) (s.d.pc + 4) → ¬ InRange s (s.reg rs1 + imm) →
      ∃ t : State, core.run 3 s = .next t ∧ SameRegs s t ∧ t.z.value = s.z.value ∧ SameMemory s t ∧
        t.fault = some {
          code := .dataAddressRange
          pc := s.d.pc
          info := (s.reg rs1 + imm).zeroExtend 64 })

/-- R151: LDR writes data cell x[rs1] + x[rs2] to Rd, or faults out of range. -/
def Obligations.LdrReadsBasePlusIndex : Prop :=
  ∀ (rd rs1 rs2 : RegNum) (s : State),
    (∀ (rs3 : RegNum) (imm : Word), decode (packRecord 0x0F rd rs1 rs2 rs3 imm) = .ok (.ldr rd rs1 rs2)) ∧
    (CanDispatch s .ldr [rs1, rs2] → ∃ u t, exec (.ldr rd rs1 rs2) s = .next t ∧
      Dispatched s u t ∧ SamePath s t ∧
      u.op = .ldr ∧ u.rd = rd ∧ u.a = s.reg rs1 ∧ u.b = s.reg rs2 ∧ u.unit = .mem) ∧
    (Alone s (.ldr rd rs1 rs2) (s.d.pc + 4) → InRange s (s.reg rs1 + s.reg rs2) →
      ∃ t : State, core.run 5 s = .next t ∧ Settled s t ∧
        OnlyReg s t rd (memRead s.mem (s.reg rs1 + s.reg rs2).toNat) ∧
        t.z.value = s.z.value ∧ SameMemory s t) ∧
    (Alone s (.ldr rd rs1 rs2) (s.d.pc + 4) → ¬ InRange s (s.reg rs1 + s.reg rs2) →
      ∃ t : State, core.run 3 s = .next t ∧ SameRegs s t ∧ t.z.value = s.z.value ∧ SameMemory s t ∧
        t.fault = some {
          code := .dataAddressRange
          pc := s.d.pc
          info := (s.reg rs1 + s.reg rs2).zeroExtend 64 })

/-- R152: STORE writes x[rs1] to data cell x[rs2] + imm, or faults out of range. -/
def Obligations.StoreWritesBasePlusOffset : Prop :=
  ∀ (rs1 rs2 : RegNum) (imm : Word) (s : State),
    (∀ (rd rs3 : RegNum), decode (packRecord 0x10 rd rs1 rs2 rs3 imm) = .ok (.store rs1 rs2 imm)) ∧
    (CanDispatch s .store [rs1, rs2] → ∃ u t,
      exec (.store rs1 rs2 imm) s = .next t ∧ Dispatched s u t ∧ SamePath s t ∧ t.regs = s.regs ∧
      u.op = .store ∧ u.d = s.reg rs1 ∧ u.a = s.reg rs2 ∧ u.b = imm ∧ u.unit = .mem) ∧
    (Alone s (.store rs1 rs2 imm) (s.d.pc + 4) → InRange s (s.reg rs2 + imm) →
      ∃ t : State, core.run 5 s = .next t ∧ Settled s t ∧
        OnlyCell s t (s.reg rs2 + imm) (s.reg rs1) ∧ SameRegs s t ∧
        t.z.value = s.z.value) ∧
    (Alone s (.store rs1 rs2 imm) (s.d.pc + 4) → ¬ InRange s (s.reg rs2 + imm) →
      ∃ t : State, core.run 3 s = .next t ∧ SameRegs s t ∧ t.z.value = s.z.value ∧ SameMemory s t ∧
        t.fault = some {
          code := .dataAddressRange
          pc := s.d.pc
          info := (s.reg rs2 + imm).zeroExtend 64 })

/-- R153: STR writes x[rs1] to data cell x[rs2] + x[rs3], or faults out of range. -/
def Obligations.StrWritesBasePlusIndex : Prop :=
  ∀ (rs1 rs2 rs3 : RegNum) (s : State),
    (∀ (rd : RegNum) (imm : Word), decode (packRecord 0x11 rd rs1 rs2 rs3 imm) = .ok (.str rs1 rs2 rs3)) ∧
    (CanDispatch s .str [rs1, rs2, rs3] → ∃ u t,
      exec (.str rs1 rs2 rs3) s = .next t ∧ Dispatched s u t ∧ SamePath s t ∧ t.regs = s.regs ∧
      u.op = .str ∧ u.d = s.reg rs1 ∧ u.a = s.reg rs2 ∧ u.b = s.reg rs3 ∧ u.unit = .mem) ∧
    (Alone s (.str rs1 rs2 rs3) (s.d.pc + 4) → InRange s (s.reg rs2 + s.reg rs3) →
      ∃ t : State, core.run 5 s = .next t ∧ Settled s t ∧
        OnlyCell s t (s.reg rs2 + s.reg rs3) (s.reg rs1) ∧ SameRegs s t ∧
        t.z.value = s.z.value) ∧
    (Alone s (.str rs1 rs2 rs3) (s.d.pc + 4) → ¬ InRange s (s.reg rs2 + s.reg rs3) →
      ∃ t : State, core.run 3 s = .next t ∧ SameRegs s t ∧ t.z.value = s.z.value ∧ SameMemory s t ∧
        t.fault = some {
          code := .dataAddressRange
          pc := s.d.pc
          info := (s.reg rs2 + s.reg rs3).zeroExtend 64 })

/-- R185: BZ redirects Fetch to D.pc + imm exactly when Z is 1. -/
def Obligations.BzBranchesIfZero : Prop :=
  ∀ (imm : Word) (s : State),
    (∀ rd rs1 rs2 rs3, decode (packRecord 0x12 rd rs1 rs2 rs3 imm) = .ok (.bz imm)) ∧
    (CanDispatch s .bz [] → ∃ u t, exec (.bz imm) s = .next t ∧ Dispatched s u t ∧
      u.op = .bz ∧ u.unit = .int ∧ t.regs = s.regs ∧ t.z = s.z ∧
      (s.z.value = true → Redirected s (s.d.pc + imm) t) ∧
      (s.z.value = false → SamePath s t)) ∧
    (s.z.valid = false → exec (.bz imm) s = .next s.stallDecode) ∧
    ∀ next, (next = if s.z.value = true then s.d.pc + imm else s.d.pc + 4) →
      Alone s (.bz imm) next → ∃ t : State, core.run 4 s = .next t ∧ Settled s t ∧
        t.pc = next ∧ SameRegs s t ∧ t.z.value = s.z.value ∧ SameMemory s t

/-- R187: BNZ redirects Fetch to D.pc + imm exactly when Z is 0. -/
def Obligations.BnzBranchesIfNotZero : Prop :=
  ∀ (imm : Word) (s : State),
    (∀ rd rs1 rs2 rs3, decode (packRecord 0x13 rd rs1 rs2 rs3 imm) = .ok (.bnz imm)) ∧
    (CanDispatch s .bnz [] → ∃ u t, exec (.bnz imm) s = .next t ∧ Dispatched s u t ∧
      u.op = .bnz ∧ u.unit = .int ∧ t.regs = s.regs ∧ t.z = s.z ∧
      (s.z.value = false → Redirected s (s.d.pc + imm) t) ∧
      (s.z.value = true → SamePath s t)) ∧
    (s.z.valid = false → exec (.bnz imm) s = .next s.stallDecode) ∧
    ∀ next, (next = if s.z.value = false then s.d.pc + imm else s.d.pc + 4) →
      Alone s (.bnz imm) next → ∃ t : State, core.run 4 s = .next t ∧ Settled s t ∧
        t.pc = next ∧ SameRegs s t ∧ t.z.value = s.z.value ∧ SameMemory s t

/-- R189: JUMP redirects Fetch to x[rs1] + imm. -/
def Obligations.JumpGoesToRegisterPlusOffset : Prop :=
  ∀ (rs1 : RegNum) (imm : Word) (s : State),
    (∀ rd rs2 rs3, decode (packRecord 0x14 rd rs1 rs2 rs3 imm) = .ok (.jump rs1 imm)) ∧
    (CanDispatch s .jump [rs1] → ∃ u t, exec (.jump rs1 imm) s = .next t ∧
      Dispatched s u t ∧ u.op = .jump ∧ u.unit = .int ∧ t.regs = s.regs ∧ t.z = s.z ∧
      Redirected s (s.reg rs1 + imm) t) ∧
    (s.regValid rs1 = false → exec (.jump rs1 imm) s = .next s.stallDecode) ∧
    (Alone s (.jump rs1 imm) (s.reg rs1 + imm) → ∃ t : State, core.run 4 s = .next t ∧ Settled s t ∧
      t.pc = s.reg rs1 + imm ∧ SameRegs s t ∧ t.z.value = s.z.value ∧ SameMemory s t)

/-- R195: HALT stops Fetch when examined and the core when it retires. -/
def Obligations.HaltStopsFetchThenTheCore : Prop :=
  ∀ s : State,
    (∀ rd rs1 rs2 rs3 imm, decode (packRecord 0x15 rd rs1 rs2 rs3 imm) = .ok .halt) ∧
    (∃ t, exec .halt s = .next t ∧ t.haltFetch = true ∧ t.f = { s.f with valid := false } ∧
      t.pc = s.pc) ∧
    (CanDispatch s .halt [] → ∃ u t, exec .halt s = .next t ∧ Dispatched s u t ∧
      u.op = .halt ∧ u.unit = .int ∧ t.regs = s.regs ∧ t.z = s.z ∧
      t.haltFetch = true ∧ t.f = { s.f with valid := false } ∧ t.pc = s.pc) ∧
    (Alone s .halt (s.d.pc + 4) → ∃ t t' : State, core.run 4 s = .next t ∧ Settled s t ∧
      step t = .next t' ∧ t'.halted = true ∧ t'.stopped = true ∧ t'.fault = none ∧
      t'.completed = s.completed + 1 ∧ SameRegs s t' ∧ t'.z.value = s.z.value ∧
      SameMemory s t')
end

