-- ==== Sys2Proof/Laws/State.lean ====
section
/-! SUPPORT. One lemma per field per named update of `State`, each true by `rfl`: a later proof reads a
field after an update without unfolding the update. -/

namespace Sys2Proof.Machine

variable (s : State)

/-! ### `State.stallDecode` -/

@[simp] theorem State.stallDecode_launch : (s.stallDecode).launch = s.launch := rfl
@[simp] theorem State.stallDecode_pc : (s.stallDecode).pc = s.pc := rfl
@[simp] theorem State.stallDecode_regs : (s.stallDecode).regs = s.regs := rfl
@[simp] theorem State.stallDecode_z : (s.stallDecode).z = s.z := rfl
@[simp] theorem State.stallDecode_f : (s.stallDecode).f = s.f := rfl
@[simp] theorem State.stallDecode_d : (s.stallDecode).d = { s.d with stalled := true } := rfl
@[simp] theorem State.stallDecode_iq : (s.stallDecode).iq = s.iq := rfl
@[simp] theorem State.stallDecode_lsq : (s.stallDecode).lsq = s.lsq := rfl
@[simp] theorem State.stallDecode_rob : (s.stallDecode).rob = s.rob := rfl
@[simp] theorem State.stallDecode_int1 : (s.stallDecode).int1 = s.int1 := rfl
@[simp] theorem State.stallDecode_int2 : (s.stallDecode).int2 = s.int2 := rfl
@[simp] theorem State.stallDecode_mul1 : (s.stallDecode).mul1 = s.mul1 := rfl
@[simp] theorem State.stallDecode_mul2 : (s.stallDecode).mul2 = s.mul2 := rfl
@[simp] theorem State.stallDecode_mul3 : (s.stallDecode).mul3 = s.mul3 := rfl
@[simp] theorem State.stallDecode_mem1 : (s.stallDecode).mem1 = s.mem1 := rfl
@[simp] theorem State.stallDecode_mem2 : (s.stallDecode).mem2 = s.mem2 := rfl
@[simp] theorem State.stallDecode_mem3 : (s.stallDecode).mem3 = s.mem3 := rfl
@[simp] theorem State.stallDecode_ret : (s.stallDecode).ret = s.ret := rfl
@[simp] theorem State.stallDecode_haltFetch : (s.stallDecode).haltFetch = s.haltFetch := rfl
@[simp] theorem State.stallDecode_halted : (s.stallDecode).halted = s.halted := rfl
@[simp] theorem State.stallDecode_completed : (s.stallDecode).completed = s.completed := rfl
@[simp] theorem State.stallDecode_cycle : (s.stallDecode).cycle = s.cycle := rfl
@[simp] theorem State.stallDecode_fault : (s.stallDecode).fault = s.fault := rfl
@[simp] theorem State.stallDecode_mem : (s.stallDecode).mem = s.mem := rfl

/-! ### `State.clearDecode` -/

@[simp] theorem State.clearDecode_launch : (s.clearDecode).launch = s.launch := rfl
@[simp] theorem State.clearDecode_pc : (s.clearDecode).pc = s.pc := rfl
@[simp] theorem State.clearDecode_regs : (s.clearDecode).regs = s.regs := rfl
@[simp] theorem State.clearDecode_z : (s.clearDecode).z = s.z := rfl
@[simp] theorem State.clearDecode_f : (s.clearDecode).f = s.f := rfl
@[simp] theorem State.clearDecode_d : (s.clearDecode).d = { s.d.clear with stalled := false } := rfl
@[simp] theorem State.clearDecode_iq : (s.clearDecode).iq = s.iq := rfl
@[simp] theorem State.clearDecode_lsq : (s.clearDecode).lsq = s.lsq := rfl
@[simp] theorem State.clearDecode_rob : (s.clearDecode).rob = s.rob := rfl
@[simp] theorem State.clearDecode_int1 : (s.clearDecode).int1 = s.int1 := rfl
@[simp] theorem State.clearDecode_int2 : (s.clearDecode).int2 = s.int2 := rfl
@[simp] theorem State.clearDecode_mul1 : (s.clearDecode).mul1 = s.mul1 := rfl
@[simp] theorem State.clearDecode_mul2 : (s.clearDecode).mul2 = s.mul2 := rfl
@[simp] theorem State.clearDecode_mul3 : (s.clearDecode).mul3 = s.mul3 := rfl
@[simp] theorem State.clearDecode_mem1 : (s.clearDecode).mem1 = s.mem1 := rfl
@[simp] theorem State.clearDecode_mem2 : (s.clearDecode).mem2 = s.mem2 := rfl
@[simp] theorem State.clearDecode_mem3 : (s.clearDecode).mem3 = s.mem3 := rfl
@[simp] theorem State.clearDecode_ret : (s.clearDecode).ret = s.ret := rfl
@[simp] theorem State.clearDecode_haltFetch : (s.clearDecode).haltFetch = s.haltFetch := rfl
@[simp] theorem State.clearDecode_halted : (s.clearDecode).halted = s.halted := rfl
@[simp] theorem State.clearDecode_completed : (s.clearDecode).completed = s.completed := rfl
@[simp] theorem State.clearDecode_cycle : (s.clearDecode).cycle = s.cycle := rfl
@[simp] theorem State.clearDecode_fault : (s.clearDecode).fault = s.fault := rfl
@[simp] theorem State.clearDecode_mem : (s.clearDecode).mem = s.mem := rfl

/-! ### `State.takeBranch` -/

@[simp] theorem State.takeBranch_launch (t : Word) : (s.takeBranch t).launch = s.launch := rfl
@[simp] theorem State.takeBranch_pc (t : Word) : (s.takeBranch t).pc = t := rfl
@[simp] theorem State.takeBranch_regs (t : Word) : (s.takeBranch t).regs = s.regs := rfl
@[simp] theorem State.takeBranch_z (t : Word) : (s.takeBranch t).z = s.z := rfl
@[simp] theorem State.takeBranch_f (t : Word) : (s.takeBranch t).f = s.f.clear := rfl
@[simp] theorem State.takeBranch_d (t : Word) : (s.takeBranch t).d = s.d := rfl
@[simp] theorem State.takeBranch_iq (t : Word) : (s.takeBranch t).iq = s.iq := rfl
@[simp] theorem State.takeBranch_lsq (t : Word) : (s.takeBranch t).lsq = s.lsq := rfl
@[simp] theorem State.takeBranch_rob (t : Word) : (s.takeBranch t).rob = s.rob := rfl
@[simp] theorem State.takeBranch_int1 (t : Word) : (s.takeBranch t).int1 = s.int1 := rfl
@[simp] theorem State.takeBranch_int2 (t : Word) : (s.takeBranch t).int2 = s.int2 := rfl
@[simp] theorem State.takeBranch_mul1 (t : Word) : (s.takeBranch t).mul1 = s.mul1 := rfl
@[simp] theorem State.takeBranch_mul2 (t : Word) : (s.takeBranch t).mul2 = s.mul2 := rfl
@[simp] theorem State.takeBranch_mul3 (t : Word) : (s.takeBranch t).mul3 = s.mul3 := rfl
@[simp] theorem State.takeBranch_mem1 (t : Word) : (s.takeBranch t).mem1 = s.mem1 := rfl
@[simp] theorem State.takeBranch_mem2 (t : Word) : (s.takeBranch t).mem2 = s.mem2 := rfl
@[simp] theorem State.takeBranch_mem3 (t : Word) : (s.takeBranch t).mem3 = s.mem3 := rfl
@[simp] theorem State.takeBranch_ret (t : Word) : (s.takeBranch t).ret = s.ret := rfl
@[simp] theorem State.takeBranch_haltFetch (t : Word) :
    (s.takeBranch t).haltFetch = s.haltFetch := rfl
@[simp] theorem State.takeBranch_halted (t : Word) : (s.takeBranch t).halted = s.halted := rfl
@[simp] theorem State.takeBranch_completed (t : Word) :
    (s.takeBranch t).completed = s.completed := rfl
@[simp] theorem State.takeBranch_cycle (t : Word) : (s.takeBranch t).cycle = s.cycle := rfl
@[simp] theorem State.takeBranch_fault (t : Word) : (s.takeBranch t).fault = s.fault := rfl
@[simp] theorem State.takeBranch_mem (t : Word) : (s.takeBranch t).mem = s.mem := rfl

/-! ### `State.stopFetch` -/

@[simp] theorem State.stopFetch_launch : (s.stopFetch).launch = s.launch := rfl
@[simp] theorem State.stopFetch_pc : (s.stopFetch).pc = s.pc := rfl
@[simp] theorem State.stopFetch_regs : (s.stopFetch).regs = s.regs := rfl
@[simp] theorem State.stopFetch_z : (s.stopFetch).z = s.z := rfl
@[simp] theorem State.stopFetch_f : (s.stopFetch).f = s.f.clear := rfl
@[simp] theorem State.stopFetch_d : (s.stopFetch).d = s.d := rfl
@[simp] theorem State.stopFetch_iq : (s.stopFetch).iq = s.iq := rfl
@[simp] theorem State.stopFetch_lsq : (s.stopFetch).lsq = s.lsq := rfl
@[simp] theorem State.stopFetch_rob : (s.stopFetch).rob = s.rob := rfl
@[simp] theorem State.stopFetch_int1 : (s.stopFetch).int1 = s.int1 := rfl
@[simp] theorem State.stopFetch_int2 : (s.stopFetch).int2 = s.int2 := rfl
@[simp] theorem State.stopFetch_mul1 : (s.stopFetch).mul1 = s.mul1 := rfl
@[simp] theorem State.stopFetch_mul2 : (s.stopFetch).mul2 = s.mul2 := rfl
@[simp] theorem State.stopFetch_mul3 : (s.stopFetch).mul3 = s.mul3 := rfl
@[simp] theorem State.stopFetch_mem1 : (s.stopFetch).mem1 = s.mem1 := rfl
@[simp] theorem State.stopFetch_mem2 : (s.stopFetch).mem2 = s.mem2 := rfl
@[simp] theorem State.stopFetch_mem3 : (s.stopFetch).mem3 = s.mem3 := rfl
@[simp] theorem State.stopFetch_ret : (s.stopFetch).ret = s.ret := rfl
@[simp] theorem State.stopFetch_haltFetch : (s.stopFetch).haltFetch = true := rfl
@[simp] theorem State.stopFetch_halted : (s.stopFetch).halted = s.halted := rfl
@[simp] theorem State.stopFetch_completed : (s.stopFetch).completed = s.completed := rfl
@[simp] theorem State.stopFetch_cycle : (s.stopFetch).cycle = s.cycle := rfl
@[simp] theorem State.stopFetch_fault : (s.stopFetch).fault = s.fault := rfl
@[simp] theorem State.stopFetch_mem : (s.stopFetch).mem = s.mem := rfl

/-! ### `State.raise` -/

@[simp] theorem State.raise_launch (c : FaultCode) (p : Word) (n : BitVec 64) :
    (s.raise c p n).launch = s.launch := rfl
@[simp] theorem State.raise_pc (c : FaultCode) (p : Word) (n : BitVec 64) :
    (s.raise c p n).pc = s.pc := rfl
@[simp] theorem State.raise_regs (c : FaultCode) (p : Word) (n : BitVec 64) :
    (s.raise c p n).regs = s.regs := rfl
@[simp] theorem State.raise_z (c : FaultCode) (p : Word) (n : BitVec 64) :
    (s.raise c p n).z = s.z := rfl
@[simp] theorem State.raise_f (c : FaultCode) (p : Word) (n : BitVec 64) :
    (s.raise c p n).f = s.f := rfl
@[simp] theorem State.raise_d (c : FaultCode) (p : Word) (n : BitVec 64) :
    (s.raise c p n).d = s.d := rfl
@[simp] theorem State.raise_iq (c : FaultCode) (p : Word) (n : BitVec 64) :
    (s.raise c p n).iq = s.iq := rfl
@[simp] theorem State.raise_lsq (c : FaultCode) (p : Word) (n : BitVec 64) :
    (s.raise c p n).lsq = s.lsq := rfl
@[simp] theorem State.raise_rob (c : FaultCode) (p : Word) (n : BitVec 64) :
    (s.raise c p n).rob = s.rob := rfl
@[simp] theorem State.raise_int1 (c : FaultCode) (p : Word) (n : BitVec 64) :
    (s.raise c p n).int1 = s.int1 := rfl
@[simp] theorem State.raise_int2 (c : FaultCode) (p : Word) (n : BitVec 64) :
    (s.raise c p n).int2 = s.int2 := rfl
@[simp] theorem State.raise_mul1 (c : FaultCode) (p : Word) (n : BitVec 64) :
    (s.raise c p n).mul1 = s.mul1 := rfl
@[simp] theorem State.raise_mul2 (c : FaultCode) (p : Word) (n : BitVec 64) :
    (s.raise c p n).mul2 = s.mul2 := rfl
@[simp] theorem State.raise_mul3 (c : FaultCode) (p : Word) (n : BitVec 64) :
    (s.raise c p n).mul3 = s.mul3 := rfl
@[simp] theorem State.raise_mem1 (c : FaultCode) (p : Word) (n : BitVec 64) :
    (s.raise c p n).mem1 = s.mem1 := rfl
@[simp] theorem State.raise_mem2 (c : FaultCode) (p : Word) (n : BitVec 64) :
    (s.raise c p n).mem2 = s.mem2 := rfl
@[simp] theorem State.raise_mem3 (c : FaultCode) (p : Word) (n : BitVec 64) :
    (s.raise c p n).mem3 = s.mem3 := rfl
@[simp] theorem State.raise_ret (c : FaultCode) (p : Word) (n : BitVec 64) :
    (s.raise c p n).ret = s.ret := rfl
@[simp] theorem State.raise_haltFetch (c : FaultCode) (p : Word) (n : BitVec 64) :
    (s.raise c p n).haltFetch = s.haltFetch := rfl
@[simp] theorem State.raise_halted (c : FaultCode) (p : Word) (n : BitVec 64) :
    (s.raise c p n).halted = s.halted := rfl
@[simp] theorem State.raise_completed (c : FaultCode) (p : Word) (n : BitVec 64) :
    (s.raise c p n).completed = s.completed := rfl
@[simp] theorem State.raise_cycle (c : FaultCode) (p : Word) (n : BitVec 64) :
    (s.raise c p n).cycle = s.cycle := rfl
@[simp] theorem State.raise_fault (c : FaultCode) (p : Word) (n : BitVec 64) :
    (s.raise c p n).fault = some { code := c, pc := p, info := n } := rfl
@[simp] theorem State.raise_mem (c : FaultCode) (p : Word) (n : BitVec 64) :
    (s.raise c p n).mem = s.mem := rfl

/-! ### `State.tick` -/

@[simp] theorem State.tick_launch : (s.tick).launch = s.launch := rfl
@[simp] theorem State.tick_pc : (s.tick).pc = s.pc := rfl
@[simp] theorem State.tick_regs : (s.tick).regs = s.regs := rfl
@[simp] theorem State.tick_z : (s.tick).z = s.z := rfl
@[simp] theorem State.tick_f : (s.tick).f = s.f := rfl
@[simp] theorem State.tick_d : (s.tick).d = s.d := rfl
@[simp] theorem State.tick_iq : (s.tick).iq = s.iq := rfl
@[simp] theorem State.tick_lsq : (s.tick).lsq = s.lsq := rfl
@[simp] theorem State.tick_rob : (s.tick).rob = s.rob := rfl
@[simp] theorem State.tick_int1 : (s.tick).int1 = s.int1 := rfl
@[simp] theorem State.tick_int2 : (s.tick).int2 = s.int2 := rfl
@[simp] theorem State.tick_mul1 : (s.tick).mul1 = s.mul1 := rfl
@[simp] theorem State.tick_mul2 : (s.tick).mul2 = s.mul2 := rfl
@[simp] theorem State.tick_mul3 : (s.tick).mul3 = s.mul3 := rfl
@[simp] theorem State.tick_mem1 : (s.tick).mem1 = s.mem1 := rfl
@[simp] theorem State.tick_mem2 : (s.tick).mem2 = s.mem2 := rfl
@[simp] theorem State.tick_mem3 : (s.tick).mem3 = s.mem3 := rfl
@[simp] theorem State.tick_ret : (s.tick).ret = s.ret := rfl
@[simp] theorem State.tick_haltFetch : (s.tick).haltFetch = s.haltFetch := rfl
@[simp] theorem State.tick_halted : (s.tick).halted = s.halted := rfl
@[simp] theorem State.tick_completed : (s.tick).completed = s.completed := rfl
@[simp] theorem State.tick_cycle : (s.tick).cycle = s.cycle + 1 := rfl
@[simp] theorem State.tick_fault : (s.tick).fault = s.fault := rfl
@[simp] theorem State.tick_mem : (s.tick).mem = s.mem := rfl

/-! ### `State.robAllocate` -/

@[simp] theorem State.robAllocate_launch (u : MicroOp) : (s.robAllocate u).launch = s.launch := rfl
@[simp] theorem State.robAllocate_pc (u : MicroOp) : (s.robAllocate u).pc = s.pc := rfl
@[simp] theorem State.robAllocate_regs (u : MicroOp) : (s.robAllocate u).regs = s.regs := rfl
@[simp] theorem State.robAllocate_z (u : MicroOp) : (s.robAllocate u).z = s.z := rfl
@[simp] theorem State.robAllocate_f (u : MicroOp) : (s.robAllocate u).f = s.f := rfl
@[simp] theorem State.robAllocate_d (u : MicroOp) : (s.robAllocate u).d = s.d := rfl
@[simp] theorem State.robAllocate_iq (u : MicroOp) : (s.robAllocate u).iq = s.iq := rfl
@[simp] theorem State.robAllocate_lsq (u : MicroOp) : (s.robAllocate u).lsq = s.lsq := rfl
@[simp] theorem State.robAllocate_rob (u : MicroOp) :
    (s.robAllocate u).rob = s.rob.allocate s.launch.robSize (u.robEntry (recRd s.d.word)) := rfl
@[simp] theorem State.robAllocate_int1 (u : MicroOp) : (s.robAllocate u).int1 = s.int1 := rfl
@[simp] theorem State.robAllocate_int2 (u : MicroOp) : (s.robAllocate u).int2 = s.int2 := rfl
@[simp] theorem State.robAllocate_mul1 (u : MicroOp) : (s.robAllocate u).mul1 = s.mul1 := rfl
@[simp] theorem State.robAllocate_mul2 (u : MicroOp) : (s.robAllocate u).mul2 = s.mul2 := rfl
@[simp] theorem State.robAllocate_mul3 (u : MicroOp) : (s.robAllocate u).mul3 = s.mul3 := rfl
@[simp] theorem State.robAllocate_mem1 (u : MicroOp) : (s.robAllocate u).mem1 = s.mem1 := rfl
@[simp] theorem State.robAllocate_mem2 (u : MicroOp) : (s.robAllocate u).mem2 = s.mem2 := rfl
@[simp] theorem State.robAllocate_mem3 (u : MicroOp) : (s.robAllocate u).mem3 = s.mem3 := rfl
@[simp] theorem State.robAllocate_ret (u : MicroOp) : (s.robAllocate u).ret = s.ret := rfl
@[simp] theorem State.robAllocate_haltFetch (u : MicroOp) :
    (s.robAllocate u).haltFetch = s.haltFetch := rfl
@[simp] theorem State.robAllocate_halted (u : MicroOp) : (s.robAllocate u).halted = s.halted := rfl
@[simp] theorem State.robAllocate_completed (u : MicroOp) :
    (s.robAllocate u).completed = s.completed := rfl
@[simp] theorem State.robAllocate_cycle (u : MicroOp) : (s.robAllocate u).cycle = s.cycle := rfl
@[simp] theorem State.robAllocate_fault (u : MicroOp) : (s.robAllocate u).fault = s.fault := rfl
@[simp] theorem State.robAllocate_mem (u : MicroOp) : (s.robAllocate u).mem = s.mem := rfl

/-! ### `State.invalidateDest` -/

@[simp] theorem State.invalidateDest_launch (u : MicroOp) :
    (s.invalidateDest u).launch = s.launch := rfl
@[simp] theorem State.invalidateDest_pc (u : MicroOp) : (s.invalidateDest u).pc = s.pc := rfl
@[simp] theorem State.invalidateDest_regs (u : MicroOp) :
    (s.invalidateDest u).regs = if hasDest u.op then s.regs.invalidate u.rd u.rob else s.regs := rfl
@[simp] theorem State.invalidateDest_z (u : MicroOp) : (s.invalidateDest u).z = s.z := rfl
@[simp] theorem State.invalidateDest_f (u : MicroOp) : (s.invalidateDest u).f = s.f := rfl
@[simp] theorem State.invalidateDest_d (u : MicroOp) : (s.invalidateDest u).d = s.d := rfl
@[simp] theorem State.invalidateDest_iq (u : MicroOp) : (s.invalidateDest u).iq = s.iq := rfl
@[simp] theorem State.invalidateDest_lsq (u : MicroOp) : (s.invalidateDest u).lsq = s.lsq := rfl
@[simp] theorem State.invalidateDest_rob (u : MicroOp) : (s.invalidateDest u).rob = s.rob := rfl
@[simp] theorem State.invalidateDest_int1 (u : MicroOp) : (s.invalidateDest u).int1 = s.int1 := rfl
@[simp] theorem State.invalidateDest_int2 (u : MicroOp) : (s.invalidateDest u).int2 = s.int2 := rfl
@[simp] theorem State.invalidateDest_mul1 (u : MicroOp) : (s.invalidateDest u).mul1 = s.mul1 := rfl
@[simp] theorem State.invalidateDest_mul2 (u : MicroOp) : (s.invalidateDest u).mul2 = s.mul2 := rfl
@[simp] theorem State.invalidateDest_mul3 (u : MicroOp) : (s.invalidateDest u).mul3 = s.mul3 := rfl
@[simp] theorem State.invalidateDest_mem1 (u : MicroOp) : (s.invalidateDest u).mem1 = s.mem1 := rfl
@[simp] theorem State.invalidateDest_mem2 (u : MicroOp) : (s.invalidateDest u).mem2 = s.mem2 := rfl
@[simp] theorem State.invalidateDest_mem3 (u : MicroOp) : (s.invalidateDest u).mem3 = s.mem3 := rfl
@[simp] theorem State.invalidateDest_ret (u : MicroOp) : (s.invalidateDest u).ret = s.ret := rfl
@[simp] theorem State.invalidateDest_haltFetch (u : MicroOp) :
    (s.invalidateDest u).haltFetch = s.haltFetch := rfl
@[simp] theorem State.invalidateDest_halted (u : MicroOp) :
    (s.invalidateDest u).halted = s.halted := rfl
@[simp] theorem State.invalidateDest_completed (u : MicroOp) :
    (s.invalidateDest u).completed = s.completed := rfl
@[simp] theorem State.invalidateDest_cycle (u : MicroOp) :
    (s.invalidateDest u).cycle = s.cycle := rfl
@[simp] theorem State.invalidateDest_fault (u : MicroOp) :
    (s.invalidateDest u).fault = s.fault := rfl
@[simp] theorem State.invalidateDest_mem (u : MicroOp) : (s.invalidateDest u).mem = s.mem := rfl

/-! ### `State.invalidateZ` -/

@[simp] theorem State.invalidateZ_launch (u : MicroOp) : (s.invalidateZ u).launch = s.launch := rfl
@[simp] theorem State.invalidateZ_pc (u : MicroOp) : (s.invalidateZ u).pc = s.pc := rfl
@[simp] theorem State.invalidateZ_regs (u : MicroOp) : (s.invalidateZ u).regs = s.regs := rfl
@[simp] theorem State.invalidateZ_z (u : MicroOp) :
    (s.invalidateZ u).z = if setsZ u.op then s.z.invalidate u.rob else s.z := rfl
@[simp] theorem State.invalidateZ_f (u : MicroOp) : (s.invalidateZ u).f = s.f := rfl
@[simp] theorem State.invalidateZ_d (u : MicroOp) : (s.invalidateZ u).d = s.d := rfl
@[simp] theorem State.invalidateZ_iq (u : MicroOp) : (s.invalidateZ u).iq = s.iq := rfl
@[simp] theorem State.invalidateZ_lsq (u : MicroOp) : (s.invalidateZ u).lsq = s.lsq := rfl
@[simp] theorem State.invalidateZ_rob (u : MicroOp) : (s.invalidateZ u).rob = s.rob := rfl
@[simp] theorem State.invalidateZ_int1 (u : MicroOp) : (s.invalidateZ u).int1 = s.int1 := rfl
@[simp] theorem State.invalidateZ_int2 (u : MicroOp) : (s.invalidateZ u).int2 = s.int2 := rfl
@[simp] theorem State.invalidateZ_mul1 (u : MicroOp) : (s.invalidateZ u).mul1 = s.mul1 := rfl
@[simp] theorem State.invalidateZ_mul2 (u : MicroOp) : (s.invalidateZ u).mul2 = s.mul2 := rfl
@[simp] theorem State.invalidateZ_mul3 (u : MicroOp) : (s.invalidateZ u).mul3 = s.mul3 := rfl
@[simp] theorem State.invalidateZ_mem1 (u : MicroOp) : (s.invalidateZ u).mem1 = s.mem1 := rfl
@[simp] theorem State.invalidateZ_mem2 (u : MicroOp) : (s.invalidateZ u).mem2 = s.mem2 := rfl
@[simp] theorem State.invalidateZ_mem3 (u : MicroOp) : (s.invalidateZ u).mem3 = s.mem3 := rfl
@[simp] theorem State.invalidateZ_ret (u : MicroOp) : (s.invalidateZ u).ret = s.ret := rfl
@[simp] theorem State.invalidateZ_haltFetch (u : MicroOp) :
    (s.invalidateZ u).haltFetch = s.haltFetch := rfl
@[simp] theorem State.invalidateZ_halted (u : MicroOp) : (s.invalidateZ u).halted = s.halted := rfl
@[simp] theorem State.invalidateZ_completed (u : MicroOp) :
    (s.invalidateZ u).completed = s.completed := rfl
@[simp] theorem State.invalidateZ_cycle (u : MicroOp) : (s.invalidateZ u).cycle = s.cycle := rfl
@[simp] theorem State.invalidateZ_fault (u : MicroOp) : (s.invalidateZ u).fault = s.fault := rfl
@[simp] theorem State.invalidateZ_mem (u : MicroOp) : (s.invalidateZ u).mem = s.mem := rfl

/-! ### `State.enqueue` -/

@[simp] theorem State.enqueue_launch (u : MicroOp) : (s.enqueue u).launch = s.launch := rfl
@[simp] theorem State.enqueue_pc (u : MicroOp) : (s.enqueue u).pc = s.pc := rfl
@[simp] theorem State.enqueue_regs (u : MicroOp) : (s.enqueue u).regs = s.regs := rfl
@[simp] theorem State.enqueue_z (u : MicroOp) : (s.enqueue u).z = s.z := rfl
@[simp] theorem State.enqueue_f (u : MicroOp) : (s.enqueue u).f = s.f := rfl
@[simp] theorem State.enqueue_d (u : MicroOp) : (s.enqueue u).d = s.d := rfl
@[simp] theorem State.enqueue_iq (u : MicroOp) :
    (s.enqueue u).iq = if isMem u.op then s.iq else s.iq.insert u := rfl
@[simp] theorem State.enqueue_lsq (u : MicroOp) :
    (s.enqueue u).lsq = if isMem u.op then s.lsq.push s.launch.lsqSize u else s.lsq := rfl
@[simp] theorem State.enqueue_rob (u : MicroOp) : (s.enqueue u).rob = s.rob := rfl
@[simp] theorem State.enqueue_int1 (u : MicroOp) : (s.enqueue u).int1 = s.int1 := rfl
@[simp] theorem State.enqueue_int2 (u : MicroOp) : (s.enqueue u).int2 = s.int2 := rfl
@[simp] theorem State.enqueue_mul1 (u : MicroOp) : (s.enqueue u).mul1 = s.mul1 := rfl
@[simp] theorem State.enqueue_mul2 (u : MicroOp) : (s.enqueue u).mul2 = s.mul2 := rfl
@[simp] theorem State.enqueue_mul3 (u : MicroOp) : (s.enqueue u).mul3 = s.mul3 := rfl
@[simp] theorem State.enqueue_mem1 (u : MicroOp) : (s.enqueue u).mem1 = s.mem1 := rfl
@[simp] theorem State.enqueue_mem2 (u : MicroOp) : (s.enqueue u).mem2 = s.mem2 := rfl
@[simp] theorem State.enqueue_mem3 (u : MicroOp) : (s.enqueue u).mem3 = s.mem3 := rfl
@[simp] theorem State.enqueue_ret (u : MicroOp) : (s.enqueue u).ret = s.ret := rfl
@[simp] theorem State.enqueue_haltFetch (u : MicroOp) : (s.enqueue u).haltFetch = s.haltFetch := rfl
@[simp] theorem State.enqueue_halted (u : MicroOp) : (s.enqueue u).halted = s.halted := rfl
@[simp] theorem State.enqueue_completed (u : MicroOp) : (s.enqueue u).completed = s.completed := rfl
@[simp] theorem State.enqueue_cycle (u : MicroOp) : (s.enqueue u).cycle = s.cycle := rfl
@[simp] theorem State.enqueue_fault (u : MicroOp) : (s.enqueue u).fault = s.fault := rfl
@[simp] theorem State.enqueue_mem (u : MicroOp) : (s.enqueue u).mem = s.mem := rfl

/-! ### `State.allocate` -/

@[simp] theorem State.allocate_launch (u : MicroOp) : (s.allocate u).launch = s.launch := rfl
@[simp] theorem State.allocate_pc (u : MicroOp) : (s.allocate u).pc = s.pc := rfl
@[simp] theorem State.allocate_regs (u : MicroOp) :
    (s.allocate u).regs = if hasDest u.op then s.regs.invalidate u.rd u.rob else s.regs := rfl
@[simp] theorem State.allocate_z (u : MicroOp) :
    (s.allocate u).z = if setsZ u.op then s.z.invalidate u.rob else s.z := rfl
@[simp] theorem State.allocate_f (u : MicroOp) : (s.allocate u).f = s.f := rfl
@[simp] theorem State.allocate_d (u : MicroOp) : (s.allocate u).d = s.d := rfl
@[simp] theorem State.allocate_iq (u : MicroOp) :
    (s.allocate u).iq = if isMem u.op then s.iq else s.iq.insert u := rfl
@[simp] theorem State.allocate_lsq (u : MicroOp) :
    (s.allocate u).lsq = if isMem u.op then s.lsq.push s.launch.lsqSize u else s.lsq := rfl
@[simp] theorem State.allocate_rob (u : MicroOp) :
    (s.allocate u).rob = s.rob.allocate s.launch.robSize (u.robEntry (recRd s.d.word)) := rfl
@[simp] theorem State.allocate_int1 (u : MicroOp) : (s.allocate u).int1 = s.int1 := rfl
@[simp] theorem State.allocate_int2 (u : MicroOp) : (s.allocate u).int2 = s.int2 := rfl
@[simp] theorem State.allocate_mul1 (u : MicroOp) : (s.allocate u).mul1 = s.mul1 := rfl
@[simp] theorem State.allocate_mul2 (u : MicroOp) : (s.allocate u).mul2 = s.mul2 := rfl
@[simp] theorem State.allocate_mul3 (u : MicroOp) : (s.allocate u).mul3 = s.mul3 := rfl
@[simp] theorem State.allocate_mem1 (u : MicroOp) : (s.allocate u).mem1 = s.mem1 := rfl
@[simp] theorem State.allocate_mem2 (u : MicroOp) : (s.allocate u).mem2 = s.mem2 := rfl
@[simp] theorem State.allocate_mem3 (u : MicroOp) : (s.allocate u).mem3 = s.mem3 := rfl
@[simp] theorem State.allocate_ret (u : MicroOp) : (s.allocate u).ret = s.ret := rfl
@[simp] theorem State.allocate_haltFetch (u : MicroOp) :
    (s.allocate u).haltFetch = s.haltFetch := rfl
@[simp] theorem State.allocate_halted (u : MicroOp) : (s.allocate u).halted = s.halted := rfl
@[simp] theorem State.allocate_completed (u : MicroOp) :
    (s.allocate u).completed = s.completed := rfl
@[simp] theorem State.allocate_cycle (u : MicroOp) : (s.allocate u).cycle = s.cycle := rfl
@[simp] theorem State.allocate_fault (u : MicroOp) : (s.allocate u).fault = s.fault := rfl
@[simp] theorem State.allocate_mem (u : MicroOp) : (s.allocate u).mem = s.mem := rfl

/-! ### `State.writeback` -/

@[simp] theorem State.writeback_launch (u : MicroOp) : (s.writeback u).launch = s.launch := rfl
@[simp] theorem State.writeback_pc (u : MicroOp) : (s.writeback u).pc = s.pc := rfl
@[simp] theorem State.writeback_regs (u : MicroOp) :
    (s.writeback u).regs =
      if hasDest u.op then s.regs.writeback u.rd u.result u.rob else s.regs := rfl
@[simp] theorem State.writeback_z (u : MicroOp) :
    (s.writeback u).z = if setsZ u.op then s.z.writeback (zeroFlag u.result) u.rob else s.z := rfl
@[simp] theorem State.writeback_f (u : MicroOp) : (s.writeback u).f = s.f := rfl
@[simp] theorem State.writeback_d (u : MicroOp) : (s.writeback u).d = s.d := rfl
@[simp] theorem State.writeback_iq (u : MicroOp) : (s.writeback u).iq = s.iq := rfl
@[simp] theorem State.writeback_lsq (u : MicroOp) : (s.writeback u).lsq = s.lsq := rfl
@[simp] theorem State.writeback_rob (u : MicroOp) :
    (s.writeback u).rob = s.rob.setComplete u.rob := rfl
@[simp] theorem State.writeback_int1 (u : MicroOp) : (s.writeback u).int1 = s.int1 := rfl
@[simp] theorem State.writeback_int2 (u : MicroOp) : (s.writeback u).int2 = s.int2 := rfl
@[simp] theorem State.writeback_mul1 (u : MicroOp) : (s.writeback u).mul1 = s.mul1 := rfl
@[simp] theorem State.writeback_mul2 (u : MicroOp) : (s.writeback u).mul2 = s.mul2 := rfl
@[simp] theorem State.writeback_mul3 (u : MicroOp) : (s.writeback u).mul3 = s.mul3 := rfl
@[simp] theorem State.writeback_mem1 (u : MicroOp) : (s.writeback u).mem1 = s.mem1 := rfl
@[simp] theorem State.writeback_mem2 (u : MicroOp) : (s.writeback u).mem2 = s.mem2 := rfl
@[simp] theorem State.writeback_mem3 (u : MicroOp) : (s.writeback u).mem3 = s.mem3 := rfl
@[simp] theorem State.writeback_ret (u : MicroOp) : (s.writeback u).ret = s.ret := rfl
@[simp] theorem State.writeback_haltFetch (u : MicroOp) :
    (s.writeback u).haltFetch = s.haltFetch := rfl
@[simp] theorem State.writeback_halted (u : MicroOp) : (s.writeback u).halted = s.halted := rfl
@[simp] theorem State.writeback_completed (u : MicroOp) :
    (s.writeback u).completed = s.completed := rfl
@[simp] theorem State.writeback_cycle (u : MicroOp) : (s.writeback u).cycle = s.cycle := rfl
@[simp] theorem State.writeback_fault (u : MicroOp) : (s.writeback u).fault = s.fault := rfl
@[simp] theorem State.writeback_mem (u : MicroOp) : (s.writeback u).mem = s.mem := rfl

/-! ### `State.memStore` -/

@[simp] theorem State.memStore_launch (u : MicroOp) : (s.memStore u).launch = s.launch := rfl
@[simp] theorem State.memStore_pc (u : MicroOp) : (s.memStore u).pc = s.pc := rfl
@[simp] theorem State.memStore_regs (u : MicroOp) : (s.memStore u).regs = s.regs := rfl
@[simp] theorem State.memStore_z (u : MicroOp) : (s.memStore u).z = s.z := rfl
@[simp] theorem State.memStore_f (u : MicroOp) : (s.memStore u).f = s.f := rfl
@[simp] theorem State.memStore_d (u : MicroOp) : (s.memStore u).d = s.d := rfl
@[simp] theorem State.memStore_iq (u : MicroOp) : (s.memStore u).iq = s.iq := rfl
@[simp] theorem State.memStore_lsq (u : MicroOp) : (s.memStore u).lsq = s.lsq := rfl
@[simp] theorem State.memStore_rob (u : MicroOp) :
    (s.memStore u).rob = s.rob.setComplete u.rob := rfl
@[simp] theorem State.memStore_int1 (u : MicroOp) : (s.memStore u).int1 = s.int1 := rfl
@[simp] theorem State.memStore_int2 (u : MicroOp) : (s.memStore u).int2 = s.int2 := rfl
@[simp] theorem State.memStore_mul1 (u : MicroOp) : (s.memStore u).mul1 = s.mul1 := rfl
@[simp] theorem State.memStore_mul2 (u : MicroOp) : (s.memStore u).mul2 = s.mul2 := rfl
@[simp] theorem State.memStore_mul3 (u : MicroOp) : (s.memStore u).mul3 = s.mul3 := rfl
@[simp] theorem State.memStore_mem1 (u : MicroOp) : (s.memStore u).mem1 = s.mem1 := rfl
@[simp] theorem State.memStore_mem2 (u : MicroOp) : (s.memStore u).mem2 = s.mem2 := rfl
@[simp] theorem State.memStore_mem3 (u : MicroOp) : (s.memStore u).mem3 = s.mem3 := rfl
@[simp] theorem State.memStore_ret (u : MicroOp) : (s.memStore u).ret = s.ret := rfl
@[simp] theorem State.memStore_haltFetch (u : MicroOp) :
    (s.memStore u).haltFetch = s.haltFetch := rfl
@[simp] theorem State.memStore_halted (u : MicroOp) : (s.memStore u).halted = s.halted := rfl
@[simp] theorem State.memStore_completed (u : MicroOp) :
    (s.memStore u).completed = s.completed := rfl
@[simp] theorem State.memStore_cycle (u : MicroOp) : (s.memStore u).cycle = s.cycle := rfl
@[simp] theorem State.memStore_fault (u : MicroOp) : (s.memStore u).fault = s.fault := rfl
@[simp] theorem State.memStore_mem (u : MicroOp) :
    (s.memStore u).mem = memWrite s.mem u.ea.toNat u.d := rfl

/-! ### `State.retireEntry` -/

@[simp] theorem State.retireEntry_launch (e : RobEntry) : (s.retireEntry e).launch = s.launch := rfl
@[simp] theorem State.retireEntry_pc (e : RobEntry) : (s.retireEntry e).pc = s.pc := rfl
@[simp] theorem State.retireEntry_regs (e : RobEntry) : (s.retireEntry e).regs = s.regs := rfl
@[simp] theorem State.retireEntry_z (e : RobEntry) : (s.retireEntry e).z = s.z := rfl
@[simp] theorem State.retireEntry_f (e : RobEntry) : (s.retireEntry e).f = s.f := rfl
@[simp] theorem State.retireEntry_d (e : RobEntry) : (s.retireEntry e).d = s.d := rfl
@[simp] theorem State.retireEntry_iq (e : RobEntry) : (s.retireEntry e).iq = s.iq := rfl
@[simp] theorem State.retireEntry_lsq (e : RobEntry) : (s.retireEntry e).lsq = s.lsq := rfl
@[simp] theorem State.retireEntry_rob (e : RobEntry) :
    (s.retireEntry e).rob = s.rob.pop s.launch.robSize := rfl
@[simp] theorem State.retireEntry_int1 (e : RobEntry) : (s.retireEntry e).int1 = s.int1 := rfl
@[simp] theorem State.retireEntry_int2 (e : RobEntry) : (s.retireEntry e).int2 = s.int2 := rfl
@[simp] theorem State.retireEntry_mul1 (e : RobEntry) : (s.retireEntry e).mul1 = s.mul1 := rfl
@[simp] theorem State.retireEntry_mul2 (e : RobEntry) : (s.retireEntry e).mul2 = s.mul2 := rfl
@[simp] theorem State.retireEntry_mul3 (e : RobEntry) : (s.retireEntry e).mul3 = s.mul3 := rfl
@[simp] theorem State.retireEntry_mem1 (e : RobEntry) : (s.retireEntry e).mem1 = s.mem1 := rfl
@[simp] theorem State.retireEntry_mem2 (e : RobEntry) : (s.retireEntry e).mem2 = s.mem2 := rfl
@[simp] theorem State.retireEntry_mem3 (e : RobEntry) : (s.retireEntry e).mem3 = s.mem3 := rfl
@[simp] theorem State.retireEntry_ret (e : RobEntry) :
    (s.retireEntry e).ret = some { pc := e.pc, op := e.op } := rfl
@[simp] theorem State.retireEntry_haltFetch (e : RobEntry) :
    (s.retireEntry e).haltFetch = s.haltFetch := rfl
@[simp] theorem State.retireEntry_halted (e : RobEntry) :
    (s.retireEntry e).halted = (s.halted || decide (e.op = .halt)) := rfl
@[simp] theorem State.retireEntry_completed (e : RobEntry) :
    (s.retireEntry e).completed = s.completed + 1 := rfl
@[simp] theorem State.retireEntry_cycle (e : RobEntry) : (s.retireEntry e).cycle = s.cycle := rfl
@[simp] theorem State.retireEntry_fault (e : RobEntry) : (s.retireEntry e).fault = s.fault := rfl
@[simp] theorem State.retireEntry_mem (e : RobEntry) : (s.retireEntry e).mem = s.mem := rfl

/-! ### `State.handOff` -/

@[simp] theorem State.handOff_launch : (s.handOff).launch = s.launch := rfl
@[simp] theorem State.handOff_pc : (s.handOff).pc = s.pc := rfl
@[simp] theorem State.handOff_regs : (s.handOff).regs = s.regs := rfl
@[simp] theorem State.handOff_z : (s.handOff).z = s.z := rfl
@[simp] theorem State.handOff_f : (s.handOff).f = s.f.clear := rfl
@[simp] theorem State.handOff_d : (s.handOff).d = FrontLatch.fill s.f.pc s.f.word := rfl
@[simp] theorem State.handOff_iq : (s.handOff).iq = s.iq := rfl
@[simp] theorem State.handOff_lsq : (s.handOff).lsq = s.lsq := rfl
@[simp] theorem State.handOff_rob : (s.handOff).rob = s.rob := rfl
@[simp] theorem State.handOff_int1 : (s.handOff).int1 = s.int1 := rfl
@[simp] theorem State.handOff_int2 : (s.handOff).int2 = s.int2 := rfl
@[simp] theorem State.handOff_mul1 : (s.handOff).mul1 = s.mul1 := rfl
@[simp] theorem State.handOff_mul2 : (s.handOff).mul2 = s.mul2 := rfl
@[simp] theorem State.handOff_mul3 : (s.handOff).mul3 = s.mul3 := rfl
@[simp] theorem State.handOff_mem1 : (s.handOff).mem1 = s.mem1 := rfl
@[simp] theorem State.handOff_mem2 : (s.handOff).mem2 = s.mem2 := rfl
@[simp] theorem State.handOff_mem3 : (s.handOff).mem3 = s.mem3 := rfl
@[simp] theorem State.handOff_ret : (s.handOff).ret = s.ret := rfl
@[simp] theorem State.handOff_haltFetch : (s.handOff).haltFetch = s.haltFetch := rfl
@[simp] theorem State.handOff_halted : (s.handOff).halted = s.halted := rfl
@[simp] theorem State.handOff_completed : (s.handOff).completed = s.completed := rfl
@[simp] theorem State.handOff_cycle : (s.handOff).cycle = s.cycle := rfl
@[simp] theorem State.handOff_fault : (s.handOff).fault = s.fault := rfl
@[simp] theorem State.handOff_mem : (s.handOff).mem = s.mem := rfl

/-! ### `State.stallFetch` -/

@[simp] theorem State.stallFetch_launch : (s.stallFetch).launch = s.launch := rfl
@[simp] theorem State.stallFetch_pc : (s.stallFetch).pc = s.pc := rfl
@[simp] theorem State.stallFetch_regs : (s.stallFetch).regs = s.regs := rfl
@[simp] theorem State.stallFetch_z : (s.stallFetch).z = s.z := rfl
@[simp] theorem State.stallFetch_f : (s.stallFetch).f = { s.f with stalled := true } := rfl
@[simp] theorem State.stallFetch_d : (s.stallFetch).d = s.d := rfl
@[simp] theorem State.stallFetch_iq : (s.stallFetch).iq = s.iq := rfl
@[simp] theorem State.stallFetch_lsq : (s.stallFetch).lsq = s.lsq := rfl
@[simp] theorem State.stallFetch_rob : (s.stallFetch).rob = s.rob := rfl
@[simp] theorem State.stallFetch_int1 : (s.stallFetch).int1 = s.int1 := rfl
@[simp] theorem State.stallFetch_int2 : (s.stallFetch).int2 = s.int2 := rfl
@[simp] theorem State.stallFetch_mul1 : (s.stallFetch).mul1 = s.mul1 := rfl
@[simp] theorem State.stallFetch_mul2 : (s.stallFetch).mul2 = s.mul2 := rfl
@[simp] theorem State.stallFetch_mul3 : (s.stallFetch).mul3 = s.mul3 := rfl
@[simp] theorem State.stallFetch_mem1 : (s.stallFetch).mem1 = s.mem1 := rfl
@[simp] theorem State.stallFetch_mem2 : (s.stallFetch).mem2 = s.mem2 := rfl
@[simp] theorem State.stallFetch_mem3 : (s.stallFetch).mem3 = s.mem3 := rfl
@[simp] theorem State.stallFetch_ret : (s.stallFetch).ret = s.ret := rfl
@[simp] theorem State.stallFetch_haltFetch : (s.stallFetch).haltFetch = s.haltFetch := rfl
@[simp] theorem State.stallFetch_halted : (s.stallFetch).halted = s.halted := rfl
@[simp] theorem State.stallFetch_completed : (s.stallFetch).completed = s.completed := rfl
@[simp] theorem State.stallFetch_cycle : (s.stallFetch).cycle = s.cycle := rfl
@[simp] theorem State.stallFetch_fault : (s.stallFetch).fault = s.fault := rfl
@[simp] theorem State.stallFetch_mem : (s.stallFetch).mem = s.mem := rfl

/-! ### `State.unstallFetch` -/

@[simp] theorem State.unstallFetch_launch : (s.unstallFetch).launch = s.launch := rfl
@[simp] theorem State.unstallFetch_pc : (s.unstallFetch).pc = s.pc := rfl
@[simp] theorem State.unstallFetch_regs : (s.unstallFetch).regs = s.regs := rfl
@[simp] theorem State.unstallFetch_z : (s.unstallFetch).z = s.z := rfl
@[simp] theorem State.unstallFetch_f : (s.unstallFetch).f = { s.f with stalled := false } := rfl
@[simp] theorem State.unstallFetch_d : (s.unstallFetch).d = s.d := rfl
@[simp] theorem State.unstallFetch_iq : (s.unstallFetch).iq = s.iq := rfl
@[simp] theorem State.unstallFetch_lsq : (s.unstallFetch).lsq = s.lsq := rfl
@[simp] theorem State.unstallFetch_rob : (s.unstallFetch).rob = s.rob := rfl
@[simp] theorem State.unstallFetch_int1 : (s.unstallFetch).int1 = s.int1 := rfl
@[simp] theorem State.unstallFetch_int2 : (s.unstallFetch).int2 = s.int2 := rfl
@[simp] theorem State.unstallFetch_mul1 : (s.unstallFetch).mul1 = s.mul1 := rfl
@[simp] theorem State.unstallFetch_mul2 : (s.unstallFetch).mul2 = s.mul2 := rfl
@[simp] theorem State.unstallFetch_mul3 : (s.unstallFetch).mul3 = s.mul3 := rfl
@[simp] theorem State.unstallFetch_mem1 : (s.unstallFetch).mem1 = s.mem1 := rfl
@[simp] theorem State.unstallFetch_mem2 : (s.unstallFetch).mem2 = s.mem2 := rfl
@[simp] theorem State.unstallFetch_mem3 : (s.unstallFetch).mem3 = s.mem3 := rfl
@[simp] theorem State.unstallFetch_ret : (s.unstallFetch).ret = s.ret := rfl
@[simp] theorem State.unstallFetch_haltFetch : (s.unstallFetch).haltFetch = s.haltFetch := rfl
@[simp] theorem State.unstallFetch_halted : (s.unstallFetch).halted = s.halted := rfl
@[simp] theorem State.unstallFetch_completed : (s.unstallFetch).completed = s.completed := rfl
@[simp] theorem State.unstallFetch_cycle : (s.unstallFetch).cycle = s.cycle := rfl
@[simp] theorem State.unstallFetch_fault : (s.unstallFetch).fault = s.fault := rfl
@[simp] theorem State.unstallFetch_mem : (s.unstallFetch).mem = s.mem := rfl

/-! ### `State.fetched` -/

@[simp] theorem State.fetched_launch (w : Record) : (s.fetched w).launch = s.launch := rfl
@[simp] theorem State.fetched_pc (w : Record) : (s.fetched w).pc = s.pc + 4 := rfl
@[simp] theorem State.fetched_regs (w : Record) : (s.fetched w).regs = s.regs := rfl
@[simp] theorem State.fetched_z (w : Record) : (s.fetched w).z = s.z := rfl
@[simp] theorem State.fetched_f (w : Record) : (s.fetched w).f = FrontLatch.fill s.pc w := rfl
@[simp] theorem State.fetched_d (w : Record) : (s.fetched w).d = s.d := rfl
@[simp] theorem State.fetched_iq (w : Record) : (s.fetched w).iq = s.iq := rfl
@[simp] theorem State.fetched_lsq (w : Record) : (s.fetched w).lsq = s.lsq := rfl
@[simp] theorem State.fetched_rob (w : Record) : (s.fetched w).rob = s.rob := rfl
@[simp] theorem State.fetched_int1 (w : Record) : (s.fetched w).int1 = s.int1 := rfl
@[simp] theorem State.fetched_int2 (w : Record) : (s.fetched w).int2 = s.int2 := rfl
@[simp] theorem State.fetched_mul1 (w : Record) : (s.fetched w).mul1 = s.mul1 := rfl
@[simp] theorem State.fetched_mul2 (w : Record) : (s.fetched w).mul2 = s.mul2 := rfl
@[simp] theorem State.fetched_mul3 (w : Record) : (s.fetched w).mul3 = s.mul3 := rfl
@[simp] theorem State.fetched_mem1 (w : Record) : (s.fetched w).mem1 = s.mem1 := rfl
@[simp] theorem State.fetched_mem2 (w : Record) : (s.fetched w).mem2 = s.mem2 := rfl
@[simp] theorem State.fetched_mem3 (w : Record) : (s.fetched w).mem3 = s.mem3 := rfl
@[simp] theorem State.fetched_ret (w : Record) : (s.fetched w).ret = s.ret := rfl
@[simp] theorem State.fetched_haltFetch (w : Record) : (s.fetched w).haltFetch = s.haltFetch := rfl
@[simp] theorem State.fetched_halted (w : Record) : (s.fetched w).halted = s.halted := rfl
@[simp] theorem State.fetched_completed (w : Record) : (s.fetched w).completed = s.completed := rfl
@[simp] theorem State.fetched_cycle (w : Record) : (s.fetched w).cycle = s.cycle := rfl
@[simp] theorem State.fetched_fault (w : Record) : (s.fetched w).fault = s.fault := rfl
@[simp] theorem State.fetched_mem (w : Record) : (s.fetched w).mem = s.mem := rfl

/-! ### `State.withFetched` -/

@[simp] theorem State.withFetched_launch (w : Record) :
    (s.withFetched w).launch =
      { s.launch with code := placeRecord s.launch.code (codeIndex s.launch s.pc) w } := rfl
@[simp] theorem State.withFetched_pc (w : Record) : (s.withFetched w).pc = s.pc + 4 := rfl
@[simp] theorem State.withFetched_regs (w : Record) : (s.withFetched w).regs = s.regs := rfl
@[simp] theorem State.withFetched_z (w : Record) : (s.withFetched w).z = s.z := rfl
@[simp] theorem State.withFetched_f (w : Record) : (s.withFetched w).f = s.f := rfl
@[simp] theorem State.withFetched_d (w : Record) :
    (s.withFetched w).d = FrontLatch.fill s.pc w := rfl
@[simp] theorem State.withFetched_iq (w : Record) : (s.withFetched w).iq = s.iq := rfl
@[simp] theorem State.withFetched_lsq (w : Record) : (s.withFetched w).lsq = s.lsq := rfl
@[simp] theorem State.withFetched_rob (w : Record) : (s.withFetched w).rob = s.rob := rfl
@[simp] theorem State.withFetched_int1 (w : Record) : (s.withFetched w).int1 = s.int1 := rfl
@[simp] theorem State.withFetched_int2 (w : Record) : (s.withFetched w).int2 = s.int2 := rfl
@[simp] theorem State.withFetched_mul1 (w : Record) : (s.withFetched w).mul1 = s.mul1 := rfl
@[simp] theorem State.withFetched_mul2 (w : Record) : (s.withFetched w).mul2 = s.mul2 := rfl
@[simp] theorem State.withFetched_mul3 (w : Record) : (s.withFetched w).mul3 = s.mul3 := rfl
@[simp] theorem State.withFetched_mem1 (w : Record) : (s.withFetched w).mem1 = s.mem1 := rfl
@[simp] theorem State.withFetched_mem2 (w : Record) : (s.withFetched w).mem2 = s.mem2 := rfl
@[simp] theorem State.withFetched_mem3 (w : Record) : (s.withFetched w).mem3 = s.mem3 := rfl
@[simp] theorem State.withFetched_ret (w : Record) : (s.withFetched w).ret = s.ret := rfl
@[simp] theorem State.withFetched_haltFetch (w : Record) :
    (s.withFetched w).haltFetch = s.haltFetch := rfl
@[simp] theorem State.withFetched_halted (w : Record) : (s.withFetched w).halted = s.halted := rfl
@[simp] theorem State.withFetched_completed (w : Record) :
    (s.withFetched w).completed = s.completed := rfl
@[simp] theorem State.withFetched_cycle (w : Record) : (s.withFetched w).cycle = s.cycle := rfl
@[simp] theorem State.withFetched_fault (w : Record) : (s.withFetched w).fault = s.fault := rfl
@[simp] theorem State.withFetched_mem (w : Record) : (s.withFetched w).mem = s.mem := rfl

end Sys2Proof.Machine
end

