-- ==== Sys2Proof/Laws/Ops.lean ====
section
/-! SUPPORT. The named operations: what an entry, a cell or a queue holds after each (spec/10_state.md R31,
spec/20_memory.md R62, spec/40_pipeline.md R121 to R124). -/

namespace Sys2Proof.Machine

/-! ### Scoreboard -/

theorem Scoreboard.entry_put (sb : Scoreboard) (r q : RegNum) (e : RegEntry) :
    (sb.put r e).entry q = if r = q then e else sb.entry q := by
  unfold Scoreboard.entry Scoreboard.put
  rw [Vector.getElem_set]
  simp [BitVec.toNat_inj]

theorem Scoreboard.entry_invalidate (sb : Scoreboard) (r q : RegNum) (k : Nat) :
    (sb.invalidate r k).entry q =
      if r = q then { sb.entry q with valid := false, tag := k } else sb.entry q := by
  unfold Scoreboard.invalidate
  rw [Scoreboard.entry_put]
  split
  · next h => subst h; rfl
  · rfl

/-- Scoreboards that agree on every entry are equal. -/
theorem Scoreboard.ext_entry {a b : Scoreboard} (h : ∀ r, a.entry r = b.entry r) : a = b := by
  apply Vector.ext
  intro k hk
  have := h (BitVec.ofNat 5 k)
  unfold Scoreboard.entry at this
  have hm : (BitVec.ofNat 5 k).toNat = k := by simp; omega
  simpa [hm] using this

theorem Scoreboard.entry_writeback (sb : Scoreboard) (r q : RegNum) (v : Word) (k : Nat) :
    (sb.writeback r v k).entry q =
      if r = q ∧ (sb.entry q).tag = k ∧ (sb.entry q).valid = false then
        { sb.entry q with value := v, valid := true }
      else sb.entry q := by
  unfold Scoreboard.writeback
  by_cases hq : r = q
  · subst hq
    split <;> simp_all [Scoreboard.entry_put]
  · split <;> simp [Scoreboard.entry_put, hq]

theorem reset_entry (l : Launch) (r : RegNum) :
    (State.resetFrom l).regs.entry r = RegEntry.reset (l.regInit[r.toNat]'r.isLt) := by
  simp [State.resetFrom, Scoreboard.entry]

/-! ### Data memory -/

theorem cellList_mem {a : Nat} {v : Word} {c : Nat × Word} (h : c ∈ cellList a v) :
    c = (a, v) ∧ v ≠ Memory.unlisted := by
  unfold cellList at h
  split at h <;> simp_all

/-- What a write leaves listed: the written cell, or a cell that was listed at another index. -/
theorem mem_memWrite {m : Memory} {a : Nat} {v : Word} {c : Nat × Word}
    (h : c ∈ memWrite m a v) : c = (a, v) ∧ v ≠ Memory.unlisted ∨ c ∈ m := by
  induction m with
  | nil => exact .inl (cellList_mem h)
  | cons x t ih =>
    obtain ⟨b, w⟩ := x
    unfold memWrite at h
    split at h
    · rcases List.mem_append.mp h with h | h
      · exact .inl (cellList_mem h)
      · exact .inr h
    · split at h
      · rcases List.mem_append.mp h with h | h
        · exact .inl (cellList_mem h)
        · exact .inr (List.mem_cons_of_mem _ h)
      · rcases List.mem_cons.mp h with h | h
        · exact .inr (h ▸ List.mem_cons_self)
        · rcases ih h with h | h
          · exact .inl h
          · exact .inr (List.mem_cons_of_mem _ h)

/-- A write keeps the canonical form. -/
theorem memWrite_wf {m : Memory} (hm : m.wf) (a : Nat) (v : Word) : (memWrite m a v).wf := by
  refine ⟨?_, fun c hc => ?_⟩
  · have hp := hm.1
    clear hm
    induction m with
    | nil => unfold memWrite cellList; split <;> simp
    | cons x t ih =>
      obtain ⟨b, w⟩ := x
      have ⟨hb, ht⟩ := List.pairwise_cons.mp hp
      unfold memWrite
      split
      · unfold cellList
        split
        · simpa using hp
        · refine List.pairwise_cons.mpr ⟨fun c hc => ?_, by simpa using hp⟩
          rcases List.mem_cons.mp (by simpa using hc) with rfl | hc
          · assumption
          · have := hb c hc; simp at this ⊢; omega
      · split
        · next h =>
          subst h
          unfold cellList
          split
          · simpa using ht
          · exact List.pairwise_cons.mpr ⟨fun c hc => hb c (by simpa using hc), by simpa using ht⟩
        · refine List.pairwise_cons.mpr ⟨fun c hc => ?_, ih ht⟩
          rcases mem_memWrite hc with ⟨rfl, -⟩ | hc
          · simp; omega
          · exact hb c hc
  · rcases mem_memWrite hc with ⟨rfl, h⟩ | h
    · exact h
    · exact hm.2 c h

/-! ### Queues -/

@[simp] theorem queued_nil : queued [] = [] := rfl
@[simp] theorem queued_none (q : List (Option QueueEntry)) : queued (none :: q) = queued q := rfl
@[simp] theorem queued_some (e : QueueEntry) (q : List (Option QueueEntry)) :
    queued (some e :: q) = e.u :: queued q := rfl

theorem mem_occupied {q : List (Option QueueEntry)} {e : QueueEntry} :
    e ∈ occupied q ↔ some e ∈ q := by
  simp [occupied]

theorem mem_queued {q : List (Option QueueEntry)} {u : MicroOp} :
    u ∈ queued q ↔ ∃ e, some e ∈ q ∧ e.u = u := by
  simp [queued, mem_occupied]

theorem queued_eq_nil {q : List (Option QueueEntry)} : queued q = [] ↔ ∀ x ∈ q, x = none := by
  induction q with
  | nil => simp
  | cons x t ih => cases x <;> simp [ih]

@[simp] theorem queued_replicate_none (n : Nat) : queued (List.replicate n none) = [] :=
  queued_eq_nil.mpr fun _ h => List.eq_of_mem_replicate h

@[simp] theorem IssueQueue.length_insert (q : IssueQueue) (u : MicroOp) :
    (q.insert u).length = q.length := by
  induction q with
  | nil => rfl
  | cons x t ih => cases x <;> simp [IssueQueue.insert, ih]

theorem IssueQueue.mem_insert {q : IssueQueue} {u : MicroOp} {e : QueueEntry}
    (h : some e ∈ q.insert u) : e = { ready := true, u := u } ∨ some e ∈ q := by
  induction q with
  | nil => simp [IssueQueue.insert] at h
  | cons x t ih =>
    cases x with
    | none => simp [IssueQueue.insert] at h; rcases h with h | h <;> simp [h]
    | some y =>
      simp [IssueQueue.insert] at h
      rcases h with h | h
      · simp [h]
      · rcases ih h with h | h <;> simp [h]

/-- Inserting into an empty queue that has a slot leaves exactly the inserted record. -/
theorem IssueQueue.queued_insert {q : IssueQueue} (hq : queued q = []) (hf : q.hasFree = true)
    (u : MicroOp) : queued (q.insert u) = [u] := by
  cases q with
  | nil => simp [IssueQueue.hasFree] at hf
  | cons x t =>
    cases x with
    | none => simpa [IssueQueue.insert] using hq
    | some y => simp at hq

theorem queued_set_none {q : List (Option QueueEntry)} {k : Nat} {e : QueueEntry}
    (h : q[k]? = some (some e)) (h1 : (queued q).length ≤ 1) :
    queued q = [e.u] ∧ queued (q.set k none) = [] := by
  induction q generalizing k with
  | nil => simp at h
  | cons x t ih =>
    cases k with
    | zero =>
      simp at h; subst h
      simp at h1
      simpa using h1
    | succ k =>
      cases x with
      | none => simpa using ih (by simpa using h) (by simpa using h1)
      | some y =>
        simp at h1 h
        have := mem_queued.mpr ⟨e, List.mem_of_getElem? h, rfl⟩
        simp [h1] at this

theorem IssueQueue.oldest_spec {fu : FuncUnit} {age : Nat → Nat} {q : IssueQueue} {n k : Nat}
    {u : MicroOp} (h : q.oldest fu age n = some (k, u)) :
    ∃ e, n ≤ k ∧ q[k - n]? = some (some e) ∧ e.u = u ∧ e.candidate fu = true := by
  induction q generalizing n with
  | nil => simp [IssueQueue.oldest] at h
  | cons x t ih =>
    have step : ∀ {h' : IssueQueue.oldest fu age t (n + 1) = some (k, u)},
        ∃ e, n ≤ k ∧ (x :: t)[k - n]? = some (some e) ∧ e.u = u ∧ e.candidate fu = true := by
      intro h'
      obtain ⟨e, hk, he, hu⟩ := ih h'
      refine ⟨e, by omega, ?_, hu⟩
      have : k - n = (k - (n + 1)) + 1 := by omega
      rw [this, List.getElem?_cons_succ]; exact he
    cases x with
    | none => exact step (h' := by simpa [IssueQueue.oldest] using h)
    | some y =>
      unfold IssueQueue.oldest at h
      split at h
      · next hc =>
        split at h
        · simp at h; obtain ⟨rfl, rfl⟩ := h; exact ⟨y, by simp, by simp, rfl, hc⟩
        · next best hb =>
          split at h
          · simp at h; subst h; exact step (h' := hb)
          · simp at h; obtain ⟨rfl, rfl⟩ := h; exact ⟨y, by simp, by simp, rfl, hc⟩
      · exact step (h' := h)

theorem IssueQueue.oldest_none {fu : FuncUnit} {age : Nat → Nat} {q : IssueQueue} {n : Nat}
    (h : q.oldest fu age n = none) : ∀ e, some e ∈ q → e.candidate fu = false := by
  induction q generalizing n with
  | nil => simp
  | cons x t ih =>
    cases x with
    | none => simpa [IssueQueue.oldest] using ih (by simpa [IssueQueue.oldest] using h)
    | some y =>
      unfold IssueQueue.oldest at h
      split at h
      · split at h
        · simp at h
        · split at h <;> simp at h
      · next hc =>
        intro e he
        rcases List.mem_cons.mp he with he | he
        · simp at he; subst he; simpa using hc
        · exact ih h e he

end Sys2Proof.Machine
end

