-- ==== Sys2Proof/Laws/Rings.lean ====
section
/-! SUPPORT. The rings of spec/10_state.md R38 and R39: ages, and what a push or a pop keeps. -/

namespace Sys2Proof.Machine

theorem ringAge_eq {size head k : Nat} (hh : head < size) (hk : k < size) :
    ringAge size head k = if head ≤ k then k - head else k + size - head := by
  unfold ringAge
  split
  · rw [Int.emod_eq_of_lt (by omega) (by omega)]; omega
  · rw [← Int.add_emod_right, Int.emod_eq_of_lt (by omega) (by omega)]; omega

theorem next_eq {size k : Nat} (hk : k < size) :
    (k + 1) % size = if k + 1 = size then 0 else k + 1 := by
  split
  · next h => simp [h]
  · exact Nat.mod_eq_of_lt (by omega)

theorem wrap_eq {size head count : Nat} (hh : head < size) (hc : count ≤ size) :
    (head + count) % size = if head + count < size then head + count else head + count - size := by
  split
  · exact Nat.mod_eq_of_lt ‹_›
  · rw [Nat.mod_eq_sub_mod (by omega), Nat.mod_eq_of_lt (by omega)]

variable {α : Type} {entries : List (Option α)} {head tail count size : Nat}

theorem RingInv.tail_lt (h : RingInv entries head tail count size) : tail < size := by
  rw [h.tail_eq]; exact Nat.mod_lt _ (by have := h.head_lt; omega)

/-- The tail of a ring that is not full lies `count` places behind the head, so it is free. -/
theorem RingInv.age_tail (h : RingInv entries head tail count size) (hc : count < size) :
    ringAge size head tail = count := by
  rw [ringAge_eq h.head_lt h.tail_lt]
  have := h.tail_eq
  rw [wrap_eq h.head_lt h.count_le] at this
  have := h.head_lt
  split at * <;> split <;> omega

theorem ringAge_head (hh : head < size) : ringAge size head head = 0 := by
  rw [ringAge_eq hh hh]; simp

theorem ringAge_next {k : Nat} (hh : head < size) (hk : k < size) (hne : k ≠ head) :
    ringAge size ((head + 1) % size) k + 1 = ringAge size head k := by
  rw [next_eq hh, ringAge_eq (by split <;> omega) hk, ringAge_eq hh hk]
  split <;> split <;> split <;> omega

theorem ringAge_inj {k j : Nat} (hh : head < size) (hk : k < size) (hj : j < size)
    (h : ringAge size head k = ringAge size head j) : k = j := by
  rw [ringAge_eq hh hk, ringAge_eq hh hj] at h
  split at h <;> split at h <;> omega

theorem RingInv.push (h : RingInv entries head tail count size) (hc : count < size) (x : α) :
    RingInv (entries.set tail (some x)) head ((tail + 1) % size) (count + 1) size where
  length := by simp [h.length]
  head_lt := h.head_lt
  count_le := hc
  tail_eq := by rw [h.tail_eq]; simp [Nat.add_assoc]
  filled := by
    intro k hk
    have ha := h.age_tail hc
    have ho := h.filled k hk
    have ht := h.tail_lt
    by_cases hkt : k = tail
    · subst hkt
      simp [List.getD_eq_getElem?_getD, h.length, hk, ha]
    · rw [List.getD_eq_getElem?_getD, List.getElem?_set_ne (Ne.symm hkt), ← List.getD_eq_getElem?_getD, ho]
      have : ringAge size head k ≠ count := by
        rw [← ha]; exact fun e => hkt (ringAge_inj h.head_lt hk ht e)
      omega

theorem RingInv.pop (h : RingInv entries head tail count size) (hc : 0 < count) :
    RingInv (entries.set head none) ((head + 1) % size) tail (count - 1) size where
  length := by simp [h.length]
  head_lt := Nat.mod_lt _ (by have := h.head_lt; omega)
  count_le := by have := h.count_le; omega
  tail_eq := by
    rw [h.tail_eq]; simp; congr 1; omega
  filled := by
    intro k hk
    have hh := h.head_lt
    have ho := h.filled k hk
    by_cases hkh : k = head
    · subst hkh
      have hs : ringAge size ((k + 1) % size) k = size - 1 := by
        rw [next_eq hk, ringAge_eq (by split <;> omega) hk]
        split <;> split <;> omega
      have := h.count_le
      simp [List.getD_eq_getElem?_getD, h.length, hk, hs]
      omega
    · rw [List.getD_eq_getElem?_getD, List.getElem?_set_ne (Ne.symm hkh), ← List.getD_eq_getElem?_getD, ho]
      have := ringAge_next hh hk hkh
      omega

/-- The head of a ring that is not empty is occupied. -/
theorem RingInv.head_some (h : RingInv entries head tail count size) (hc : 0 < count) :
    ∃ x, entries[head]? = some (some x) := by
  have := (h.filled head h.head_lt).mpr (by rw [ringAge_head h.head_lt]; exact hc)
  rw [List.getD_eq_getElem?_getD] at this
  cases hx : entries[head]? with
  | none => simp [hx] at this
  | some o => cases o with
    | none => simp [hx] at this
    | some x => exact ⟨x, rfl⟩

/-- An empty ring holds nothing. -/
theorem RingInv.empty (h : RingInv entries head tail count size) (hc : count = 0) :
    ∀ x ∈ entries, x = none := by
  intro x hx
  obtain ⟨k, hk, rfl⟩ := List.mem_iff_getElem.mp hx
  have := h.filled k (h.length ▸ hk)
  simp [List.getD_eq_getElem?_getD, hk, hc] at this
  exact this

/-- A ring that holds nothing has count 0. -/
theorem RingInv.count_zero (h : RingInv entries head tail count size)
    (hn : ∀ x ∈ entries, x = none) : count = 0 := by
  by_contra hc
  obtain ⟨x, hx⟩ := h.head_some (by omega)
  exact absurd (hn _ (List.mem_of_getElem? hx)) (by simp)

theorem RingInv.reset (hs : 1 ≤ size) :
    RingInv (List.replicate size (none : Option α)) 0 0 0 size where
  length := by simp
  head_lt := hs
  count_le := by omega
  tail_eq := by simp
  filled := by
    intro k hk
    simp [List.getD_eq_getElem?_getD, hk]

end Sys2Proof.Machine
end

