-- ==== Sys2Proof/Laws/InFlight.lean ====
section
/-! SUPPORT. What a dispatch, a writeback and a retirement do to the ROB and the scoreboard, seen from the
list of in-flight records (spec/40_pipeline.md R117, R118, R132, R140 to R142). -/

namespace Sys2Proof.Machine

/-- What the ROB and the scoreboard are matched by: nothing of a record that a stage changes. -/
def MicroOp.key (u : MicroOp) : Opcode × Word × RegNum × Nat := (u.op, u.pc, u.rd, u.rob)

/-- `RobInv` and `ScoreboardInv` over any list of in-flight records, youngest first. -/
structure Tracks (L : List MicroOp) (q : ReorderBuffer) (size : Nat) (sb : Scoreboard)
    (z : ZEntry) : Prop where
  ring : RingInv q.entries q.head q.tail q.count size
  tracked : ∀ u ∈ L, ∃ rd, q.at? u.rob = some (u.robEntry rd) ∧ (hasDest u.op = true → rd = u.rd)
  ordered : L.Pairwise fun y o => q.age size o.rob < q.age size y.rob
  pending : ∀ k e, q.at? k = some e → e.complete = false → ∃ u ∈ L, u.rob = k
  free : ∀ i, L.find? (fun u => u.writes i) = none → (sb.entry i).valid = true
  held : ∀ i u, L.find? (fun u => u.writes i) = some u →
    (sb.entry i).valid = false ∧ (sb.entry i).tag = u.rob
  z_free : L.find? (fun u => setsZ u.op) = none → z.valid = true
  z_held : ∀ u, L.find? (fun u => setsZ u.op) = some u → z.valid = false ∧ z.tag = u.rob

/-- An occupied ROB entry has an index of the ring. -/
theorem at?_lt {q : ReorderBuffer} {size k : Nat} {e : RobEntry}
    (h : RingInv q.entries q.head q.tail q.count size) (he : q.at? k = some e) : k < size := by
  by_contra hk
  have : q.entries[k]? = none := by simp [h.length]; omega
  simp [ReorderBuffer.at?, this] at he

theorem tracks_iff (s : State) :
    Tracks s.inFlight s.rob s.launch.robSize s.regs s.z ↔ RobInv s ∧ ScoreboardInv s :=
  ⟨fun h => ⟨⟨h.ring, h.tracked, h.ordered, fun k _ => h.pending k⟩,
      ⟨h.free, h.held, h.z_free, h.z_held⟩⟩,
   fun ⟨r, c⟩ => ⟨r.ring, r.tracked, r.ordered, fun k e he => r.pending k (at?_lt r.ring he) e he,
      c.free, c.held, c.z_free, c.z_held⟩⟩

variable {L L' : List MicroOp} {q : ReorderBuffer} {size : Nat} {sb : Scoreboard} {z : ZEntry}

theorem find_congr {p p' : MicroOp → Bool}
    (hk : L.map MicroOp.key = L'.map MicroOp.key) (hp : ∀ u v : MicroOp, u.key = v.key → p u = p' v) :
    (L.find? p).map MicroOp.key = (L'.find? p').map MicroOp.key := by
  induction L generalizing L' with
  | nil => cases L' with
    | nil => rfl
    | cons => simp at hk
  | cons u t ih => cases L' with
    | nil => simp at hk
    | cons v t' =>
      simp only [List.map_cons, List.cons.injEq] at hk
      have := hp u v hk.1
      rw [List.find?_cons, List.find?_cons, this]
      split
      · simp [hk.1]
      · exact ih hk.2

theorem Tracks.congr (h : Tracks L q size sb z) (hk : L.map MicroOp.key = L'.map MicroOp.key) :
    Tracks L' q size sb z := by
  have hw : ∀ i, ∀ u v : MicroOp, u.key = v.key → u.writes i = v.writes i := by
    intro i u v e; simp [MicroOp.key] at e; simp [MicroOp.writes, e]
  have hz : ∀ u v : MicroOp, u.key = v.key → setsZ u.op = setsZ v.op := by
    intro u v e; simp [MicroOp.key] at e; simp [e]
  have hm : ∀ u ∈ L', ∃ v ∈ L, v.key = u.key := by
    intro u hu
    have : u.key ∈ L.map MicroOp.key := hk ▸ List.mem_map_of_mem hu
    simpa using this
  have hm' : ∀ u ∈ L, ∃ v ∈ L', v.key = u.key := by
    intro u hu
    have : u.key ∈ L'.map MicroOp.key := hk ▸ List.mem_map_of_mem hu
    simpa using this
  have hf : ∀ (p : MicroOp → Bool), (∀ u v : MicroOp, u.key = v.key → p u = p v) →
      (L'.find? p = none → L.find? p = none) ∧
      ∀ u, L'.find? p = some u → ∃ v, L.find? p = some v ∧ v.key = u.key := by
    intro p hp
    have := find_congr hk hp
    refine ⟨fun e => by rw [e] at this; simpa using this, fun u e => ?_⟩
    rw [e] at this
    cases hl : L.find? p with
    | none => simp [hl] at this
    | some v => exact ⟨v, rfl, by simpa [hl] using this⟩
  refine ⟨h.ring, ?_, ?_, ?_, ?_, ?_, ?_, ?_⟩
  · intro u hu
    obtain ⟨v, hv, e⟩ := hm u hu
    simp [MicroOp.key] at e
    obtain ⟨rd, ht, hd⟩ := h.tracked v hv
    exact ⟨rd, by simpa [MicroOp.robEntry, e] using ht, by simpa [e] using hd⟩
  · have h1 : (L.map MicroOp.key).Pairwise fun y o => q.age size o.2.2.2 < q.age size y.2.2.2 :=
      List.pairwise_map.mpr h.ordered
    rw [hk] at h1
    exact List.pairwise_map.mp h1
  · intro k e he hc
    obtain ⟨u, hu, hr⟩ := h.pending k e he hc
    obtain ⟨v, hv, e⟩ := hm' u hu
    simp [MicroOp.key] at e
    exact ⟨v, hv, by rw [e.2.2.2, hr]⟩
  · intro i e; exact h.free i ((hf _ (hw i)).1 e)
  · intro i u e
    obtain ⟨v, hv, he⟩ := (hf _ (hw i)).2 u e
    simp [MicroOp.key] at he
    simpa [he] using h.held i v hv
  · intro e; exact h.z_free ((hf _ hz).1 e)
  · intro u e
    obtain ⟨v, hv, he⟩ := (hf _ hz).2 u e
    simp [MicroOp.key] at he
    simpa [he] using h.z_held v hv

theorem at?_setComplete (q : ReorderBuffer) (j k : Nat) :
    (q.setComplete j).at? k =
      if j = k then (q.at? k).map (fun e => { e with complete := true }) else q.at? k := by
  simp only [ReorderBuffer.at?, ReorderBuffer.setComplete, List.getD_eq_getElem?_getD,
    List.getElem?_modify]
  split <;> cases q.entries[k]? <;> rfl

theorem RingInv.setComplete (h : RingInv q.entries q.head q.tail q.count size) (j : Nat) :
    RingInv (q.setComplete j).entries (q.setComplete j).head (q.setComplete j).tail
      (q.setComplete j).count size where
  length := by simp [ReorderBuffer.setComplete, h.length]
  head_lt := h.head_lt
  count_le := h.count_le
  tail_eq := h.tail_eq
  filled := by
    intro k hk
    have := h.filled k hk
    have e := at?_setComplete q j k
    simp only [ReorderBuffer.at?] at e
    rw [e]
    split
    · simpa [ReorderBuffer.setComplete] using this
    · exact this

/-- R132: the oldest in-flight record writes back. -/
theorem Tracks.writeback {u : MicroOp} (h : Tracks (L ++ [u]) q size sb z) :
    Tracks L (q.setComplete u.rob) size
      (if hasDest u.op then sb.writeback u.rd u.result u.rob else sb)
      (if setsZ u.op then z.writeback (zeroFlag u.result) u.rob else z) := by
  have hne : ∀ v ∈ L, v.rob ≠ u.rob := by
    intro v hv e
    have := (List.pairwise_append.mp h.ordered).2.2 v hv u (by simp)
    rw [e] at this; omega
  have hlast : ∀ {p : MicroOp → Bool}, L.find? p = none → p u = true →
      (L ++ [u]).find? p = some u := by
    intro p hn hp; simp [List.find?_append, hn, hp]
  have hno : ∀ {p : MicroOp → Bool}, L.find? p = none → p u = false →
      (L ++ [u]).find? p = none := by
    intro p hn hp; simp [List.find?_append, hn, hp]
  have hold : ∀ {p : MicroOp → Bool} {v}, L.find? p = some v → (L ++ [u]).find? p = some v := by
    intro p v e; simp [List.find?_append, e]
  have hreg : ∀ i, ((if hasDest u.op then sb.writeback u.rd u.result u.rob else sb).entry i) =
      if u.writes i = true ∧ (sb.entry i).tag = u.rob ∧ (sb.entry i).valid = false then
        { sb.entry i with value := u.result, valid := true } else sb.entry i := by
    intro i
    by_cases hd : hasDest u.op
    · simp [hd, Scoreboard.entry_writeback, MicroOp.writes]
    · simp [hd, MicroOp.writes]
  refine ⟨h.ring.setComplete _, ?_, ?_, ?_, ?_, ?_, ?_, ?_⟩
  · intro v hv
    rw [at?_setComplete, if_neg (hne v hv).symm]
    exact h.tracked v (by simp [hv])
  · exact (List.pairwise_append.mp h.ordered).1
  · intro k e he hc
    rw [at?_setComplete] at he
    split at he
    · cases hq : q.at? k with
      | none => simp [hq] at he
      | some x => simp [hq] at he; subst he; simp at hc
    · next hk =>
      obtain ⟨v, hv, rfl⟩ := h.pending k e he hc
      rcases List.mem_append.mp hv with hv | hv
      · exact ⟨v, hv, rfl⟩
      · simp at hv; subst hv; simp at hk
  · intro i hn
    rw [hreg]
    cases hw : u.writes i with
    | true =>
      obtain ⟨hv, ht⟩ := h.held i u (hlast hn hw)
      simp [hv, ht]
    | false => simpa using h.free i (hno hn hw)
  · intro i v hf
    have ⟨hv, ht⟩ := h.held i v (hold hf)
    have := hne v (List.mem_of_find?_eq_some hf)
    rw [hreg, ht]; simp [this, hv, ht]
  · intro hn
    cases hw : setsZ u.op with
    | true =>
      obtain ⟨hv, ht⟩ := h.z_held u (hlast hn hw)
      simp [ZEntry.writeback, hv, ht]
    | false => simpa using h.z_free (hno hn hw)
  · intro v hf
    have ⟨hv, ht⟩ := h.z_held v (hold hf)
    have := hne v (List.mem_of_find?_eq_some hf)
    cases setsZ u.op <;> simp [ZEntry.writeback, ht, hv, this]

/-- R102: a complete head entry leaves. -/
theorem Tracks.retire {e : RobEntry} (h : Tracks L q size sb z) (hr : q.retirable = some e) :
    Tracks L (q.pop size) size sb z := by
  unfold ReorderBuffer.retirable at hr
  split at hr
  · simp at hr
  next hc =>
  rw [Option.filter_eq_some_iff] at hr
  obtain ⟨hat, hcomp⟩ := hr
  have hlen : ∀ {k x}, q.at? k = some x → k < size := at?_lt h.ring
  have hh := h.ring.head_lt
  have hne : ∀ u ∈ L, u.rob ≠ q.head ∧ u.rob < size := by
    intro u hu
    obtain ⟨_, ht, -⟩ := h.tracked u hu
    refine ⟨fun e => ?_, hlen ht⟩
    rw [e, hat] at ht
    have ht := Option.some.inj ht
    rw [ht] at hcomp
    simp [MicroOp.robEntry] at hcomp
  have hat' : ∀ k, k ≠ q.head → (q.pop size).at? k = q.at? k := by
    intro k hk
    simp [ReorderBuffer.at?, ReorderBuffer.pop, List.getElem?_set_ne (Ne.symm hk)]
  have hath : (q.pop size).at? q.head = none := by
    simp [ReorderBuffer.at?, ReorderBuffer.pop, List.getElem?_set]
    split <;> rfl
  refine ⟨h.ring.pop (by omega), ?_, ?_, ?_, h.free, h.held, h.z_free, h.z_held⟩
  · intro u hu
    rw [hat' _ (hne u hu).1]; exact h.tracked u hu
  · refine h.ordered.imp_of_mem fun {y o} hy ho hlt => ?_
    have := ringAge_next hh (hne y hy).2 (hne y hy).1
    have := ringAge_next hh (hne o ho).2 (hne o ho).1
    simp only [ReorderBuffer.age, ReorderBuffer.pop] at hlt ⊢
    omega
  · intro k x hx hcx
    by_cases hk : k = q.head
    · subst hk; rw [hath] at hx; simp at hx
    · rw [hat' k hk] at hx; exact h.pending k x hx hcx

/-- R117, R118: a record is dispatched into the ROB entry at the tail. -/
theorem Tracks.dispatch {u : MicroOp} {rd : RegNum} (h : Tracks L q size sb z) (hc : q.count ≠ size)
    (hu : u.rob = q.tail) (hrd : hasDest u.op = true → rd = u.rd) :
    Tracks (u :: L) (q.allocate size (u.robEntry rd)) size
      (if hasDest u.op then sb.invalidate u.rd u.rob else sb)
      (if setsZ u.op then z.invalidate u.rob else z) := by
  have hlt : q.count < size := by have := h.ring.count_le; omega
  have ht := h.ring.tail_lt
  have hage := h.ring.age_tail hlt
  have hocc : ∀ {k x}, q.at? k = some x → k < size ∧ ringAge size q.head k < q.count := by
    intro k x hx
    have hk : k < size := at?_lt h.ring hx
    exact ⟨hk, (h.ring.filled k hk).mp (by unfold ReorderBuffer.at? at hx; rw [hx]; rfl)⟩
  have hold : ∀ {k x}, q.at? k = some x → k ≠ q.tail := by
    intro k x hx e
    have := (hocc hx).2
    rw [e, hage] at this; omega
  have hat' : ∀ k, k ≠ q.tail → (q.allocate size (u.robEntry rd)).at? k = q.at? k := by
    intro k hk
    simp [ReorderBuffer.at?, ReorderBuffer.allocate, List.getElem?_set_ne (Ne.symm hk)]
  have hatt : (q.allocate size (u.robEntry rd)).at? q.tail = some (u.robEntry rd) := by
    simp [ReorderBuffer.at?, ReorderBuffer.allocate, h.ring.length, ht]
  have hreg : ∀ i, ((if hasDest u.op then sb.invalidate u.rd u.rob else sb).entry i) =
      if u.writes i = true then { sb.entry i with valid := false, tag := u.rob }
      else sb.entry i := by
    intro i
    by_cases hd : hasDest u.op
    · simp [hd, Scoreboard.entry_invalidate, MicroOp.writes]
    · simp [hd, MicroOp.writes]
  refine ⟨h.ring.push hlt _, ?_, ?_, ?_, ?_, ?_, ?_, ?_⟩
  · intro v hv
    rcases List.mem_cons.mp hv with rfl | hv
    · exact ⟨rd, by rw [hu]; exact hatt, hrd⟩
    · obtain ⟨r, ht, hr⟩ := h.tracked v hv
      exact ⟨r, by rw [hat' _ (hold ht)]; exact ht, hr⟩
  · refine List.pairwise_cons.mpr ⟨fun o ho => ?_, h.ordered⟩
    obtain ⟨_, hto, -⟩ := h.tracked o ho
    have := (hocc hto).2
    simp only [ReorderBuffer.age, ReorderBuffer.allocate, hu, hage]
    exact this
  · intro k e he hcm
    by_cases hk : k = q.tail
    · exact ⟨u, by simp, by rw [hu, hk]⟩
    · rw [hat' k hk] at he
      obtain ⟨v, hv, e⟩ := h.pending k e he hcm
      exact ⟨v, by simp [hv], e⟩
  · intro i hn
    rw [List.find?_cons] at hn
    split at hn
    · simp at hn
    · next hw => rw [hreg]; simpa [hw] using h.free i hn
  · intro i v hf
    rw [List.find?_cons] at hf
    split at hf
    · next hw => simp at hf; subst hf; rw [hreg]; simp [hw]
    · next hw => rw [hreg]; simpa [hw] using h.held i v hf
  · intro hn
    rw [List.find?_cons] at hn
    split at hn
    · simp at hn
    · next hw => simpa [hw] using h.z_free hn
  · intro v hf
    rw [List.find?_cons] at hf
    split at hf
    · next hw => simp at hf; subst hf; simp [hw, ZEntry.invalidate]
    · next hw => simpa [hw] using h.z_held v hf

end Sys2Proof.Machine
end

