-- ==== Sys2Proof/Laws/Stages.lean ====
section
/-! SUPPORT. The frame of each stage of a cycle: one lemma per stage and field the stage never writes
(spec/40_pipeline.md R100 to R132). -/

namespace Sys2Proof.Machine

variable (s : State)

/-! ### `retireStage` writes only `rob`, `completed`, `ret`, `halted` -/

@[simp] theorem retireStage_launch : (retireStage s).launch = s.launch := by
  unfold retireStage; split <;> rfl
@[simp] theorem retireStage_pc : (retireStage s).pc = s.pc := by
  unfold retireStage; split <;> rfl
@[simp] theorem retireStage_regs : (retireStage s).regs = s.regs := by
  unfold retireStage; split <;> rfl
@[simp] theorem retireStage_z : (retireStage s).z = s.z := by
  unfold retireStage; split <;> rfl
@[simp] theorem retireStage_f : (retireStage s).f = s.f := by
  unfold retireStage; split <;> rfl
@[simp] theorem retireStage_d : (retireStage s).d = s.d := by
  unfold retireStage; split <;> rfl
@[simp] theorem retireStage_iq : (retireStage s).iq = s.iq := by
  unfold retireStage; split <;> rfl
@[simp] theorem retireStage_lsq : (retireStage s).lsq = s.lsq := by
  unfold retireStage; split <;> rfl
@[simp] theorem retireStage_int1 : (retireStage s).int1 = s.int1 := by
  unfold retireStage; split <;> rfl
@[simp] theorem retireStage_int2 : (retireStage s).int2 = s.int2 := by
  unfold retireStage; split <;> rfl
@[simp] theorem retireStage_mul1 : (retireStage s).mul1 = s.mul1 := by
  unfold retireStage; split <;> rfl
@[simp] theorem retireStage_mul2 : (retireStage s).mul2 = s.mul2 := by
  unfold retireStage; split <;> rfl
@[simp] theorem retireStage_mul3 : (retireStage s).mul3 = s.mul3 := by
  unfold retireStage; split <;> rfl
@[simp] theorem retireStage_mem1 : (retireStage s).mem1 = s.mem1 := by
  unfold retireStage; split <;> rfl
@[simp] theorem retireStage_mem2 : (retireStage s).mem2 = s.mem2 := by
  unfold retireStage; split <;> rfl
@[simp] theorem retireStage_mem3 : (retireStage s).mem3 = s.mem3 := by
  unfold retireStage; split <;> rfl
@[simp] theorem retireStage_haltFetch : (retireStage s).haltFetch = s.haltFetch := by
  unfold retireStage; split <;> rfl
@[simp] theorem retireStage_cycle : (retireStage s).cycle = s.cycle := by
  unfold retireStage; split <;> rfl
@[simp] theorem retireStage_fault : (retireStage s).fault = s.fault := by
  unfold retireStage; split <;> rfl
@[simp] theorem retireStage_mem : (retireStage s).mem = s.mem := by
  unfold retireStage; split <;> rfl

/-! ### `stageMem3` writes only `regs`, `z`, `rob`, `mem`, `mem3` -/

@[simp] theorem stageMem3_launch : (stageMem3 s).launch = s.launch := by
  unfold stageMem3; split
  · rfl
  · split <;> rfl
@[simp] theorem stageMem3_pc : (stageMem3 s).pc = s.pc := by
  unfold stageMem3; split
  · rfl
  · split <;> rfl
@[simp] theorem stageMem3_f : (stageMem3 s).f = s.f := by
  unfold stageMem3; split
  · rfl
  · split <;> rfl
@[simp] theorem stageMem3_d : (stageMem3 s).d = s.d := by
  unfold stageMem3; split
  · rfl
  · split <;> rfl
@[simp] theorem stageMem3_iq : (stageMem3 s).iq = s.iq := by
  unfold stageMem3; split
  · rfl
  · split <;> rfl
@[simp] theorem stageMem3_lsq : (stageMem3 s).lsq = s.lsq := by
  unfold stageMem3; split
  · rfl
  · split <;> rfl
@[simp] theorem stageMem3_int1 : (stageMem3 s).int1 = s.int1 := by
  unfold stageMem3; split
  · rfl
  · split <;> rfl
@[simp] theorem stageMem3_int2 : (stageMem3 s).int2 = s.int2 := by
  unfold stageMem3; split
  · rfl
  · split <;> rfl
@[simp] theorem stageMem3_mul1 : (stageMem3 s).mul1 = s.mul1 := by
  unfold stageMem3; split
  · rfl
  · split <;> rfl
@[simp] theorem stageMem3_mul2 : (stageMem3 s).mul2 = s.mul2 := by
  unfold stageMem3; split
  · rfl
  · split <;> rfl
@[simp] theorem stageMem3_mul3 : (stageMem3 s).mul3 = s.mul3 := by
  unfold stageMem3; split
  · rfl
  · split <;> rfl
@[simp] theorem stageMem3_mem1 : (stageMem3 s).mem1 = s.mem1 := by
  unfold stageMem3; split
  · rfl
  · split <;> rfl
@[simp] theorem stageMem3_mem2 : (stageMem3 s).mem2 = s.mem2 := by
  unfold stageMem3; split
  · rfl
  · split <;> rfl
@[simp] theorem stageMem3_ret : (stageMem3 s).ret = s.ret := by
  unfold stageMem3; split
  · rfl
  · split <;> rfl
@[simp] theorem stageMem3_haltFetch : (stageMem3 s).haltFetch = s.haltFetch := by
  unfold stageMem3; split
  · rfl
  · split <;> rfl
@[simp] theorem stageMem3_halted : (stageMem3 s).halted = s.halted := by
  unfold stageMem3; split
  · rfl
  · split <;> rfl
@[simp] theorem stageMem3_completed : (stageMem3 s).completed = s.completed := by
  unfold stageMem3; split
  · rfl
  · split <;> rfl
@[simp] theorem stageMem3_cycle : (stageMem3 s).cycle = s.cycle := by
  unfold stageMem3; split
  · rfl
  · split <;> rfl
@[simp] theorem stageMem3_fault : (stageMem3 s).fault = s.fault := by
  unfold stageMem3; split
  · rfl
  · split <;> rfl

/-! ### `stageMul3` writes only `regs`, `z`, `rob`, `mul3` -/

@[simp] theorem stageMul3_launch : (stageMul3 s).launch = s.launch := by
  unfold stageMul3; split <;> rfl
@[simp] theorem stageMul3_pc : (stageMul3 s).pc = s.pc := by
  unfold stageMul3; split <;> rfl
@[simp] theorem stageMul3_f : (stageMul3 s).f = s.f := by
  unfold stageMul3; split <;> rfl
@[simp] theorem stageMul3_d : (stageMul3 s).d = s.d := by
  unfold stageMul3; split <;> rfl
@[simp] theorem stageMul3_iq : (stageMul3 s).iq = s.iq := by
  unfold stageMul3; split <;> rfl
@[simp] theorem stageMul3_lsq : (stageMul3 s).lsq = s.lsq := by
  unfold stageMul3; split <;> rfl
@[simp] theorem stageMul3_int1 : (stageMul3 s).int1 = s.int1 := by
  unfold stageMul3; split <;> rfl
@[simp] theorem stageMul3_int2 : (stageMul3 s).int2 = s.int2 := by
  unfold stageMul3; split <;> rfl
@[simp] theorem stageMul3_mul1 : (stageMul3 s).mul1 = s.mul1 := by
  unfold stageMul3; split <;> rfl
@[simp] theorem stageMul3_mul2 : (stageMul3 s).mul2 = s.mul2 := by
  unfold stageMul3; split <;> rfl
@[simp] theorem stageMul3_mem1 : (stageMul3 s).mem1 = s.mem1 := by
  unfold stageMul3; split <;> rfl
@[simp] theorem stageMul3_mem2 : (stageMul3 s).mem2 = s.mem2 := by
  unfold stageMul3; split <;> rfl
@[simp] theorem stageMul3_mem3 : (stageMul3 s).mem3 = s.mem3 := by
  unfold stageMul3; split <;> rfl
@[simp] theorem stageMul3_ret : (stageMul3 s).ret = s.ret := by
  unfold stageMul3; split <;> rfl
@[simp] theorem stageMul3_haltFetch : (stageMul3 s).haltFetch = s.haltFetch := by
  unfold stageMul3; split <;> rfl
@[simp] theorem stageMul3_halted : (stageMul3 s).halted = s.halted := by
  unfold stageMul3; split <;> rfl
@[simp] theorem stageMul3_completed : (stageMul3 s).completed = s.completed := by
  unfold stageMul3; split <;> rfl
@[simp] theorem stageMul3_cycle : (stageMul3 s).cycle = s.cycle := by
  unfold stageMul3; split <;> rfl
@[simp] theorem stageMul3_fault : (stageMul3 s).fault = s.fault := by
  unfold stageMul3; split <;> rfl
@[simp] theorem stageMul3_mem : (stageMul3 s).mem = s.mem := by
  unfold stageMul3; split <;> rfl

/-! ### `stageInt2` writes only `regs`, `z`, `rob`, `int2` -/

@[simp] theorem stageInt2_launch : (stageInt2 s).launch = s.launch := by
  unfold stageInt2; split <;> rfl
@[simp] theorem stageInt2_pc : (stageInt2 s).pc = s.pc := by
  unfold stageInt2; split <;> rfl
@[simp] theorem stageInt2_f : (stageInt2 s).f = s.f := by
  unfold stageInt2; split <;> rfl
@[simp] theorem stageInt2_d : (stageInt2 s).d = s.d := by
  unfold stageInt2; split <;> rfl
@[simp] theorem stageInt2_iq : (stageInt2 s).iq = s.iq := by
  unfold stageInt2; split <;> rfl
@[simp] theorem stageInt2_lsq : (stageInt2 s).lsq = s.lsq := by
  unfold stageInt2; split <;> rfl
@[simp] theorem stageInt2_int1 : (stageInt2 s).int1 = s.int1 := by
  unfold stageInt2; split <;> rfl
@[simp] theorem stageInt2_mul1 : (stageInt2 s).mul1 = s.mul1 := by
  unfold stageInt2; split <;> rfl
@[simp] theorem stageInt2_mul2 : (stageInt2 s).mul2 = s.mul2 := by
  unfold stageInt2; split <;> rfl
@[simp] theorem stageInt2_mul3 : (stageInt2 s).mul3 = s.mul3 := by
  unfold stageInt2; split <;> rfl
@[simp] theorem stageInt2_mem1 : (stageInt2 s).mem1 = s.mem1 := by
  unfold stageInt2; split <;> rfl
@[simp] theorem stageInt2_mem2 : (stageInt2 s).mem2 = s.mem2 := by
  unfold stageInt2; split <;> rfl
@[simp] theorem stageInt2_mem3 : (stageInt2 s).mem3 = s.mem3 := by
  unfold stageInt2; split <;> rfl
@[simp] theorem stageInt2_ret : (stageInt2 s).ret = s.ret := by
  unfold stageInt2; split <;> rfl
@[simp] theorem stageInt2_haltFetch : (stageInt2 s).haltFetch = s.haltFetch := by
  unfold stageInt2; split <;> rfl
@[simp] theorem stageInt2_halted : (stageInt2 s).halted = s.halted := by
  unfold stageInt2; split <;> rfl
@[simp] theorem stageInt2_completed : (stageInt2 s).completed = s.completed := by
  unfold stageInt2; split <;> rfl
@[simp] theorem stageInt2_cycle : (stageInt2 s).cycle = s.cycle := by
  unfold stageInt2; split <;> rfl
@[simp] theorem stageInt2_fault : (stageInt2 s).fault = s.fault := by
  unfold stageInt2; split <;> rfl
@[simp] theorem stageInt2_mem : (stageInt2 s).mem = s.mem := by
  unfold stageInt2; split <;> rfl

/-! ### `stageMem2` writes only `mem3`, `mem2` -/

@[simp] theorem stageMem2_launch : (stageMem2 s).launch = s.launch := by
  unfold stageMem2; split <;> rfl
@[simp] theorem stageMem2_pc : (stageMem2 s).pc = s.pc := by
  unfold stageMem2; split <;> rfl
@[simp] theorem stageMem2_regs : (stageMem2 s).regs = s.regs := by
  unfold stageMem2; split <;> rfl
@[simp] theorem stageMem2_z : (stageMem2 s).z = s.z := by
  unfold stageMem2; split <;> rfl
@[simp] theorem stageMem2_f : (stageMem2 s).f = s.f := by
  unfold stageMem2; split <;> rfl
@[simp] theorem stageMem2_d : (stageMem2 s).d = s.d := by
  unfold stageMem2; split <;> rfl
@[simp] theorem stageMem2_iq : (stageMem2 s).iq = s.iq := by
  unfold stageMem2; split <;> rfl
@[simp] theorem stageMem2_lsq : (stageMem2 s).lsq = s.lsq := by
  unfold stageMem2; split <;> rfl
@[simp] theorem stageMem2_rob : (stageMem2 s).rob = s.rob := by
  unfold stageMem2; split <;> rfl
@[simp] theorem stageMem2_int1 : (stageMem2 s).int1 = s.int1 := by
  unfold stageMem2; split <;> rfl
@[simp] theorem stageMem2_int2 : (stageMem2 s).int2 = s.int2 := by
  unfold stageMem2; split <;> rfl
@[simp] theorem stageMem2_mul1 : (stageMem2 s).mul1 = s.mul1 := by
  unfold stageMem2; split <;> rfl
@[simp] theorem stageMem2_mul2 : (stageMem2 s).mul2 = s.mul2 := by
  unfold stageMem2; split <;> rfl
@[simp] theorem stageMem2_mul3 : (stageMem2 s).mul3 = s.mul3 := by
  unfold stageMem2; split <;> rfl
@[simp] theorem stageMem2_mem1 : (stageMem2 s).mem1 = s.mem1 := by
  unfold stageMem2; split <;> rfl
@[simp] theorem stageMem2_ret : (stageMem2 s).ret = s.ret := by
  unfold stageMem2; split <;> rfl
@[simp] theorem stageMem2_haltFetch : (stageMem2 s).haltFetch = s.haltFetch := by
  unfold stageMem2; split <;> rfl
@[simp] theorem stageMem2_halted : (stageMem2 s).halted = s.halted := by
  unfold stageMem2; split <;> rfl
@[simp] theorem stageMem2_completed : (stageMem2 s).completed = s.completed := by
  unfold stageMem2; split <;> rfl
@[simp] theorem stageMem2_cycle : (stageMem2 s).cycle = s.cycle := by
  unfold stageMem2; split <;> rfl
@[simp] theorem stageMem2_fault : (stageMem2 s).fault = s.fault := by
  unfold stageMem2; split <;> rfl
@[simp] theorem stageMem2_mem : (stageMem2 s).mem = s.mem := by
  unfold stageMem2; split <;> rfl

/-! ### `stageMul2` writes only `mul3`, `mul2` -/

@[simp] theorem stageMul2_launch : (stageMul2 s).launch = s.launch := by
  unfold stageMul2; split <;> rfl
@[simp] theorem stageMul2_pc : (stageMul2 s).pc = s.pc := by
  unfold stageMul2; split <;> rfl
@[simp] theorem stageMul2_regs : (stageMul2 s).regs = s.regs := by
  unfold stageMul2; split <;> rfl
@[simp] theorem stageMul2_z : (stageMul2 s).z = s.z := by
  unfold stageMul2; split <;> rfl
@[simp] theorem stageMul2_f : (stageMul2 s).f = s.f := by
  unfold stageMul2; split <;> rfl
@[simp] theorem stageMul2_d : (stageMul2 s).d = s.d := by
  unfold stageMul2; split <;> rfl
@[simp] theorem stageMul2_iq : (stageMul2 s).iq = s.iq := by
  unfold stageMul2; split <;> rfl
@[simp] theorem stageMul2_lsq : (stageMul2 s).lsq = s.lsq := by
  unfold stageMul2; split <;> rfl
@[simp] theorem stageMul2_rob : (stageMul2 s).rob = s.rob := by
  unfold stageMul2; split <;> rfl
@[simp] theorem stageMul2_int1 : (stageMul2 s).int1 = s.int1 := by
  unfold stageMul2; split <;> rfl
@[simp] theorem stageMul2_int2 : (stageMul2 s).int2 = s.int2 := by
  unfold stageMul2; split <;> rfl
@[simp] theorem stageMul2_mul1 : (stageMul2 s).mul1 = s.mul1 := by
  unfold stageMul2; split <;> rfl
@[simp] theorem stageMul2_mem1 : (stageMul2 s).mem1 = s.mem1 := by
  unfold stageMul2; split <;> rfl
@[simp] theorem stageMul2_mem2 : (stageMul2 s).mem2 = s.mem2 := by
  unfold stageMul2; split <;> rfl
@[simp] theorem stageMul2_mem3 : (stageMul2 s).mem3 = s.mem3 := by
  unfold stageMul2; split <;> rfl
@[simp] theorem stageMul2_ret : (stageMul2 s).ret = s.ret := by
  unfold stageMul2; split <;> rfl
@[simp] theorem stageMul2_haltFetch : (stageMul2 s).haltFetch = s.haltFetch := by
  unfold stageMul2; split <;> rfl
@[simp] theorem stageMul2_halted : (stageMul2 s).halted = s.halted := by
  unfold stageMul2; split <;> rfl
@[simp] theorem stageMul2_completed : (stageMul2 s).completed = s.completed := by
  unfold stageMul2; split <;> rfl
@[simp] theorem stageMul2_cycle : (stageMul2 s).cycle = s.cycle := by
  unfold stageMul2; split <;> rfl
@[simp] theorem stageMul2_fault : (stageMul2 s).fault = s.fault := by
  unfold stageMul2; split <;> rfl
@[simp] theorem stageMul2_mem : (stageMul2 s).mem = s.mem := by
  unfold stageMul2; split <;> rfl

/-! ### `stageMem1` writes only `mem2`, `mem1`, `fault` -/

@[simp] theorem stageMem1_launch : (stageMem1 s).launch = s.launch := by
  unfold stageMem1; split
  · rfl
  · split <;> rfl
@[simp] theorem stageMem1_pc : (stageMem1 s).pc = s.pc := by
  unfold stageMem1; split
  · rfl
  · split <;> rfl
@[simp] theorem stageMem1_regs : (stageMem1 s).regs = s.regs := by
  unfold stageMem1; split
  · rfl
  · split <;> rfl
@[simp] theorem stageMem1_z : (stageMem1 s).z = s.z := by
  unfold stageMem1; split
  · rfl
  · split <;> rfl
@[simp] theorem stageMem1_f : (stageMem1 s).f = s.f := by
  unfold stageMem1; split
  · rfl
  · split <;> rfl
@[simp] theorem stageMem1_d : (stageMem1 s).d = s.d := by
  unfold stageMem1; split
  · rfl
  · split <;> rfl
@[simp] theorem stageMem1_iq : (stageMem1 s).iq = s.iq := by
  unfold stageMem1; split
  · rfl
  · split <;> rfl
@[simp] theorem stageMem1_lsq : (stageMem1 s).lsq = s.lsq := by
  unfold stageMem1; split
  · rfl
  · split <;> rfl
@[simp] theorem stageMem1_rob : (stageMem1 s).rob = s.rob := by
  unfold stageMem1; split
  · rfl
  · split <;> rfl
@[simp] theorem stageMem1_int1 : (stageMem1 s).int1 = s.int1 := by
  unfold stageMem1; split
  · rfl
  · split <;> rfl
@[simp] theorem stageMem1_int2 : (stageMem1 s).int2 = s.int2 := by
  unfold stageMem1; split
  · rfl
  · split <;> rfl
@[simp] theorem stageMem1_mul1 : (stageMem1 s).mul1 = s.mul1 := by
  unfold stageMem1; split
  · rfl
  · split <;> rfl
@[simp] theorem stageMem1_mul2 : (stageMem1 s).mul2 = s.mul2 := by
  unfold stageMem1; split
  · rfl
  · split <;> rfl
@[simp] theorem stageMem1_mul3 : (stageMem1 s).mul3 = s.mul3 := by
  unfold stageMem1; split
  · rfl
  · split <;> rfl
@[simp] theorem stageMem1_mem3 : (stageMem1 s).mem3 = s.mem3 := by
  unfold stageMem1; split
  · rfl
  · split <;> rfl
@[simp] theorem stageMem1_ret : (stageMem1 s).ret = s.ret := by
  unfold stageMem1; split
  · rfl
  · split <;> rfl
@[simp] theorem stageMem1_haltFetch : (stageMem1 s).haltFetch = s.haltFetch := by
  unfold stageMem1; split
  · rfl
  · split <;> rfl
@[simp] theorem stageMem1_halted : (stageMem1 s).halted = s.halted := by
  unfold stageMem1; split
  · rfl
  · split <;> rfl
@[simp] theorem stageMem1_completed : (stageMem1 s).completed = s.completed := by
  unfold stageMem1; split
  · rfl
  · split <;> rfl
@[simp] theorem stageMem1_cycle : (stageMem1 s).cycle = s.cycle := by
  unfold stageMem1; split
  · rfl
  · split <;> rfl
@[simp] theorem stageMem1_mem : (stageMem1 s).mem = s.mem := by
  unfold stageMem1; split
  · rfl
  · split <;> rfl

/-! ### `stageMul1` writes only `mul2`, `mul1` -/

@[simp] theorem stageMul1_launch : (stageMul1 s).launch = s.launch := by
  unfold stageMul1; split <;> rfl
@[simp] theorem stageMul1_pc : (stageMul1 s).pc = s.pc := by
  unfold stageMul1; split <;> rfl
@[simp] theorem stageMul1_regs : (stageMul1 s).regs = s.regs := by
  unfold stageMul1; split <;> rfl
@[simp] theorem stageMul1_z : (stageMul1 s).z = s.z := by
  unfold stageMul1; split <;> rfl
@[simp] theorem stageMul1_f : (stageMul1 s).f = s.f := by
  unfold stageMul1; split <;> rfl
@[simp] theorem stageMul1_d : (stageMul1 s).d = s.d := by
  unfold stageMul1; split <;> rfl
@[simp] theorem stageMul1_iq : (stageMul1 s).iq = s.iq := by
  unfold stageMul1; split <;> rfl
@[simp] theorem stageMul1_lsq : (stageMul1 s).lsq = s.lsq := by
  unfold stageMul1; split <;> rfl
@[simp] theorem stageMul1_rob : (stageMul1 s).rob = s.rob := by
  unfold stageMul1; split <;> rfl
@[simp] theorem stageMul1_int1 : (stageMul1 s).int1 = s.int1 := by
  unfold stageMul1; split <;> rfl
@[simp] theorem stageMul1_int2 : (stageMul1 s).int2 = s.int2 := by
  unfold stageMul1; split <;> rfl
@[simp] theorem stageMul1_mul3 : (stageMul1 s).mul3 = s.mul3 := by
  unfold stageMul1; split <;> rfl
@[simp] theorem stageMul1_mem1 : (stageMul1 s).mem1 = s.mem1 := by
  unfold stageMul1; split <;> rfl
@[simp] theorem stageMul1_mem2 : (stageMul1 s).mem2 = s.mem2 := by
  unfold stageMul1; split <;> rfl
@[simp] theorem stageMul1_mem3 : (stageMul1 s).mem3 = s.mem3 := by
  unfold stageMul1; split <;> rfl
@[simp] theorem stageMul1_ret : (stageMul1 s).ret = s.ret := by
  unfold stageMul1; split <;> rfl
@[simp] theorem stageMul1_haltFetch : (stageMul1 s).haltFetch = s.haltFetch := by
  unfold stageMul1; split <;> rfl
@[simp] theorem stageMul1_halted : (stageMul1 s).halted = s.halted := by
  unfold stageMul1; split <;> rfl
@[simp] theorem stageMul1_completed : (stageMul1 s).completed = s.completed := by
  unfold stageMul1; split <;> rfl
@[simp] theorem stageMul1_cycle : (stageMul1 s).cycle = s.cycle := by
  unfold stageMul1; split <;> rfl
@[simp] theorem stageMul1_fault : (stageMul1 s).fault = s.fault := by
  unfold stageMul1; split <;> rfl
@[simp] theorem stageMul1_mem : (stageMul1 s).mem = s.mem := by
  unfold stageMul1; split <;> rfl

/-! ### `stageInt1` writes only `int2`, `int1` -/

@[simp] theorem stageInt1_launch : (stageInt1 s).launch = s.launch := by
  unfold stageInt1; split <;> rfl
@[simp] theorem stageInt1_pc : (stageInt1 s).pc = s.pc := by
  unfold stageInt1; split <;> rfl
@[simp] theorem stageInt1_regs : (stageInt1 s).regs = s.regs := by
  unfold stageInt1; split <;> rfl
@[simp] theorem stageInt1_z : (stageInt1 s).z = s.z := by
  unfold stageInt1; split <;> rfl
@[simp] theorem stageInt1_f : (stageInt1 s).f = s.f := by
  unfold stageInt1; split <;> rfl
@[simp] theorem stageInt1_d : (stageInt1 s).d = s.d := by
  unfold stageInt1; split <;> rfl
@[simp] theorem stageInt1_iq : (stageInt1 s).iq = s.iq := by
  unfold stageInt1; split <;> rfl
@[simp] theorem stageInt1_lsq : (stageInt1 s).lsq = s.lsq := by
  unfold stageInt1; split <;> rfl
@[simp] theorem stageInt1_rob : (stageInt1 s).rob = s.rob := by
  unfold stageInt1; split <;> rfl
@[simp] theorem stageInt1_mul1 : (stageInt1 s).mul1 = s.mul1 := by
  unfold stageInt1; split <;> rfl
@[simp] theorem stageInt1_mul2 : (stageInt1 s).mul2 = s.mul2 := by
  unfold stageInt1; split <;> rfl
@[simp] theorem stageInt1_mul3 : (stageInt1 s).mul3 = s.mul3 := by
  unfold stageInt1; split <;> rfl
@[simp] theorem stageInt1_mem1 : (stageInt1 s).mem1 = s.mem1 := by
  unfold stageInt1; split <;> rfl
@[simp] theorem stageInt1_mem2 : (stageInt1 s).mem2 = s.mem2 := by
  unfold stageInt1; split <;> rfl
@[simp] theorem stageInt1_mem3 : (stageInt1 s).mem3 = s.mem3 := by
  unfold stageInt1; split <;> rfl
@[simp] theorem stageInt1_ret : (stageInt1 s).ret = s.ret := by
  unfold stageInt1; split <;> rfl
@[simp] theorem stageInt1_haltFetch : (stageInt1 s).haltFetch = s.haltFetch := by
  unfold stageInt1; split <;> rfl
@[simp] theorem stageInt1_halted : (stageInt1 s).halted = s.halted := by
  unfold stageInt1; split <;> rfl
@[simp] theorem stageInt1_completed : (stageInt1 s).completed = s.completed := by
  unfold stageInt1; split <;> rfl
@[simp] theorem stageInt1_cycle : (stageInt1 s).cycle = s.cycle := by
  unfold stageInt1; split <;> rfl
@[simp] theorem stageInt1_fault : (stageInt1 s).fault = s.fault := by
  unfold stageInt1; split <;> rfl
@[simp] theorem stageInt1_mem : (stageInt1 s).mem = s.mem := by
  unfold stageInt1; split <;> rfl

/-! ### `issueLsq` writes only `mem1`, `lsq` -/

@[simp] theorem issueLsq_launch : (issueLsq s).launch = s.launch := by
  unfold issueLsq; split
  · rfl
  · split <;> rfl
@[simp] theorem issueLsq_pc : (issueLsq s).pc = s.pc := by
  unfold issueLsq; split
  · rfl
  · split <;> rfl
@[simp] theorem issueLsq_regs : (issueLsq s).regs = s.regs := by
  unfold issueLsq; split
  · rfl
  · split <;> rfl
@[simp] theorem issueLsq_z : (issueLsq s).z = s.z := by
  unfold issueLsq; split
  · rfl
  · split <;> rfl
@[simp] theorem issueLsq_f : (issueLsq s).f = s.f := by
  unfold issueLsq; split
  · rfl
  · split <;> rfl
@[simp] theorem issueLsq_d : (issueLsq s).d = s.d := by
  unfold issueLsq; split
  · rfl
  · split <;> rfl
@[simp] theorem issueLsq_iq : (issueLsq s).iq = s.iq := by
  unfold issueLsq; split
  · rfl
  · split <;> rfl
@[simp] theorem issueLsq_rob : (issueLsq s).rob = s.rob := by
  unfold issueLsq; split
  · rfl
  · split <;> rfl
@[simp] theorem issueLsq_int1 : (issueLsq s).int1 = s.int1 := by
  unfold issueLsq; split
  · rfl
  · split <;> rfl
@[simp] theorem issueLsq_int2 : (issueLsq s).int2 = s.int2 := by
  unfold issueLsq; split
  · rfl
  · split <;> rfl
@[simp] theorem issueLsq_mul1 : (issueLsq s).mul1 = s.mul1 := by
  unfold issueLsq; split
  · rfl
  · split <;> rfl
@[simp] theorem issueLsq_mul2 : (issueLsq s).mul2 = s.mul2 := by
  unfold issueLsq; split
  · rfl
  · split <;> rfl
@[simp] theorem issueLsq_mul3 : (issueLsq s).mul3 = s.mul3 := by
  unfold issueLsq; split
  · rfl
  · split <;> rfl
@[simp] theorem issueLsq_mem2 : (issueLsq s).mem2 = s.mem2 := by
  unfold issueLsq; split
  · rfl
  · split <;> rfl
@[simp] theorem issueLsq_mem3 : (issueLsq s).mem3 = s.mem3 := by
  unfold issueLsq; split
  · rfl
  · split <;> rfl
@[simp] theorem issueLsq_ret : (issueLsq s).ret = s.ret := by
  unfold issueLsq; split
  · rfl
  · split <;> rfl
@[simp] theorem issueLsq_haltFetch : (issueLsq s).haltFetch = s.haltFetch := by
  unfold issueLsq; split
  · rfl
  · split <;> rfl
@[simp] theorem issueLsq_halted : (issueLsq s).halted = s.halted := by
  unfold issueLsq; split
  · rfl
  · split <;> rfl
@[simp] theorem issueLsq_completed : (issueLsq s).completed = s.completed := by
  unfold issueLsq; split
  · rfl
  · split <;> rfl
@[simp] theorem issueLsq_cycle : (issueLsq s).cycle = s.cycle := by
  unfold issueLsq; split
  · rfl
  · split <;> rfl
@[simp] theorem issueLsq_fault : (issueLsq s).fault = s.fault := by
  unfold issueLsq; split
  · rfl
  · split <;> rfl
@[simp] theorem issueLsq_mem : (issueLsq s).mem = s.mem := by
  unfold issueLsq; split
  · rfl
  · split <;> rfl

/-! ### `issueInt` writes only `int1`, `iq` -/

@[simp] theorem issueInt_launch : (issueInt s).launch = s.launch := by
  unfold issueInt; split
  · rfl
  · split <;> rfl
@[simp] theorem issueInt_pc : (issueInt s).pc = s.pc := by
  unfold issueInt; split
  · rfl
  · split <;> rfl
@[simp] theorem issueInt_regs : (issueInt s).regs = s.regs := by
  unfold issueInt; split
  · rfl
  · split <;> rfl
@[simp] theorem issueInt_z : (issueInt s).z = s.z := by
  unfold issueInt; split
  · rfl
  · split <;> rfl
@[simp] theorem issueInt_f : (issueInt s).f = s.f := by
  unfold issueInt; split
  · rfl
  · split <;> rfl
@[simp] theorem issueInt_d : (issueInt s).d = s.d := by
  unfold issueInt; split
  · rfl
  · split <;> rfl
@[simp] theorem issueInt_lsq : (issueInt s).lsq = s.lsq := by
  unfold issueInt; split
  · rfl
  · split <;> rfl
@[simp] theorem issueInt_rob : (issueInt s).rob = s.rob := by
  unfold issueInt; split
  · rfl
  · split <;> rfl
@[simp] theorem issueInt_int2 : (issueInt s).int2 = s.int2 := by
  unfold issueInt; split
  · rfl
  · split <;> rfl
@[simp] theorem issueInt_mul1 : (issueInt s).mul1 = s.mul1 := by
  unfold issueInt; split
  · rfl
  · split <;> rfl
@[simp] theorem issueInt_mul2 : (issueInt s).mul2 = s.mul2 := by
  unfold issueInt; split
  · rfl
  · split <;> rfl
@[simp] theorem issueInt_mul3 : (issueInt s).mul3 = s.mul3 := by
  unfold issueInt; split
  · rfl
  · split <;> rfl
@[simp] theorem issueInt_mem1 : (issueInt s).mem1 = s.mem1 := by
  unfold issueInt; split
  · rfl
  · split <;> rfl
@[simp] theorem issueInt_mem2 : (issueInt s).mem2 = s.mem2 := by
  unfold issueInt; split
  · rfl
  · split <;> rfl
@[simp] theorem issueInt_mem3 : (issueInt s).mem3 = s.mem3 := by
  unfold issueInt; split
  · rfl
  · split <;> rfl
@[simp] theorem issueInt_ret : (issueInt s).ret = s.ret := by
  unfold issueInt; split
  · rfl
  · split <;> rfl
@[simp] theorem issueInt_haltFetch : (issueInt s).haltFetch = s.haltFetch := by
  unfold issueInt; split
  · rfl
  · split <;> rfl
@[simp] theorem issueInt_halted : (issueInt s).halted = s.halted := by
  unfold issueInt; split
  · rfl
  · split <;> rfl
@[simp] theorem issueInt_completed : (issueInt s).completed = s.completed := by
  unfold issueInt; split
  · rfl
  · split <;> rfl
@[simp] theorem issueInt_cycle : (issueInt s).cycle = s.cycle := by
  unfold issueInt; split
  · rfl
  · split <;> rfl
@[simp] theorem issueInt_fault : (issueInt s).fault = s.fault := by
  unfold issueInt; split
  · rfl
  · split <;> rfl
@[simp] theorem issueInt_mem : (issueInt s).mem = s.mem := by
  unfold issueInt; split
  · rfl
  · split <;> rfl

/-! ### `issueMul` writes only `mul1`, `iq` -/

@[simp] theorem issueMul_launch : (issueMul s).launch = s.launch := by
  unfold issueMul; split
  · rfl
  · split <;> rfl
@[simp] theorem issueMul_pc : (issueMul s).pc = s.pc := by
  unfold issueMul; split
  · rfl
  · split <;> rfl
@[simp] theorem issueMul_regs : (issueMul s).regs = s.regs := by
  unfold issueMul; split
  · rfl
  · split <;> rfl
@[simp] theorem issueMul_z : (issueMul s).z = s.z := by
  unfold issueMul; split
  · rfl
  · split <;> rfl
@[simp] theorem issueMul_f : (issueMul s).f = s.f := by
  unfold issueMul; split
  · rfl
  · split <;> rfl
@[simp] theorem issueMul_d : (issueMul s).d = s.d := by
  unfold issueMul; split
  · rfl
  · split <;> rfl
@[simp] theorem issueMul_lsq : (issueMul s).lsq = s.lsq := by
  unfold issueMul; split
  · rfl
  · split <;> rfl
@[simp] theorem issueMul_rob : (issueMul s).rob = s.rob := by
  unfold issueMul; split
  · rfl
  · split <;> rfl
@[simp] theorem issueMul_int1 : (issueMul s).int1 = s.int1 := by
  unfold issueMul; split
  · rfl
  · split <;> rfl
@[simp] theorem issueMul_int2 : (issueMul s).int2 = s.int2 := by
  unfold issueMul; split
  · rfl
  · split <;> rfl
@[simp] theorem issueMul_mul2 : (issueMul s).mul2 = s.mul2 := by
  unfold issueMul; split
  · rfl
  · split <;> rfl
@[simp] theorem issueMul_mul3 : (issueMul s).mul3 = s.mul3 := by
  unfold issueMul; split
  · rfl
  · split <;> rfl
@[simp] theorem issueMul_mem1 : (issueMul s).mem1 = s.mem1 := by
  unfold issueMul; split
  · rfl
  · split <;> rfl
@[simp] theorem issueMul_mem2 : (issueMul s).mem2 = s.mem2 := by
  unfold issueMul; split
  · rfl
  · split <;> rfl
@[simp] theorem issueMul_mem3 : (issueMul s).mem3 = s.mem3 := by
  unfold issueMul; split
  · rfl
  · split <;> rfl
@[simp] theorem issueMul_ret : (issueMul s).ret = s.ret := by
  unfold issueMul; split
  · rfl
  · split <;> rfl
@[simp] theorem issueMul_haltFetch : (issueMul s).haltFetch = s.haltFetch := by
  unfold issueMul; split
  · rfl
  · split <;> rfl
@[simp] theorem issueMul_halted : (issueMul s).halted = s.halted := by
  unfold issueMul; split
  · rfl
  · split <;> rfl
@[simp] theorem issueMul_completed : (issueMul s).completed = s.completed := by
  unfold issueMul; split
  · rfl
  · split <;> rfl
@[simp] theorem issueMul_cycle : (issueMul s).cycle = s.cycle := by
  unfold issueMul; split
  · rfl
  · split <;> rfl
@[simp] theorem issueMul_fault : (issueMul s).fault = s.fault := by
  unfold issueMul; split
  · rfl
  · split <;> rfl
@[simp] theorem issueMul_mem : (issueMul s).mem = s.mem := by
  unfold issueMul; split
  · rfl
  · split <;> rfl

/-! ### `throughMem1` -/

@[simp] theorem throughMem1_launch : (throughMem1 s).launch = s.launch := by simp [throughMem1]
@[simp] theorem throughMem1_pc : (throughMem1 s).pc = s.pc := by simp [throughMem1]
@[simp] theorem throughMem1_f : (throughMem1 s).f = s.f := by simp [throughMem1]
@[simp] theorem throughMem1_d : (throughMem1 s).d = s.d := by simp [throughMem1]
@[simp] theorem throughMem1_iq : (throughMem1 s).iq = s.iq := by simp [throughMem1]
@[simp] theorem throughMem1_lsq : (throughMem1 s).lsq = s.lsq := by simp [throughMem1]
@[simp] theorem throughMem1_int1 : (throughMem1 s).int1 = s.int1 := by simp [throughMem1]
@[simp] theorem throughMem1_mul1 : (throughMem1 s).mul1 = s.mul1 := by simp [throughMem1]
@[simp] theorem throughMem1_haltFetch : (throughMem1 s).haltFetch = s.haltFetch := by simp [throughMem1]
@[simp] theorem throughMem1_cycle : (throughMem1 s).cycle = s.cycle := by simp [throughMem1]

/-! ### `fromMul1` -/

@[simp] theorem fromMul1_launch : (fromMul1 s).launch = s.launch := by simp [fromMul1]
@[simp] theorem fromMul1_pc : (fromMul1 s).pc = s.pc := by simp [fromMul1]
@[simp] theorem fromMul1_regs : (fromMul1 s).regs = s.regs := by simp [fromMul1]
@[simp] theorem fromMul1_z : (fromMul1 s).z = s.z := by simp [fromMul1]
@[simp] theorem fromMul1_f : (fromMul1 s).f = s.f := by simp [fromMul1]
@[simp] theorem fromMul1_d : (fromMul1 s).d = s.d := by simp [fromMul1]
@[simp] theorem fromMul1_rob : (fromMul1 s).rob = s.rob := by simp [fromMul1]
@[simp] theorem fromMul1_mul3 : (fromMul1 s).mul3 = s.mul3 := by simp [fromMul1]
@[simp] theorem fromMul1_mem2 : (fromMul1 s).mem2 = s.mem2 := by simp [fromMul1]
@[simp] theorem fromMul1_mem3 : (fromMul1 s).mem3 = s.mem3 := by simp [fromMul1]
@[simp] theorem fromMul1_ret : (fromMul1 s).ret = s.ret := by simp [fromMul1]
@[simp] theorem fromMul1_haltFetch : (fromMul1 s).haltFetch = s.haltFetch := by simp [fromMul1]
@[simp] theorem fromMul1_halted : (fromMul1 s).halted = s.halted := by simp [fromMul1]
@[simp] theorem fromMul1_completed : (fromMul1 s).completed = s.completed := by simp [fromMul1]
@[simp] theorem fromMul1_cycle : (fromMul1 s).cycle = s.cycle := by simp [fromMul1]
@[simp] theorem fromMul1_fault : (fromMul1 s).fault = s.fault := by simp [fromMul1]
@[simp] theorem fromMul1_mem : (fromMul1 s).mem = s.mem := by simp [fromMul1]

/-! ### `backEnd` -/

@[simp] theorem backEnd_launch : (backEnd s).launch = s.launch := by unfold backEnd; split <;> simp
@[simp] theorem backEnd_pc : (backEnd s).pc = s.pc := by unfold backEnd; split <;> simp
@[simp] theorem backEnd_f : (backEnd s).f = s.f := by unfold backEnd; split <;> simp
@[simp] theorem backEnd_d : (backEnd s).d = s.d := by unfold backEnd; split <;> simp
@[simp] theorem backEnd_haltFetch : (backEnd s).haltFetch = s.haltFetch := by unfold backEnd; split <;> simp
@[simp] theorem backEnd_cycle : (backEnd s).cycle = s.cycle := by unfold backEnd; split <;> simp

/-! ### Fetch writes only `pc`, `f`, `d` and `fault` -/

@[simp] theorem State.passOn_launch : (s.passOn).launch = s.launch := by
  unfold State.passOn; split <;> simp
@[simp] theorem State.passOn_pc : (s.passOn).pc = s.pc := by
  unfold State.passOn; split <;> simp
@[simp] theorem State.passOn_regs : (s.passOn).regs = s.regs := by
  unfold State.passOn; split <;> simp
@[simp] theorem State.passOn_z : (s.passOn).z = s.z := by
  unfold State.passOn; split <;> simp
@[simp] theorem State.passOn_iq : (s.passOn).iq = s.iq := by
  unfold State.passOn; split <;> simp
@[simp] theorem State.passOn_lsq : (s.passOn).lsq = s.lsq := by
  unfold State.passOn; split <;> simp
@[simp] theorem State.passOn_rob : (s.passOn).rob = s.rob := by
  unfold State.passOn; split <;> simp
@[simp] theorem State.passOn_int1 : (s.passOn).int1 = s.int1 := by
  unfold State.passOn; split <;> simp
@[simp] theorem State.passOn_int2 : (s.passOn).int2 = s.int2 := by
  unfold State.passOn; split <;> simp
@[simp] theorem State.passOn_mul1 : (s.passOn).mul1 = s.mul1 := by
  unfold State.passOn; split <;> simp
@[simp] theorem State.passOn_mul2 : (s.passOn).mul2 = s.mul2 := by
  unfold State.passOn; split <;> simp
@[simp] theorem State.passOn_mul3 : (s.passOn).mul3 = s.mul3 := by
  unfold State.passOn; split <;> simp
@[simp] theorem State.passOn_mem1 : (s.passOn).mem1 = s.mem1 := by
  unfold State.passOn; split <;> simp
@[simp] theorem State.passOn_mem2 : (s.passOn).mem2 = s.mem2 := by
  unfold State.passOn; split <;> simp
@[simp] theorem State.passOn_mem3 : (s.passOn).mem3 = s.mem3 := by
  unfold State.passOn; split <;> simp
@[simp] theorem State.passOn_ret : (s.passOn).ret = s.ret := by
  unfold State.passOn; split <;> simp
@[simp] theorem State.passOn_haltFetch : (s.passOn).haltFetch = s.haltFetch := by
  unfold State.passOn; split <;> simp
@[simp] theorem State.passOn_halted : (s.passOn).halted = s.halted := by
  unfold State.passOn; split <;> simp
@[simp] theorem State.passOn_completed : (s.passOn).completed = s.completed := by
  unfold State.passOn; split <;> simp
@[simp] theorem State.passOn_cycle : (s.passOn).cycle = s.cycle := by
  unfold State.passOn; split <;> simp
@[simp] theorem State.passOn_fault : (s.passOn).fault = s.fault := by
  unfold State.passOn; split <;> simp
@[simp] theorem State.passOn_mem : (s.passOn).mem = s.mem := by
  unfold State.passOn; split <;> simp
@[simp] theorem fetchRecord_launch : (fetchRecord s).launch = s.launch := by
  unfold fetchRecord; split
  · split <;> simp
  · simp
@[simp] theorem fetchRecord_regs : (fetchRecord s).regs = s.regs := by
  unfold fetchRecord; split
  · split <;> simp
  · simp
@[simp] theorem fetchRecord_z : (fetchRecord s).z = s.z := by
  unfold fetchRecord; split
  · split <;> simp
  · simp
@[simp] theorem fetchRecord_iq : (fetchRecord s).iq = s.iq := by
  unfold fetchRecord; split
  · split <;> simp
  · simp
@[simp] theorem fetchRecord_lsq : (fetchRecord s).lsq = s.lsq := by
  unfold fetchRecord; split
  · split <;> simp
  · simp
@[simp] theorem fetchRecord_rob : (fetchRecord s).rob = s.rob := by
  unfold fetchRecord; split
  · split <;> simp
  · simp
@[simp] theorem fetchRecord_int1 : (fetchRecord s).int1 = s.int1 := by
  unfold fetchRecord; split
  · split <;> simp
  · simp
@[simp] theorem fetchRecord_int2 : (fetchRecord s).int2 = s.int2 := by
  unfold fetchRecord; split
  · split <;> simp
  · simp
@[simp] theorem fetchRecord_mul1 : (fetchRecord s).mul1 = s.mul1 := by
  unfold fetchRecord; split
  · split <;> simp
  · simp
@[simp] theorem fetchRecord_mul2 : (fetchRecord s).mul2 = s.mul2 := by
  unfold fetchRecord; split
  · split <;> simp
  · simp
@[simp] theorem fetchRecord_mul3 : (fetchRecord s).mul3 = s.mul3 := by
  unfold fetchRecord; split
  · split <;> simp
  · simp
@[simp] theorem fetchRecord_mem1 : (fetchRecord s).mem1 = s.mem1 := by
  unfold fetchRecord; split
  · split <;> simp
  · simp
@[simp] theorem fetchRecord_mem2 : (fetchRecord s).mem2 = s.mem2 := by
  unfold fetchRecord; split
  · split <;> simp
  · simp
@[simp] theorem fetchRecord_mem3 : (fetchRecord s).mem3 = s.mem3 := by
  unfold fetchRecord; split
  · split <;> simp
  · simp
@[simp] theorem fetchRecord_ret : (fetchRecord s).ret = s.ret := by
  unfold fetchRecord; split
  · split <;> simp
  · simp
@[simp] theorem fetchRecord_haltFetch : (fetchRecord s).haltFetch = s.haltFetch := by
  unfold fetchRecord; split
  · split <;> simp
  · simp
@[simp] theorem fetchRecord_halted : (fetchRecord s).halted = s.halted := by
  unfold fetchRecord; split
  · split <;> simp
  · simp
@[simp] theorem fetchRecord_completed : (fetchRecord s).completed = s.completed := by
  unfold fetchRecord; split
  · split <;> simp
  · simp
@[simp] theorem fetchRecord_cycle : (fetchRecord s).cycle = s.cycle := by
  unfold fetchRecord; split
  · split <;> simp
  · simp
@[simp] theorem fetchRecord_mem : (fetchRecord s).mem = s.mem := by
  unfold fetchRecord; split
  · split <;> simp
  · simp
@[simp] theorem fetchBody_launch : (fetchBody s).launch = s.launch := by
  unfold fetchBody; split
  · rfl
  · split
    · split <;> simp
    · simp
@[simp] theorem fetchBody_regs : (fetchBody s).regs = s.regs := by
  unfold fetchBody; split
  · rfl
  · split
    · split <;> simp
    · simp
@[simp] theorem fetchBody_z : (fetchBody s).z = s.z := by
  unfold fetchBody; split
  · rfl
  · split
    · split <;> simp
    · simp
@[simp] theorem fetchBody_iq : (fetchBody s).iq = s.iq := by
  unfold fetchBody; split
  · rfl
  · split
    · split <;> simp
    · simp
@[simp] theorem fetchBody_lsq : (fetchBody s).lsq = s.lsq := by
  unfold fetchBody; split
  · rfl
  · split
    · split <;> simp
    · simp
@[simp] theorem fetchBody_rob : (fetchBody s).rob = s.rob := by
  unfold fetchBody; split
  · rfl
  · split
    · split <;> simp
    · simp
@[simp] theorem fetchBody_int1 : (fetchBody s).int1 = s.int1 := by
  unfold fetchBody; split
  · rfl
  · split
    · split <;> simp
    · simp
@[simp] theorem fetchBody_int2 : (fetchBody s).int2 = s.int2 := by
  unfold fetchBody; split
  · rfl
  · split
    · split <;> simp
    · simp
@[simp] theorem fetchBody_mul1 : (fetchBody s).mul1 = s.mul1 := by
  unfold fetchBody; split
  · rfl
  · split
    · split <;> simp
    · simp
@[simp] theorem fetchBody_mul2 : (fetchBody s).mul2 = s.mul2 := by
  unfold fetchBody; split
  · rfl
  · split
    · split <;> simp
    · simp
@[simp] theorem fetchBody_mul3 : (fetchBody s).mul3 = s.mul3 := by
  unfold fetchBody; split
  · rfl
  · split
    · split <;> simp
    · simp
@[simp] theorem fetchBody_mem1 : (fetchBody s).mem1 = s.mem1 := by
  unfold fetchBody; split
  · rfl
  · split
    · split <;> simp
    · simp
@[simp] theorem fetchBody_mem2 : (fetchBody s).mem2 = s.mem2 := by
  unfold fetchBody; split
  · rfl
  · split
    · split <;> simp
    · simp
@[simp] theorem fetchBody_mem3 : (fetchBody s).mem3 = s.mem3 := by
  unfold fetchBody; split
  · rfl
  · split
    · split <;> simp
    · simp
@[simp] theorem fetchBody_ret : (fetchBody s).ret = s.ret := by
  unfold fetchBody; split
  · rfl
  · split
    · split <;> simp
    · simp
@[simp] theorem fetchBody_haltFetch : (fetchBody s).haltFetch = s.haltFetch := by
  unfold fetchBody; split
  · rfl
  · split
    · split <;> simp
    · simp
@[simp] theorem fetchBody_halted : (fetchBody s).halted = s.halted := by
  unfold fetchBody; split
  · rfl
  · split
    · split <;> simp
    · simp
@[simp] theorem fetchBody_completed : (fetchBody s).completed = s.completed := by
  unfold fetchBody; split
  · rfl
  · split
    · split <;> simp
    · simp
@[simp] theorem fetchBody_cycle : (fetchBody s).cycle = s.cycle := by
  unfold fetchBody; split
  · rfl
  · split
    · split <;> simp
    · simp
@[simp] theorem fetchBody_mem : (fetchBody s).mem = s.mem := by
  unfold fetchBody; split
  · rfl
  · split
    · split <;> simp
    · simp
@[simp] theorem fetchStage_launch : (fetchStage s).launch = s.launch := by
  simp [fetchStage]
@[simp] theorem fetchStage_regs : (fetchStage s).regs = s.regs := by
  simp [fetchStage]
@[simp] theorem fetchStage_z : (fetchStage s).z = s.z := by
  simp [fetchStage]
@[simp] theorem fetchStage_iq : (fetchStage s).iq = s.iq := by
  simp [fetchStage]
@[simp] theorem fetchStage_lsq : (fetchStage s).lsq = s.lsq := by
  simp [fetchStage]
@[simp] theorem fetchStage_rob : (fetchStage s).rob = s.rob := by
  simp [fetchStage]
@[simp] theorem fetchStage_int1 : (fetchStage s).int1 = s.int1 := by
  simp [fetchStage]
@[simp] theorem fetchStage_int2 : (fetchStage s).int2 = s.int2 := by
  simp [fetchStage]
@[simp] theorem fetchStage_mul1 : (fetchStage s).mul1 = s.mul1 := by
  simp [fetchStage]
@[simp] theorem fetchStage_mul2 : (fetchStage s).mul2 = s.mul2 := by
  simp [fetchStage]
@[simp] theorem fetchStage_mul3 : (fetchStage s).mul3 = s.mul3 := by
  simp [fetchStage]
@[simp] theorem fetchStage_mem1 : (fetchStage s).mem1 = s.mem1 := by
  simp [fetchStage]
@[simp] theorem fetchStage_mem2 : (fetchStage s).mem2 = s.mem2 := by
  simp [fetchStage]
@[simp] theorem fetchStage_mem3 : (fetchStage s).mem3 = s.mem3 := by
  simp [fetchStage]
@[simp] theorem fetchStage_ret : (fetchStage s).ret = s.ret := by
  simp [fetchStage]
@[simp] theorem fetchStage_haltFetch : (fetchStage s).haltFetch = s.haltFetch := by
  simp [fetchStage]
@[simp] theorem fetchStage_halted : (fetchStage s).halted = s.halted := by
  simp [fetchStage]
@[simp] theorem fetchStage_completed : (fetchStage s).completed = s.completed := by
  simp [fetchStage]
@[simp] theorem fetchStage_cycle : (fetchStage s).cycle = s.cycle := by
  simp [fetchStage]
@[simp] theorem fetchStage_mem : (fetchStage s).mem = s.mem := by
  simp [fetchStage]
@[simp] theorem finishCycle_launch : (finishCycle s).launch = s.launch := by
  unfold finishCycle; split <;> simp
@[simp] theorem finishCycle_regs : (finishCycle s).regs = s.regs := by
  unfold finishCycle; split <;> simp
@[simp] theorem finishCycle_z : (finishCycle s).z = s.z := by
  unfold finishCycle; split <;> simp
@[simp] theorem finishCycle_iq : (finishCycle s).iq = s.iq := by
  unfold finishCycle; split <;> simp
@[simp] theorem finishCycle_lsq : (finishCycle s).lsq = s.lsq := by
  unfold finishCycle; split <;> simp
@[simp] theorem finishCycle_rob : (finishCycle s).rob = s.rob := by
  unfold finishCycle; split <;> simp
@[simp] theorem finishCycle_int1 : (finishCycle s).int1 = s.int1 := by
  unfold finishCycle; split <;> simp
@[simp] theorem finishCycle_int2 : (finishCycle s).int2 = s.int2 := by
  unfold finishCycle; split <;> simp
@[simp] theorem finishCycle_mul1 : (finishCycle s).mul1 = s.mul1 := by
  unfold finishCycle; split <;> simp
@[simp] theorem finishCycle_mul2 : (finishCycle s).mul2 = s.mul2 := by
  unfold finishCycle; split <;> simp
@[simp] theorem finishCycle_mul3 : (finishCycle s).mul3 = s.mul3 := by
  unfold finishCycle; split <;> simp
@[simp] theorem finishCycle_mem1 : (finishCycle s).mem1 = s.mem1 := by
  unfold finishCycle; split <;> simp
@[simp] theorem finishCycle_mem2 : (finishCycle s).mem2 = s.mem2 := by
  unfold finishCycle; split <;> simp
@[simp] theorem finishCycle_mem3 : (finishCycle s).mem3 = s.mem3 := by
  unfold finishCycle; split <;> simp
@[simp] theorem finishCycle_ret : (finishCycle s).ret = s.ret := by
  unfold finishCycle; split <;> simp
@[simp] theorem finishCycle_haltFetch : (finishCycle s).haltFetch = s.haltFetch := by
  unfold finishCycle; split <;> simp
@[simp] theorem finishCycle_halted : (finishCycle s).halted = s.halted := by
  unfold finishCycle; split <;> simp
@[simp] theorem finishCycle_completed : (finishCycle s).completed = s.completed := by
  unfold finishCycle; split <;> simp
@[simp] theorem finishCycle_mem : (finishCycle s).mem = s.mem := by
  unfold finishCycle; split <;> simp

end Sys2Proof.Machine
end

