-- ==== Sys2Proof/Laws/BackEnd.lean ====
section
/-! SUPPORT. The back end of a cycle (spec/40_pipeline.md R100 steps 1 to 5): what each stage keeps, and the
one lemma about all of it, `backEnd_body`. -/

namespace Sys2Proof.Machine

/-- The invariants the back end is about: all of `Inv` but the front end. -/
structure Body (s : State) : Prop where
  launch : s.launch.wellFormed
  queue : QueueInv s
  units : UnitInv s
  convoy : ConvoyInv s
  tracks : Tracks s.inFlight s.rob s.launch.robSize s.regs s.z
  memory : MemoryInv s

theorem Inv.body {s : State} (h : Inv s) : Body s :=
  ⟨h.launch, h.queue, h.units, h.convoy, (tracks_iff s).mpr ⟨h.rob, h.scoreboard⟩, h.memory⟩

theorem Body.toInv {s : State} (h : Body s) (f : FrontInv s) : Inv s :=
  ⟨h.launch, h.queue, h.units, h.convoy, ((tracks_iff s).mp h.tracks).1,
    ((tracks_iff s).mp h.tracks).2, f, h.memory⟩

theorem retire_body {s : State} (h : Body s) : Body (retireStage s) := by
  unfold retireStage
  split
  · exact ⟨h.launch, { h.queue with }, { h.units with }, { h.convoy with }, h.tracks, { h.memory with }⟩
  · next e he =>
    exact ⟨h.launch, { h.queue with }, { h.units with }, { h.convoy with }, h.tracks.retire he, { h.memory with }⟩

theorem addressInRange_lt {l : Launch} {ea : Word} (h : addressInRange l ea = true) :
    ea.toNat < l.dmemCells := by
  simp [addressInRange] at h
  have ht := BitVec.toInt_eq_toNat_cond ea
  have := ea.isLt
  split at ht <;> omega

theorem loadStore_flags {op : Opcode} (h : unitOf op = .mem) :
    setsZ op = false ∧ hasDest op = isLoad op ∧ isMem op = true := by
  cases op <;> simp_all [unitOf, setsZ, hasDest, isLoad, isMem]

theorem inFlight_mem3 {s : State} {u : MicroOp} (h : s.mem3 = some u) (hc : ConvoyInv s) :
    s.mul3 = none ∧ s.inFlight = (s.waiting ++ s.inStage1 ++ s.inStage2) ++ [u] := by
  have := hc.stage3
  simp [State.inStage3, h] at this
  simp [State.inFlight, State.inStage3, h, this]

theorem stageMem3_body {s : State} (h : Body s) : Body (stageMem3 s) ∧ (stageMem3 s).mem3 = none := by
  unfold stageMem3
  split
  · next hn => exact ⟨h, hn⟩
  next u hu =>
  obtain ⟨hm, hf⟩ := inFlight_mem3 hu h.convoy
  obtain ⟨hunit, hea, hr⟩ := h.units.mem3 u hu
  obtain ⟨hz, hd, -⟩ := loadStore_flags hunit
  have ht := h.tracks
  rw [hf] at ht
  have hkey : ((s.waiting ++ s.inStage1 ++ s.inStage2) ++ [u]).map MicroOp.key =
    ((s.waiting ++ s.inStage1 ++ s.inStage2) ++ [u.loaded s.mem]).map MicroOp.key := by
    simp [MicroOp.key, MicroOp.loaded]
  split
  · next hl =>
    refine ⟨⟨h.launch, { h.queue with }, { h.units with mem3 := by simp }, ⟨h.convoy.1, h.convoy.2, h.convoy.3, by simp [State.inStage3, hm]⟩, ?_, { h.memory with }⟩, rfl⟩
    have := (ht.congr hkey).writeback
    simpa [State.inFlight, State.waiting, State.inStage1, State.inStage2, State.inStage3, hm] using this
  · next hl =>
    refine ⟨⟨h.launch, { h.queue with }, { h.units with mem3 := by simp }, ⟨h.convoy.1, h.convoy.2, h.convoy.3, by simp [State.inStage3, hm]⟩, ?_, ?_⟩, rfl⟩
    · have := ht.writeback
      rw [hd, hz] at this
      simp [hl] at this
      simpa [State.inFlight, State.waiting, State.inStage1, State.inStage2, State.inStage3, hm] using this
    · refine ⟨memWrite_wf h.memory.form _ _, fun c hc => ?_⟩
      rcases mem_memWrite hc with ⟨rfl, -⟩ | hc
      · exact addressInRange_lt hr
      · exact h.memory.cells c hc

theorem stageMul3_body {s : State} (h : Body s) (h3 : s.mem3 = none) :
    Body (stageMul3 s) ∧ (stageMul3 s).mul3 = none ∧ (stageMul3 s).mem3 = none := by
  unfold stageMul3
  split
  · next hn => exact ⟨h, hn, h3⟩
  next u hu =>
  have ht := h.tracks
  have hf : s.inFlight = (s.waiting ++ s.inStage1 ++ s.inStage2) ++ [u] := by
    simp [State.inFlight, State.inStage3, hu, h3]
  rw [hf] at ht
  refine ⟨⟨h.launch, { h.queue with }, { h.units with mul3 := by simp }, ⟨h.convoy.1, h.convoy.2, h.convoy.3, by simp [State.inStage3, h3]⟩, ?_, { h.memory with }⟩, rfl, h3⟩
  have := ht.writeback
  simpa [State.inFlight, State.waiting, State.inStage1, State.inStage2, State.inStage3, h3] using this

theorem stageInt2_body {s : State} (h : Body s) (h3 : s.mul3 = none ∧ s.mem3 = none) :
    Body (stageInt2 s) ∧ (stageInt2 s).int2 = none := by
  unfold stageInt2
  split
  · next hn => exact ⟨h, hn⟩
  next u hu =>
  have ht := h.tracks
  have h2 : s.mul2 = none ∧ s.mem2 = none := by
    have := h.convoy.stage2
    simp [State.inStage2, hu] at this
    cases hm : s.mul2 <;> cases hm' : s.mem2 <;> simp_all
  have hf : s.inFlight = (s.waiting ++ s.inStage1) ++ [u] := by
    simp [State.inFlight, State.inStage2, State.inStage3, hu, h3, h2]
  rw [hf] at ht
  refine ⟨⟨h.launch, { h.queue with }, { h.units with int2 := by simp }, ⟨h.convoy.1, h.convoy.2, by simp [State.inStage2, h2], by simp [State.inStage3, h3]⟩, ?_, { h.memory with }⟩, rfl⟩
  have := ht.writeback
  simpa [State.inFlight, State.waiting, State.inStage1, State.inStage2, State.inStage3, h3, h2] using this

/-- A change of nothing the body reads. -/
theorem Body.same {s t : State} (h : Body s)
    (e : { t with
      pc := s.pc
      f := s.f
      d := s.d
      ret := s.ret
      haltFetch := s.haltFetch
      halted := s.halted
      completed := s.completed
      cycle := s.cycle
      fault := s.fault } = s) : Body t := by
  have hb : Body { t with
      pc := s.pc
      f := s.f
      d := s.d
      ret := s.ret
      haltFetch := s.haltFetch
      halted := s.halted
      completed := s.completed
      cycle := s.cycle
      fault := s.fault } := e.symm ▸ h
  exact ⟨hb.launch, { hb.queue with }, { hb.units with }, { hb.convoy with }, hb.tracks,
    { hb.memory with }⟩

/-- The state after the final stages (R100 step 2). -/
theorem final_body {s : State} (h : Body s) :
    Body (stageInt2 (stageMul3 (stageMem3 (retireStage s)))) ∧
    (stageInt2 (stageMul3 (stageMem3 (retireStage s)))).int2 = none ∧
    (stageInt2 (stageMul3 (stageMem3 (retireStage s)))).mul3 = none ∧
    (stageInt2 (stageMul3 (stageMem3 (retireStage s)))).mem3 = none := by
  obtain ⟨h1, e1⟩ := stageMem3_body (retire_body h)
  obtain ⟨h2, e2, e3⟩ := stageMul3_body h1 e1
  obtain ⟨h3, e4⟩ := stageInt2_body h2 ⟨e2, e3⟩
  exact ⟨h3, e4, by simpa using e2, by simpa using e3⟩

theorem stageMem2_eq {s : State} (h : s.mem3 = none) :
    stageMem2 s = { s with mem3 := s.mem2, mem2 := none } := by
  unfold stageMem2
  cases s; simp_all; split <;> simp_all

theorem stageMul2_eq {s : State} (h : s.mul3 = none) :
    stageMul2 s = { s with mul3 := s.mul2, mul2 := none } := by
  unfold stageMul2
  cases s; simp_all; split <;> simp_all

theorem stageMul1_eq {s : State} (h : s.mul2 = none) :
    stageMul1 s = { s with mul2 := s.mul1.map MicroOp.computed, mul1 := none } := by
  unfold stageMul1
  cases s; simp_all; split <;> simp_all

theorem stageInt1_eq {s : State} (h : s.int2 = none) :
    stageInt1 s = { s with int2 := s.int1.map MicroOp.computed, int1 := none } := by
  unfold stageInt1
  cases s; simp_all; split <;> simp_all

/-- The state after the middle stages (R100 step 3). -/
theorem middle_body {s : State} (h : Body s) (h2 : s.int2 = none) (h3 : s.mul3 = none)
    (h4 : s.mem3 = none) :
    Body (stageMul2 (stageMem2 s)) ∧ (stageMul2 (stageMem2 s)).inFlight = s.inFlight ∧
    (stageMul2 (stageMem2 s)).inStage2 = [] := by
  rw [stageMem2_eq h4, stageMul2_eq (by exact h3)]
  have hf : s.inFlight = s.waiting ++ s.inStage1 ++ (s.mul2.toList ++ s.mem2.toList) := by
    simp [State.inFlight, State.inStage2, State.inStage3, h2, h3, h4]
  have hf' : State.inFlight { s with mem3 := s.mem2, mem2 := none, mul3 := s.mul2, mul2 := none } = s.inFlight := by
    rw [hf]; simp [State.inFlight, State.inStage2, State.inStage3, State.waiting, State.inStage1, h2]
  refine ⟨⟨h.launch, { h.queue with }, ⟨h.units.1, h.units.2, h.units.3, by simp, h.units.4, h.units.6, by simp, h.units.7⟩, ⟨h.convoy.1, h.convoy.2, by simp [State.inStage2, h2], ?_⟩, ?_, { h.memory with }⟩, hf', by simp [State.inStage2, h2]⟩
  · have := h.convoy.stage2
    simpa [State.inStage3, State.inStage2, h2] using this
  · rw [hf']; exact h.tracks

/-- MEM1's range check: the fault, with the record left in MEM1, or the record in MEM2. -/
theorem stageMem1_cases {s : State} (h : s.mem2 = none) :
    (∃ u, s.mem1 = some u ∧ addressInRange s.launch (effectiveAddress u) = false ∧
      stageMem1 s = s.raise .dataAddressRange u.pc ((effectiveAddress u).zeroExtend 64)) ∨
    ((∀ u, s.mem1 = some u → addressInRange s.launch (effectiveAddress u) = true) ∧
      stageMem1 s = { s with mem2 := s.mem1.map MicroOp.addressed, mem1 := none }) := by
  unfold stageMem1
  cases hm : s.mem1 with
  | none =>
    refine .inr ⟨by simp, ?_⟩
    cases s; simp_all
  | some u =>
    by_cases hr : addressInRange s.launch (effectiveAddress u)
    · exact .inr ⟨by simp [hr], by simp [hr]⟩
    · exact .inl ⟨u, rfl, by simpa using hr, by simp [hr]⟩

theorem raise_body {s : State} (h : Body s) (c : FaultCode) (p : Word) (n : BitVec 64) :
    Body (s.raise c p n) := h.same rfl

/-- The first stages when MEM1 raises nothing (R100 step 4). -/
def firstDone (s : State) : State :=
  { s with
    int2 := s.int1.map MicroOp.computed
    mul2 := s.mul1.map MicroOp.computed
    mem2 := s.mem1.map MicroOp.addressed
    int1 := none
    mul1 := none
    mem1 := none }

theorem firstDone_body {s : State} (h : Body s) (h2 : s.inStage2 = [])
    (hr : ∀ u, s.mem1 = some u → addressInRange s.launch (effectiveAddress u) = true) :
    Body (firstDone s) ∧ (firstDone s).inStage1 = [] := by
  refine ⟨⟨h.launch, { h.queue with }, ?_, ⟨h.convoy.1, by simp [firstDone, State.inStage1], ?_, h.convoy.4⟩, ?_, { h.memory with }⟩, by simp [firstDone, State.inStage1]⟩
  · refine ⟨by simp [firstDone], ?_, by simp [firstDone], ?_, h.units.5, by simp [firstDone], ?_, h.units.8⟩
    · intro u hu
      simp [firstDone] at hu
      obtain ⟨v, hv, rfl⟩ := hu
      exact ⟨h.units.int1 v hv, by simp [MicroOp.computed, compute]⟩
    · intro u hu
      simp [firstDone] at hu
      obtain ⟨v, hv, rfl⟩ := hu
      exact ⟨h.units.mul1 v hv, by simp [MicroOp.computed, compute]⟩
    · intro u hu
      simp [firstDone] at hu
      obtain ⟨v, hv, rfl⟩ := hu
      exact ⟨h.units.mem1 v hv, by simp [MicroOp.addressed, effectiveAddress], hr v hv⟩
  · have := h.convoy.stage1
    have hl : ∀ (o : Option MicroOp) (f : MicroOp → MicroOp),
        (o.map f).toList.length = o.toList.length := by intro o f; cases o <;> rfl
    simpa [firstDone, State.inStage2, State.inStage1, hl] using this
  · refine h.tracks.congr (L' := (firstDone s).inFlight) ?_
    have hm : ∀ (o : Option MicroOp) (f : MicroOp → MicroOp), (∀ u, (f u).key = u.key) →
        (o.map f).toList.map MicroOp.key = o.toList.map MicroOp.key := by
      intro o f hf; cases o <;> simp [hf]
    simp only [State.inFlight, List.map_append, h2]
    simp [firstDone, State.waiting, State.inStage1, State.inStage2, State.inStage3,
      hm _ MicroOp.computed (fun _ => rfl), hm _ MicroOp.addressed (fun _ => rfl)]

theorem candidate_unit {fu : FuncUnit} {e : QueueEntry} (h : e.candidate fu = true) :
    e.u.unit = fu := by
  simp [QueueEntry.candidate] at h; exact h.2

/-- Issue empties the queues into the first latches (R100 step 5, R125). -/
theorem issue_cases {s : State} (h : Body s) (h1 : s.inStage1 = []) :
    ∃ t, issueMul (issueInt (issueLsq s)) = t ∧ t.waiting = [] ∧ t.inStage1 = s.waiting ∧
      QueueInv t ∧ (∀ u, t.int1 = some u → unitOf u.op = .int) ∧
      (∀ u, t.mul1 = some u → unitOf u.op = .mul) ∧ (∀ u, t.mem1 = some u → unitOf u.op = .mem) := by
  have hl : s.int1 = none ∧ s.mul1 = none ∧ s.mem1 = none := by
    simp [State.inStage1] at h1
    exact h1
  obtain ⟨hi, hm, hme⟩ := hl
  have hw := h.convoy.waiting
  have hring := h.queue.lsq_ring
  refine ⟨_, rfl, ?_⟩
  by_cases hlsq : queued s.lsq.entries = []
  · -- nothing in the LSQ
    have hcount : s.lsq.count = 0 := hring.count_zero (queued_eq_nil.mp hlsq)
    have e1 : issueLsq s = s := by
      simp [issueLsq, hme, LoadStoreQueue.front, hcount]
    rw [e1]
    by_cases hiq : queued s.iq = []
    · have hnone : ∀ fu, s.nextFor fu = none := by
        intro fu
        cases hn : s.nextFor fu with
        | none => rfl
        | some p =>
          obtain ⟨k, u⟩ := p
          obtain ⟨e, -, he, -⟩ := IssueQueue.oldest_spec hn
          have := queued_eq_nil.mp hiq _ (List.mem_of_getElem? he)
          simp at this
      have e2 : issueInt s = s := by simp [issueInt, hi, hnone]
      have e3 : issueMul s = s := by simp [issueMul, hm, hnone]
      rw [e2, e3]
      refine ⟨by simp [State.waiting, hiq, hlsq], by simp [State.waiting, hiq, hlsq, h1], h.queue, by simp [hi], by simp [hm], by simp [hme]⟩
    · obtain ⟨u, hu⟩ := List.exists_mem_of_ne_nil _ hiq
      obtain ⟨e, he, rfl⟩ := mem_queued.mp hu
      obtain ⟨hready, hunit, hnm⟩ := h.queue.iq_entry e (mem_occupied.mpr he)
      have hlen : (queued s.iq).length ≤ 1 := by
        have := hw; simp [State.waiting, hlsq] at this; exact this
      have honly : ∀ e', some e' ∈ s.iq → e'.u = e.u := by
        intro e' he'
        have h1 := mem_queued.mpr ⟨e', he', rfl⟩
        have h2 := mem_queued.mpr ⟨e, he, rfl⟩
        match hq : queued s.iq, hlen with
        | [x], _ => rw [hq] at h1 h2; simp at h1 h2; rw [h1, h2]
        | [], _ => rw [hq] at h1; simp at h1
      -- which unit
      have hcand : ∀ {fu}, e.u.unit = fu → ∃ k e', s.iq.oldest fu (s.rob.age s.launch.robSize) 0 = some (k, e'.u) ∧ e'.u = e.u ∧ s.iq[k]? = some (some e') := by
        intro fu hfu
        cases hn : s.iq.oldest fu (s.rob.age s.launch.robSize) 0 with
        | none =>
          have := IssueQueue.oldest_none hn e he
          simp [QueueEntry.candidate, hready, hfu] at this
        | some p =>
          obtain ⟨k, u⟩ := p
          obtain ⟨e', -, he', hue, hc⟩ := IssueQueue.oldest_spec hn
          exact ⟨k, e', by rw [hue], honly e' (List.mem_of_getElem? he'), by simpa using he'⟩
      have hother : ∀ {fu}, e.u.unit ≠ fu → s.nextFor fu = none := by
        intro fu hfu
        cases hn : s.nextFor fu with
        | none => rfl
        | some p =>
          obtain ⟨k, u⟩ := p
          obtain ⟨e', -, he', hue, hc⟩ := IssueQueue.oldest_spec hn
          have := candidate_unit hc
          rw [honly e' (List.mem_of_getElem? he')] at this
          exact absurd this hfu
      have hfree : ∀ k, ∀ e' ∈ occupied (IssueQueue.free s.iq k), e' ∈ occupied s.iq := by
        intro k e' he'
        have := List.mem_or_eq_of_mem_set (mem_occupied.mp he')
        exact mem_occupied.mpr (by simpa using this)
      cases hop : e.u.unit with
      | int =>
        obtain ⟨k, e', hn, hue, hk⟩ := hcand hop
        have hq := queued_set_none hk hlen
        have e2 : issueInt s = { s with int1 := some e'.u, iq := s.iq.free k } := by
          simp [issueInt, hi, State.nextFor, hn]
        rw [e2]
        have hnm' : IssueQueue.oldest .mul (s.rob.age s.launch.robSize) (IssueQueue.free s.iq k) 0 = none := by
          cases hn' : IssueQueue.oldest .mul (s.rob.age s.launch.robSize) (IssueQueue.free s.iq k) 0 with
          | none => rfl
          | some p =>
            obtain ⟨j, u⟩ := p
            obtain ⟨e'', -, he'', -⟩ := IssueQueue.oldest_spec hn'
            have := queued_eq_nil.mp hq.2 _ (List.mem_of_getElem? he'')
            simp at this
        have e3 : issueMul { s with int1 := some e'.u, iq := s.iq.free k } = { s with int1 := some e'.u, iq := s.iq.free k } := by
          simp [issueMul, hm, State.nextFor, hnm']
        rw [e3]
        refine ⟨by simpa [State.waiting, hlsq, IssueQueue.free] using hq.2, ?_, ⟨by simpa [IssueQueue.free] using h.queue.iq_length, fun e' he' => h.queue.iq_entry e' (hfree k e' he'), h.queue.3, h.queue.4⟩, ?_, by simp [hm], by simp [hme]⟩
        · simpa [State.inStage1, State.waiting, hm, hme, hlsq] using hq.1.symm
        · intro u hu
          simp at hu; subst hu; rw [hue, ← hunit, hop]
      | mul =>
        obtain ⟨k, e', hn, hue, hk⟩ := hcand hop
        have hq := queued_set_none hk hlen
        have e2 : issueInt s = s := by simp [issueInt, hi, hother (fu := .int) (by simp [hop])]
        rw [e2]
        have e3 : issueMul s = { s with mul1 := some e'.u, iq := s.iq.free k } := by
          simp [issueMul, hm, State.nextFor, hn]
        rw [e3]
        refine ⟨by simpa [State.waiting, hlsq, IssueQueue.free] using hq.2, ?_, ⟨by simpa [IssueQueue.free] using h.queue.iq_length, fun e' he' => h.queue.iq_entry e' (hfree k e' he'), h.queue.3, h.queue.4⟩, by simp [hi], ?_, by simp [hme]⟩
        · simpa [State.inStage1, State.waiting, hi, hme, hlsq] using hq.1.symm
        · intro u hu
          simp at hu; subst hu; rw [hue, ← hunit, hop]
      | mem => rw [hunit] at hop; cases hop' : e.u.op <;> rw [hop'] at hop hnm <;> simp [unitOf, isMem] at hop hnm
  · -- the LSQ holds one record
    have hiq : queued s.iq = [] := by
      have := hw
      simp [State.waiting] at this
      have : (queued s.lsq.entries).length ≠ 0 := by simpa using hlsq
      exact List.eq_nil_of_length_eq_zero (by omega)
    have hlen : (queued s.lsq.entries).length ≤ 1 := by
      have := hw; simp [State.waiting, hiq] at this; exact this
    have hc : 0 < s.lsq.count := by
      by_contra h0
      exact hlsq (queued_eq_nil.mpr (hring.empty (by omega)))
    obtain ⟨e, he⟩ := hring.head_some hc
    have hq := queued_set_none he hlen
    have e1 : issueLsq s = { s with mem1 := some e.u, lsq := s.lsq.pop s.launch.lsqSize } := by
      have hc' : s.lsq.count ≠ 0 := by omega
      simp [issueLsq, hme, LoadStoreQueue.front, he, hc']
    rw [e1]
    have hnone : ∀ fu age, IssueQueue.oldest fu age s.iq 0 = none := by
      intro fu age
      cases hn : IssueQueue.oldest fu age s.iq 0 with
      | none => rfl
      | some p =>
        obtain ⟨k, u⟩ := p
        obtain ⟨e, -, he, -⟩ := IssueQueue.oldest_spec hn
        have := queued_eq_nil.mp hiq _ (List.mem_of_getElem? he)
        simp at this
    simp [issueInt, issueMul, hi, hm, State.nextFor, hnone]
    obtain ⟨hready, hunit, hmem⟩ := h.queue.lsq_entry e (mem_occupied.mpr (List.mem_of_getElem? he))
    refine ⟨by simpa [State.waiting, hiq, LoadStoreQueue.pop] using hq.2, ?_, ⟨h.queue.1, h.queue.2, by exact hring.pop hc, ?_⟩, ?_⟩
    · simpa [State.inStage1, State.waiting, hi, hm, hiq] using hq.1.symm
    · intro e' he'
      have := List.mem_or_eq_of_mem_set (mem_occupied.mp he')
      exact h.queue.lsq_entry e' (mem_occupied.mpr (by simpa using this))
    · cases hop : e.u.op <;> rw [hop] at hmem <;> simp [isMem] at hmem <;> rfl

/-- Steps 1 to 5 of R100 keep the body; without a fault every waiting record has issued (R125). -/
theorem backEnd_body {s : State} (h : Body s) (h0 : s.fault = none) :
    Body (backEnd s) ∧ ((backEnd s).fault.isSome = false →
      (backEnd s).waiting = [] ∧ (backEnd s).inStage1 = s.waiting) := by
  obtain ⟨hF, f2, f3, f4⟩ := final_body h
  obtain ⟨hG, -, g2⟩ := middle_body hF f2 f3 f4
  set G := stageMul2 (stageMem2 (stageInt2 (stageMul3 (stageMem3 (retireStage s))))) with hGdef
  have ht : throughMem1 s = stageMem1 G := rfl
  have g2' : G.int2 = none ∧ G.mul2 = none ∧ G.mem2 = none := by
    simpa [State.inStage2] using g2
  unfold backEnd
  rw [ht]
  split
  · next hfault =>
    rcases stageMem1_cases g2'.2.2 with ⟨u, -, -, e⟩ | ⟨-, e⟩
    · rw [e]; exact ⟨raise_body hG _ _ _, by simp⟩
    · rw [e] at hfault ⊢
      simp [hGdef, h0] at hfault
  · next hfault =>
    rcases stageMem1_cases g2'.2.2 with ⟨u, -, -, e⟩ | ⟨hr, e⟩
    · rw [e] at hfault; simp at hfault
    · obtain ⟨hK, k1⟩ := firstDone_body hG g2 hr
      have hk : stageInt1 (stageMul1 (stageMem1 G)) = firstDone G := by
        rw [e, stageMul1_eq (by simpa using g2'.2.1), stageInt1_eq (by simpa using g2'.1)]
        rfl
      unfold fromMul1
      rw [hk]
      obtain ⟨t, et, hw, hs1, hq, hi, hm, hme⟩ := issue_cases hK k1
      rw [et]
      refine ⟨?_, fun _ => ⟨hw, by rw [hs1]; simp [firstDone, State.waiting, hGdef]⟩⟩
      subst et
      refine ⟨by simpa using hK.launch, hq, ⟨hi, by simpa using hK.units.int2, hm, by simpa using hK.units.mul2, by simpa using hK.units.mul3, hme, by simpa using hK.units.mem2, by simpa using hK.units.mem3⟩,
        ⟨by simp [hw], by rw [hs1]; exact hK.convoy.waiting, by simpa [State.inStage2] using hK.convoy.stage2, by simpa [State.inStage3] using hK.convoy.stage3⟩, ?_, ⟨by simpa using hK.memory.1, by simpa using hK.memory.2⟩⟩
      have : (issueMul (issueInt (issueLsq (firstDone G)))).inFlight = (firstDone G).inFlight := by
        simp only [State.inFlight, hw, hs1, k1]
        simp [State.inStage2, State.inStage3]
      rw [this]
      simpa using hK.tracks

end Sys2Proof.Machine
end

