-- ==== Sys2Proof/Laws/Dispatch.lean ====
section
/-! SUPPORT. Dispatch (spec/40_pipeline.md R113 to R119): every meaning of `exec` is one dispatch, what it
does, and that it keeps the body of the core. -/

namespace Sys2Proof.Machine

/-- What Decode needs of an instruction (R114, R116). -/
def shapeOf : Instr → Shape
  | .movc rd imm => movcShape rd imm
  | .add rd rs1 rs2 => aluRegShape .add rd rs1 rs2
  | .sub rd rs1 rs2 => aluRegShape .sub rd rs1 rs2
  | .and rd rs1 rs2 => aluRegShape .and rd rs1 rs2
  | .or rd rs1 rs2 => aluRegShape .or rd rs1 rs2
  | .xor rd rs1 rs2 => aluRegShape .xor rd rs1 rs2
  | .mul rd rs1 rs2 => aluRegShape .mul rd rs1 rs2
  | .addl rd rs1 imm => aluLitShape .addl rd rs1 imm
  | .subl rd rs1 imm => aluLitShape .subl rd rs1 imm
  | .andl rd rs1 imm => aluLitShape .andl rd rs1 imm
  | .orl rd rs1 imm => aluLitShape .orl rd rs1 imm
  | .xorl rd rs1 imm => aluLitShape .xorl rd rs1 imm
  | .mull rd rs1 imm => aluLitShape .mull rd rs1 imm
  | .load rd rs1 imm => loadShape rd rs1 imm
  | .ldr rd rs1 rs2 => ldrShape rd rs1 rs2
  | .store rs1 rs2 imm => storeShape rs1 rs2 imm
  | .str rs1 rs2 rs3 => strShape rs1 rs2 rs3
  | .bz imm => branchShape .bz imm
  | .bnz imm => branchShape .bnz imm
  | .jump rs1 imm => jumpShape rs1 imm
  | .halt => haltShape

/-- `DispatchEffect` of an instruction (R113). -/
def effectOf : Instr → MicroOp → State → State
  | .bz _ => bzEffect
  | .bnz _ => bnzEffect
  | .jump _ _ => jumpEffect
  | _ => noEffect

/-- What Decode does to the state before the hazard checks: HALT's halt flag (R113). -/
def examined : Instr → State → State
  | .halt, s => s.stopFetch
  | _, s => s

/-- Every meaning is one dispatch. -/
theorem exec_eq (i : Instr) (s : State) :
    exec i s = dispatch (shapeOf i) (effectOf i) (examined i s) := by
  cases i <;> rfl

theorem effect_cases (i : Instr) (u : MicroOp) (s : State) :
    effectOf i u s = s ∨ ∃ t, effectOf i u s = s.takeBranch t := by
  cases i <;> first | exact .inl rfl | skip
  · by_cases hz : s.z.value
    · exact .inr ⟨_, if_pos hz⟩
    · exact .inl (if_neg hz)
  · by_cases hz : s.z.value
    · exact .inl (if_pos hz)
    · exact .inr ⟨_, if_neg hz⟩
  · exact .inr ⟨_, rfl⟩

theorem examined_cases (i : Instr) (s : State) :
    (i ≠ .halt ∧ examined i s = s) ∨ (i = .halt ∧ examined i s = s.stopFetch) := by
  cases i <;> simp [examined]

theorem queued_set_some {q : List (Option QueueEntry)} {k : Nat} {e : QueueEntry}
    (hk : k < q.length) (h : queued q = []) : queued (q.set k (some e)) = [e.u] := by
  induction q generalizing k with
  | nil => simp at hk
  | cons x t ih =>
    cases x with
    | some y => simp at h
    | none =>
      cases k with
      | zero => simpa using h
      | succ k => simpa using ih (by simpa using hk) (by simpa using h)

/-- R123, R124: the dispatched record is the one waiting. -/
theorem allocate_waiting {s : State} {u : MicroOp} (h : Body s) (hw : s.waiting = [])
    (hs : structHazard u.op s = false) : (s.allocate u).waiting = [u] := by
  simp [structHazard] at hs
  simp [State.waiting] at hw
  by_cases hm : isMem u.op
  · have : s.lsq.tail < s.lsq.entries.length := by
      rw [h.queue.lsq_ring.length]; exact h.queue.lsq_ring.tail_lt
    have hx := queued_set_some (e := { ready := true, u := u }) this hw.2
    simp [State.waiting, hm, LoadStoreQueue.push, hw.1, hx]
  · have hx := IssueQueue.queued_insert hw.1 (by simpa [hm] using hs.1) u
    simp [State.waiting, hm, hw.2, hx]

/-- R113: a dispatch that is not stalled keeps the body of the core, if `D` holds the destination. -/
theorem allocate_body {s : State} {sh : Shape} (h : Body s) (hw : s.waiting = [])
    (hs : structHazard sh.op s = false) (hrd : hasDest sh.op = true → recRd s.d.word = sh.rd) :
    Body (s.allocate (sh.operandRead s)) := by
  set u := sh.operandRead s with hu
  have hop : u.op = sh.op := rfl
  have hwait : (s.allocate u).waiting = [u] := allocate_waiting h hw hs
  simp [structHazard] at hs
  obtain ⟨hq, hr⟩ := hs
  simp [State.waiting] at hw
  refine ⟨h.launch, ⟨?_, ?_, ?_, ?_⟩, ⟨h.units.1, h.units.2, h.units.3, h.units.4, h.units.5, h.units.6, h.units.7, h.units.8⟩, ⟨by simp [hwait], h.convoy.2, h.convoy.3, h.convoy.4⟩, ?_, ⟨h.memory.1, h.memory.2⟩⟩
  · have := h.queue.iq_length
    simp; split <;> simp [this]
  · intro e he
    simp [hop] at he
    split at he
    · exact h.queue.iq_entry e he
    · next hm =>
      rcases IssueQueue.mem_insert (mem_occupied.mp he) with rfl | he
      · exact ⟨rfl, rfl, by simpa [hop] using hm⟩
      · exact h.queue.iq_entry e (mem_occupied.mpr he)
  · by_cases hm : isMem sh.op
    · simp [hm] at hq
      have := h.queue.lsq_ring.push (by have := h.queue.lsq_ring.count_le; omega) { ready := true, u := u }
      simp [hop, hm, LoadStoreQueue.push]
      exact this
    · simpa [hop, hm] using h.queue.lsq_ring
  · intro e he
    simp [hop] at he
    split at he
    · next hm =>
      have := List.mem_or_eq_of_mem_set (mem_occupied.mp he)
      rcases this with he | he
      · exact h.queue.lsq_entry e (mem_occupied.mpr he)
      · simp at he; subst he; exact ⟨rfl, rfl, by simpa [hop] using hm⟩
    · exact h.queue.lsq_entry e he
  · have hfl : (s.allocate u).inFlight = u :: s.inFlight := by
      simp only [State.inFlight, hwait]
      simp [State.waiting, hw, State.inStage1, State.inStage2, State.inStage3]
    rw [hfl]
    simpa using h.tracks.dispatch hr (u := u) rfl hrd

theorem takeBranch_body {s : State} (h : Body s) (t : Word) : Body (s.takeBranch t) := h.same rfl

theorem clearDecode_body {s : State} (h : Body s) : Body s.clearDecode := h.same rfl

theorem stallDecode_body {s : State} (h : Body s) : Body s.stallDecode := h.same rfl

theorem stopFetch_body {s : State} (h : Body s) : Body s.stopFetch := h.same rfl

theorem tick_body {s : State} (h : Body s) : Body s.tick := h.same rfl

/-- R83: the destination of a legal record is its `rd` field. -/
theorem decode_rd {w : Record} {i : Instr} (h : decode w = .ok i)
    (hd : hasDest (shapeOf i).op = true) : recRd w = (shapeOf i).rd := by
  unfold decode at h
  split at h
  · simp at h
  · unfold decodeTag at h
    split at h <;> cases h <;> first | rfl | exact absurd hd Bool.false_ne_true

theorem exec_body {s t : State} {i : Instr} (h : Body s) (hw : s.waiting = [])
    (hi : decode s.d.word = .ok i) (he : exec i s = .next t) : Body t := by
  rw [exec_eq] at he
  have hw' : (examined i s).d = s.d := by
    rcases examined_cases i s with ⟨-, e⟩ | ⟨-, e⟩ <;> rw [e]
    rfl
  have hx : Body (examined i s) ∧ (examined i s).waiting = [] := by
    rcases examined_cases i s with ⟨-, e⟩ | ⟨-, e⟩ <;> rw [e]
    · exact ⟨h, hw⟩
    · exact ⟨stopFetch_body h, hw⟩
  unfold dispatch at he
  split at he
  · simp at he; subst he; exact stallDecode_body hx.1
  · next hz =>
    simp at hz
    simp at he; subst he
    apply clearDecode_body
    have := allocate_body hx.1 hx.2 hz.2 fun hd => by rw [hw']; exact decode_rd hi hd
    rcases effect_cases i ((shapeOf i).operandRead (examined i s)) ((examined i s).allocate ((shapeOf i).operandRead (examined i s))) with e | ⟨w, e⟩ <;> rw [e]
    · exact this
    · exact takeBranch_body this w

/-! ### What Decode reads of an instruction -/

theorem shapeOf_op (i : Instr) : (shapeOf i).op = instrOpcode i := by cases i <;> rfl

/-- R114: the registers among the operands are the sources of the table. -/
theorem mem_sources {i : Instr} {r : RegNum} : r ∈ (shapeOf i).sources ↔ r ∈ sourcesOf i := by
  cases i <;> simp [shapeOf, Shape.sources, Operand.source, sourcesOf, aluRegShape, aluLitShape, movcShape,
    loadShape, ldrShape, storeShape, strShape, branchShape, jumpShape, haltShape]
  · tauto
  · tauto

theorem destOf_eq (i : Instr) :
    destOf i = if hasDest (instrOpcode i) then some (shapeOf i).rd else none := by
  cases i <;> rfl

/-- R114, R115: the hazard checks are the conditions of `Stalls`. -/
theorem stalls_iff {s : State} {i : Instr} :
    Stalls s i ↔ (dataHazard (shapeOf i) s || structHazard (shapeOf i).op s) = true := by
  simp only [Stalls, dataHazard, structHazard, shapeOf_op, Bool.or_eq_true, Bool.and_eq_true,
    List.any_eq_true, mem_sources, decide_eq_true_eq, Bool.not_eq_true']
  by_cases hm : isMem (instrOpcode i) <;> simp [hm, or_assoc]

theorem stalls_examined {s : State} {i : Instr} : Stalls (examined i s) i ↔ Stalls s i := by
  rcases examined_cases i s with ⟨-, e⟩ | ⟨-, e⟩ <;> rw [e]
  rfl

/-- R119: a stalled instruction stays in `D`. -/
theorem exec_stalled {s : State} {i : Instr} (h : Stalls s i) :
    exec i s = .next (examined i s).stallDecode := by
  rw [exec_eq, dispatch, if_pos (stalls_iff.mp (stalls_examined.mpr h))]

/-- R113: an instruction that is not stalled dispatches. -/
theorem exec_dispatched {s : State} {i : Instr} (h : ¬ Stalls s i) :
    exec i s = .next (effectOf i ((shapeOf i).operandRead (examined i s))
      ((examined i s).allocate ((shapeOf i).operandRead (examined i s)))).clearDecode := by
  rw [exec_eq, dispatch, if_neg]
  rw [← stalls_iff, stalls_examined]; exact h

/-- Everything Decode can do with a legal instruction (R113). -/
theorem exec_cases {s t : State} {i : Instr} (h : exec i s = .next t) :
    (Stalls s i ∧ t = (examined i s).stallDecode) ∨
    (¬ Stalls s i ∧ ∃ u y, u = (shapeOf i).operandRead (examined i s) ∧
      (y = (examined i s).allocate u ∨ ∃ w, y = ((examined i s).allocate u).takeBranch w) ∧
      y = effectOf i u ((examined i s).allocate u) ∧ t = y.clearDecode) := by
  by_cases hs : Stalls s i
  · rw [exec_stalled hs] at h
    cases h
    exact .inl ⟨hs, rfl⟩
  · rw [exec_dispatched hs] at h
    cases h
    exact .inr ⟨hs, _, _, rfl, effect_cases _ _ _, rfl, rfl⟩

/-- R114: the operands of an instruction that does not stall are valid. -/
theorem valid_of_not_stalled {s : State} {i : Instr} (h : ¬ Stalls s i) :
    (∀ r ∈ sourcesOf i, s.regValid r = true) ∧ (readsZ (instrOpcode i) = true → s.z.valid = true) := by
  simp only [Stalls, not_or, not_exists, not_and, Bool.not_eq_false] at h
  exact ⟨h.1, h.2.1⟩

/-- R21: Decode changes the PC only by a branch it dispatches and takes. -/
theorem exec_pc {s t : State} {i : Instr} (h : exec i s = .next t) :
    t.pc = s.pc ∨ TakenTo s i t.pc := by
  rcases exec_cases h with ⟨-, rfl⟩ | ⟨hs, u, y, rfl, -, rfl, rfl⟩
  · rcases examined_cases i s with ⟨-, e⟩ | ⟨-, e⟩ <;> rw [e] <;> exact .inl rfl
  · have hv := valid_of_not_stalled hs
    cases i
    case bz imm =>
      by_cases hz : s.z.value
      · exact .inr ⟨hs, .inl ⟨imm, rfl, hv.2 rfl, hz, by
          simp [effectOf, bzEffect, examined, hz, shapeOf, branchShape, Shape.operandRead, setsZ]⟩⟩
      · left; simp [effectOf, bzEffect, examined, hz, shapeOf, branchShape, Shape.operandRead, setsZ]
    case bnz imm =>
      by_cases hz : s.z.value
      · left; simp [effectOf, bnzEffect, examined, hz, shapeOf, branchShape, Shape.operandRead, setsZ]
      · exact .inr ⟨hs, .inr (.inl ⟨imm, rfl, hv.2 rfl, by simpa using hz, by
          simp [effectOf, bnzEffect, examined, hz, shapeOf, branchShape, Shape.operandRead, setsZ]⟩)⟩
    case jump rs1 imm =>
      exact .inr ⟨hs, .inr (.inr ⟨rs1, imm, rfl, hv.1 rs1 (by simp [sourcesOf]), rfl⟩)⟩
    all_goals exact .inl (by simp [effectOf, noEffect, examined])

/-- What Decode leaves alone, whatever it does. -/
theorem exec_frame {s t : State} {i : Instr} (h : exec i s = .next t) :
    { t with
      pc := s.pc
      f := s.f
      haltFetch := s.haltFetch
      d := s.d
      regs := s.regs
      z := s.z
      rob := s.rob
      iq := s.iq
      lsq := s.lsq } = s ∧ t.rob.head = s.rob.head := by
  rcases exec_cases h with ⟨-, rfl⟩ | ⟨-, u, y, -, rfl | ⟨w, rfl⟩, -, rfl⟩ <;>
    rcases examined_cases i s with ⟨-, e⟩ | ⟨-, e⟩ <;> rw [e] <;> exact ⟨rfl, rfl⟩

theorem exec_next (i : Instr) (s : State) : ∃ t, exec i s = .next t := by
  by_cases hs : Stalls s i
  · exact ⟨_, exec_stalled hs⟩
  · exact ⟨_, exec_dispatched hs⟩

theorem CanDispatch.not_stalled {s : State} {i : Instr}
    (h : CanDispatch s (instrOpcode i) (sourcesOf i)) : ¬ Stalls s i := by
  obtain ⟨⟨hi, hw⟩, hsrc, hz, hr⟩ := h
  simp [State.waiting] at hw
  rintro (⟨r, hr, hv⟩ | ⟨hb, hv⟩ | ⟨-, hl⟩ | ⟨-, hq⟩ | hc)
  · simp [hsrc r hr] at hv
  · simp [hz hb] at hv
  · have := hi.queue.lsq_ring.count_zero (queued_eq_nil.mp hw.2)
    have := hi.launch.2.1
    omega
  · have hlen := hi.queue.iq_length
    have := hi.launch.1
    cases hq' : s.iq with
    | nil => simp [hq'] at hlen; omega
    | cons x t =>
      have := queued_eq_nil.mp hw.1 x (by simp [hq'])
      subst this
      simp [IssueQueue.hasFree, hq'] at hq
  · omega

theorem queued_eq_singleton {q : List (Option QueueEntry)} {u : MicroOp} (h : queued q = [u])
    (hr : ∀ e ∈ occupied q, e.ready = true) : occupied q = [{ ready := true, u := u }] := by
  unfold queued at h
  match ho : occupied q with
  | [] => simp [ho] at h
  | [e] =>
    simp [ho] at h
    have := hr e (by simp [ho])
    cases e; simp at h this; simp [h, this]
  | e :: e' :: l => simp [ho] at h

/-- What a dispatch leaves before its effect on the path of Fetch. -/
theorem dispatched_allocate {s : State} {u : MicroOp} (h : DecodeInv s)
    (hwait : (s.allocate u).waiting = [u])
    (hu : u.rob = s.rob.tail ∧ u.pc = s.d.pc) :
    Dispatched s u (s.allocate u).clearDecode := by
  have hring := h.inv.rob.ring
  have ht : s.rob.tail < s.rob.entries.length := by rw [hring.length]; exact hring.tail_lt
  have hw := h.issued
  simp [State.waiting] at hw
  refine ⟨hu, ?_, ?_, ?_, ?_, ?_, ?_, ⟨hwait, ?_⟩, ⟨rfl, rfl⟩, rfl, ⟨rfl, rfl⟩, ⟨rfl, rfl, rfl, rfl, rfl, rfl, rfl, rfl⟩,
    ⟨rfl, rfl, rfl, rfl, rfl⟩⟩
  · simp [ReorderBuffer.at?, ReorderBuffer.allocate, ht, MicroOp.robEntry, hu]
  · refine ⟨by simp [ReorderBuffer.allocate], fun k hk => ?_⟩
    simp [ReorderBuffer.at?, ReorderBuffer.allocate, List.getElem?_set_ne (Ne.symm hk)]
  · exact ⟨rfl, rfl, rfl⟩
  · intro hd
    simp [hd, Scoreboard.entry_invalidate, hu, State.reg]
  · intro r hr
    simp [MicroOp.writes] at hr
    by_cases hd : hasDest u.op <;> simp [hd, Scoreboard.entry_invalidate, hr]
  · simp [ZEntry.invalidate, hu]
  · simp only [State.waiting] at hwait
    by_cases hm : isMem u.op
    · simp only [State.allocate_iq, hm, if_true, hw.1, List.nil_append] at hwait
      refine (queued_eq_singleton ?_ ?_)
      · simpa [hm] using hwait
      · intro e he
        simp [hm, LoadStoreQueue.push] at he
        rcases List.mem_or_eq_of_mem_set (mem_occupied.mp he) with he | he
        · exact absurd (queued_eq_nil.mp hw.2 _ he) (by simp)
        · simp at he; simp [he]
    · simp only [State.allocate_lsq, hm] at hwait
      refine (queued_eq_singleton ?_ ?_)
      · simpa [hm, hw.2] using hwait
      · intro e he
        simp [hm] at he
        rcases IssueQueue.mem_insert (mem_occupied.mp he) with rfl | he
        · rfl
        · exact absurd (queued_eq_nil.mp hw.1 _ he) (by simp)

/-- `Dispatched` says nothing of the path of Fetch. -/
theorem Dispatched.path {s t T : State} {u : MicroOp} (h : Dispatched s u T)
    (e : { t with pc := T.pc, f := T.f, haltFetch := T.haltFetch } = T) : Dispatched s u t := by
  rw [← e] at h
  exact ⟨h.1, h.2, h.3, h.4, h.5, h.6, h.7, h.8, h.9, h.10, h.11, h.12, h.13⟩

/-- What an instruction that can dispatch leaves. -/
theorem dispatched_of {s : State} {i : Instr} (h : CanDispatch s (instrOpcode i) (sourcesOf i)) :
    ∃ t, exec i s = .next t ∧ Dispatched s ((shapeOf i).operandRead s) t ∧
      t.haltFetch = (s.haltFetch || decide (i = .halt)) ∧
      (∀ e, effectOf i ((shapeOf i).operandRead s) (examined i s) = e →
        t.pc = e.pc ∧ t.f = e.f) := by
  have hns := h.not_stalled
  have hd := h.found
  have hs : structHazard (shapeOf i).op s = false := by
    have := mt stalls_iff.mpr hns
    simp only [Bool.or_eq_true, not_or] at this
    simpa using this.2
  have hwait := allocate_waiting (u := (shapeOf i).operandRead s) hd.inv.body hd.issued hs
  have hT := dispatched_allocate hd hwait ⟨rfl, rfl⟩
  refine ⟨_, exec_dispatched hns, hT.path ?_, ?_, ?_⟩
  · rcases effect_cases i ((shapeOf i).operandRead (examined i s))
      ((examined i s).allocate ((shapeOf i).operandRead (examined i s))) with e | ⟨w, e⟩ <;> rw [e] <;>
    rcases examined_cases i s with ⟨-, e⟩ | ⟨-, e⟩ <;> rw [e] <;> rfl
  · by_cases hz : s.z.value <;> cases i <;>
      simp [effectOf, examined, noEffect, bzEffect, bnzEffect, jumpEffect, setsZ, shapeOf,
        branchShape, Shape.operandRead, hz]
  · rintro e rfl
    cases i <;> simp [effectOf, examined, noEffect, bzEffect, bnzEffect, jumpEffect, setsZ, shapeOf, branchShape, Shape.operandRead]
    all_goals split <;> simp_all

/-- Decode changes no register value, no Z value and no memory cell: only writeback does (R117). -/
theorem exec_values {s t : State} {i : Instr} (h : exec i s = .next t) :
    (∀ r, t.reg r = s.reg r) ∧ t.z.value = s.z.value ∧ t.mem = s.mem := by
  have hx : (examined i s).regs = s.regs ∧ (examined i s).z = s.z := by
    rcases examined_cases i s with ⟨-, e⟩ | ⟨-, e⟩ <;> rw [e] <;> exact ⟨rfl, rfl⟩
  have hm := congrArg State.mem (exec_frame h).1
  simp at hm
  rcases exec_cases h with ⟨-, rfl⟩ | ⟨hs, u, y, hu, hy, -, rfl⟩
  · exact ⟨fun r => by simp [State.reg, hx], by simp [hx], hm⟩
  · have hyr : y.regs = ((examined i s).allocate u).regs ∧ y.z = ((examined i s).allocate u).z := by
      rcases hy with rfl | ⟨w, rfl⟩ <;> exact ⟨rfl, rfl⟩
    refine ⟨fun r => ?_, ?_, hm⟩
    · simp only [State.reg, State.clearDecode_regs, hyr, State.allocate_regs, hx]
      split
      · rw [Scoreboard.entry_invalidate]; split <;> rfl
      · rfl
    · simp only [State.clearDecode_z, hyr, State.allocate_z, hx]
      split <;> rfl

end Sys2Proof.Machine
end

