-- ==== Sys2Proof/Laws/FrontEnd.lean ====
section
/-! SUPPORT. The front end (spec/40_pipeline.md R110 to R113): what Decode and Fetch keep. -/

namespace Sys2Proof.Machine

/-- `FrontInv` between Decode and Fetch: `F` may hold a record with `D` empty. -/
structure FrontMid (s : State) : Prop where
  decode_record : s.d.valid = true → codeAt s.launch s.d.pc = some s.d.word
  fetch_record : s.f.valid = true → codeAt s.launch s.f.pc = some s.f.word
  fetch_next : s.f.valid = true → s.pc = s.f.pc + 4
  fetch_follows : s.f.valid = true → s.d.valid = true → s.f.pc = s.d.pc + 4
  pc_follows : s.haltFetch = false → s.d.valid = true → s.f.valid = false → s.pc = s.d.pc + 4
  halt_empties : s.haltFetch = true → s.f.valid = false
  halt_holds : s.haltFetch = true → s.d.valid = true → decodedIn s.d = some .halt

theorem FrontInv.mid {s : State} (h : FrontInv s) : FrontMid s :=
  ⟨h.decode_record, h.fetch_record, fun hf => (h.fetch_follows hf).2, fun hf _ => (h.fetch_follows hf).1,
   h.pc_follows, h.halt_empties, h.halt_holds⟩

theorem backEnd_front {s : State} (h : FrontInv s) : FrontInv (backEnd s) :=
  ⟨by simpa using h.1, by simpa using h.2, by simpa using h.3, by simpa using h.4, by simpa using h.5, by simpa using h.6, by simpa using h.7⟩

theorem exec_front {s t : State} {i : Instr} (h : FrontMid s) (hv : s.d.valid = true) (hd : decode s.d.word = .ok i)
    (he : exec i s = .next t) : FrontMid t := by
  rw [exec_eq] at he
  have hx : FrontMid (examined i s) ∧ (examined i s).d.valid = true ∧ (examined i s).d.word = s.d.word := by
    rcases examined_cases i s with ⟨-, e⟩ | ⟨rfl, e⟩ <;> rw [e]
    · exact ⟨h, hv, rfl⟩
    · refine ⟨⟨by simpa using h.1, by simp [FrontLatch.clear], by simp [FrontLatch.clear], by simp [FrontLatch.clear], by simp, by simp [FrontLatch.clear], by simp [decodedIn, hd, hv, Except.toOption]⟩, by simp [hv], rfl⟩
  unfold dispatch at he
  split at he
  · simp at he; subst he
    have := hx.1
    exact ⟨by simpa using this.1, by simpa using this.2, by simpa using this.3, by simpa using this.4, by simpa using this.5, by simpa using this.6, this.7⟩
  · simp at he; subst he
    have := hx.1
    rcases effect_cases i ((shapeOf i).operandRead (examined i s)) ((examined i s).allocate ((shapeOf i).operandRead (examined i s))) with e | ⟨w, e⟩ <;> rw [e]
    · exact ⟨by simp [FrontLatch.clear], by simpa using this.2, by simpa using this.3, by simp [FrontLatch.clear], by simp [FrontLatch.clear], by simpa using this.6, by simp [FrontLatch.clear]⟩
    · exact ⟨by simp [FrontLatch.clear], by simp [FrontLatch.clear], by simp [FrontLatch.clear], by simp [FrontLatch.clear], by simp [FrontLatch.clear], by simp [FrontLatch.clear], by simp [FrontLatch.clear]⟩

theorem fetchRecord_front {s : State} (h : FrontMid s) (hf : s.f.valid = false) (hh : s.haltFetch = false) :
    FrontInv (fetchRecord s) := by
  have keep : ∀ t : State, t.launch = s.launch → t.d = s.d → t.f = s.f → t.pc = s.pc → t.haltFetch = s.haltFetch → FrontInv t := by
    intro t e1 e2 e3 e4 e5
    exact ⟨by simp [e3, hf], by rw [e1, e2]; exact h.1, by simp [e3, hf], by simp [e3, hf],
      by rw [e2, e4]; intro _ hv _; exact h.5 hh hv hf, by simp [e3, hf], by simp [e5, hh]⟩
  unfold fetchRecord
  split
  · split
    · exact keep s rfl rfl rfl rfl rfl
    · next w hc =>
      unfold State.passOn
      split
      · next hd =>
        simp at hd
        have h5 := h.5 hh hd hf
        refine ⟨by simp [FrontLatch.fill, hd], by simpa using h.1, by simp [FrontLatch.fill, hc], by simp [FrontLatch.fill, h5], by simp [FrontLatch.fill], by simp [hh], by simp [hh]⟩
      · refine ⟨by simp [FrontLatch.fill, FrontLatch.clear], by simp [FrontLatch.fill, hc], by simp [FrontLatch.fill, FrontLatch.clear], by simp [FrontLatch.fill, FrontLatch.clear], by simp [FrontLatch.fill, FrontLatch.clear], by simp [hh], by simp [hh]⟩
  · exact keep _ rfl rfl rfl rfl rfl

theorem fetchStage_front {s : State} (h : FrontMid s) : FrontInv (fetchStage s) := by
  have h' : FrontMid s.unstallFetch := ⟨by simpa using h.1, by simpa using h.2, by simpa using h.3, by simpa using h.4, by simpa using h.5, by simpa using h.6, by simpa using h.7⟩
  unfold fetchStage fetchBody
  split
  · next hh =>
    have := h'.halt_empties hh
    refine ⟨by simp_all, h'.1, by simp_all, by simp_all, by simp_all, h'.6, h'.7⟩
  · next hh =>
    simp at hh
    split
    · next hf =>
      split
      · next hd =>
        refine ⟨by simpa using fun _ => hd, by simpa using h'.1, by simpa using h'.2, ?_, by simp_all, by simp [hh], by simp [hh]⟩
        intro _; exact ⟨h'.4 hf hd, h'.3 hf⟩
      · next hd =>
        apply fetchRecord_front _ (by simp [FrontLatch.clear]) (by simpa using hh)
        refine ⟨by simp [FrontLatch.fill]; exact h'.2 hf, by simp [FrontLatch.clear], by simp [FrontLatch.clear], by simp [FrontLatch.clear], ?_, by simp [FrontLatch.clear], by simp [hh]⟩
        intro _ _ _; exact h'.3 hf
    · next hf => exact fetchRecord_front h' (by simpa using hf) (by simpa using hh)

theorem fetchStage_body {s : State} (h : Body s) : Body (fetchStage s) := by
  have hi : (fetchStage s).inFlight = s.inFlight := by
    simp [State.inFlight, State.waiting, State.inStage1, State.inStage2, State.inStage3]
  refine ⟨by simpa using h.launch, ⟨by simpa using h.queue.1, by simpa using h.queue.2, by simpa using h.queue.3, by simpa using h.queue.4⟩, ⟨by simpa using h.units.1, by simpa using h.units.2, by simpa using h.units.3, by simpa using h.units.4, by simpa using h.units.5, by simpa using h.units.6, by simpa using h.units.7, by simpa using h.units.8⟩, ⟨by simpa [State.waiting] using h.convoy.1, by simpa [State.inStage1] using h.convoy.2, by simpa [State.inStage2] using h.convoy.3, by simpa [State.inStage3] using h.convoy.4⟩, ?_, ⟨by simpa using h.memory.1, by simpa using h.memory.2⟩⟩
  rw [hi]; simpa using h.tracks

theorem FrontInv.tick {s : State} (h : FrontInv s) : FrontInv s.tick :=
  ⟨h.1, h.2, h.3, h.4, h.5, h.6, h.7⟩

theorem exec_fault {s t : State} {i : Instr} (he : exec i s = .next t) : t.fault = s.fault := by
  rw [exec_eq] at he
  have hx : (examined i s).fault = s.fault := by
    rcases examined_cases i s with ⟨-, e⟩ | ⟨rfl, e⟩ <;> rw [e]; rfl
  unfold dispatch at he
  split at he
  · simp at he; subst he; exact hx
  · simp at he; subst he
    rcases effect_cases i ((shapeOf i).operandRead (examined i s)) ((examined i s).allocate ((shapeOf i).operandRead (examined i s))) with e | ⟨w, e⟩ <;> rw [e] <;> simp [hx]

/-- The state in which Fetch looks at the PC: a held `F` handed to an empty `D` (R111). -/
def handed (s : State) : State :=
  if s.f.valid then s.unstallFetch.handOff else s.unstallFetch

/-- Everything Fetch can do (R110, R111). -/
theorem fetch_cases (s : State) :
    (s.haltFetch = true ∧ fetchStage s = s.unstallFetch) ∨
    (s.haltFetch = false ∧ (s.f.valid = true ∧ s.d.valid = true) ∧
      fetchStage s = s.unstallFetch.stallFetch) ∨
    (s.haltFetch = false ∧ ¬ (s.f.valid = true ∧ s.d.valid = true) ∧
      ((pcWellFormed s.launch s.pc = false ∧
          fetchStage s = (handed s).raise .fetchPcInvalid s.pc (s.pc.zeroExtend 64)) ∨
       (pcWellFormed s.launch s.pc = true ∧ codeAt s.launch s.pc = none ∧
          fetchStage s = handed s) ∨
       (pcWellFormed s.launch s.pc = true ∧ ∃ w, codeAt s.launch s.pc = some w ∧
          fetchStage s = ((handed s).fetched w).passOn))) := by
  have h1 : (handed s).pc = s.pc ∧ (handed s).launch = s.launch := by
    unfold handed; split <;> exact ⟨rfl, rfl⟩
  have hr : (pcWellFormed s.launch s.pc = false ∧
        fetchRecord (handed s) = (handed s).raise .fetchPcInvalid s.pc (s.pc.zeroExtend 64)) ∨
      (pcWellFormed s.launch s.pc = true ∧ codeAt s.launch s.pc = none ∧
        fetchRecord (handed s) = handed s) ∨
      (pcWellFormed s.launch s.pc = true ∧ ∃ w, codeAt s.launch s.pc = some w ∧
        fetchRecord (handed s) = ((handed s).fetched w).passOn) := by
    simp only [fetchRecord, h1]
    cases hp : pcWellFormed s.launch s.pc with
    | false => exact .inl ⟨rfl, rfl⟩
    | true =>
      cases hc : codeAt s.launch s.pc with
      | none => exact .inr (.inl ⟨rfl, rfl, by simp⟩)
      | some w => exact .inr (.inr ⟨rfl, w, rfl, by simp⟩)
  cases hh : s.haltFetch with
  | true => exact .inl ⟨rfl, by simp [fetchStage, fetchBody, hh]⟩
  | false =>
    refine .inr ?_
    by_cases hfd : s.f.valid = true ∧ s.d.valid = true
    · exact .inl ⟨rfl, hfd, by simp [fetchStage, fetchBody, hh, hfd]⟩
    · have e : fetchStage s = fetchRecord (handed s) := by
        cases hf : s.f.valid with
        | false => simp [fetchStage, fetchBody, hh, hf, handed]
        | true =>
          have hd : s.d.valid = false := by simpa [hf] using hfd
          simp [fetchStage, fetchBody, hh, hf, hd, handed]
      rw [e]
      exact .inr ⟨rfl, hfd, hr⟩

/-- Fetch writes `pc`, `f`, `d` and `fault` alone. -/
theorem fetch_frame (s : State) :
    { fetchStage s with pc := s.pc, f := s.f, d := s.d, fault := s.fault } = s := by
  have hh : ∀ {x : State}, { x with pc := s.pc, f := s.f, d := s.d, fault := s.fault } = s →
      { x.passOn with pc := s.pc, f := s.f, d := s.d, fault := s.fault } = s := by
    intro x hx
    unfold State.passOn
    split <;> exact hx
  have hd : { handed s with pc := s.pc, f := s.f, d := s.d, fault := s.fault } = s := by
    unfold handed; split <;> rfl
  rcases fetch_cases s with ⟨-, e⟩ | ⟨-, -, e⟩ | ⟨-, -, ⟨-, e⟩ | ⟨-, -, e⟩ | ⟨-, w, -, e⟩⟩ <;> rw [e]
  · rfl
  · rfl
  · exact hd
  · exact hd
  · exact hh hd

end Sys2Proof.Machine
end

