-- ==== Sys2Proof/Laws/Cycle.lean ====
section
/-! SUPPORT. One whole cycle (spec/40_pipeline.md R100): what the back end does with and without a fault of
MEM1, and the one lemma that says everything a step can do, `step_cases`. -/

namespace Sys2Proof.Machine

theorem inRange_iff {s : State} {u : MicroOp} :
    InRange s (u.a + u.b) ↔ addressInRange s.launch (effectiveAddress u) = true := by
  simp [InRange, addressInRange, effectiveAddress]

/-- Where MEM1 raises no fault, the rest of step 4 and step 5 run. -/
theorem backEnd_ok {s : State} (h0 : s.fault = none)
    (hr : ∀ u ∈ s.mem1, InRange s (u.a + u.b)) :
    backEnd s = fromMul1 (throughMem1 s) ∧ (throughMem1 s).fault = none := by
  have hf : (throughMem1 s).fault = none := by
    unfold throughMem1 stageMem1
    split
    · simpa using h0
    · next u hu =>
      have := inRange_iff.mp (hr u (by simpa using hu))
      simp [this, h0]
  exact ⟨by simp [backEnd, hf], hf⟩

theorem backEnd_fault_ok {s : State} (h0 : s.fault = none)
    (hr : ∀ u ∈ s.mem1, InRange s (u.a + u.b)) : (backEnd s).fault = none := by
  obtain ⟨e, hf⟩ := backEnd_ok h0 hr
  rw [e]; simpa using hf

/-- Where MEM1 raises DATA_ADDRESS_RANGE, the back end ends there (R202). -/
theorem backEnd_bad {s : State} {u : MicroOp} (hu : s.mem1 = some u)
    (hr : ¬ InRange s (u.a + u.b)) :
    backEnd s = (stageMul2 (stageMem2 (stageInt2 (stageMul3 (stageMem3 (retireStage s)))))).raise
      .dataAddressRange u.pc ((u.a + u.b).zeroExtend 64) := by
  have e : throughMem1 s = (stageMul2 (stageMem2 (stageInt2 (stageMul3 (stageMem3 (retireStage s)))))).raise
      .dataAddressRange u.pc ((u.a + u.b).zeroExtend 64) := by
    unfold throughMem1
    rw [stageMem1]
    have := mt inRange_iff.mpr hr
    simp [hu, this]; rfl
  rw [backEnd, e, if_pos]
  rfl

theorem not_stopped {s : State} (h : s.stopped = false) : s.fault = none := by
  simp [State.stopped] at h; exact h.1.1.1

theorem step_running {s : State} (h : s.stopped = false) : step s = runCycle s := by
  simp [step, stepOnce, not_stopped h, h]

/-- A core that is stopped answers its fault or its own state. -/
theorem step_stopped {s : State} (h : s.stopped = true) :
    (∃ r, s.fault = some r ∧ step s = .fault r.toFault) ∨ (s.fault = none ∧ step s = .next s) := by
  unfold step stepOnce
  cases hf : s.fault with
  | some r => exact .inl ⟨r, rfl, rfl⟩
  | none => exact .inr ⟨rfl, by simp [h]⟩

/-- Everything a cycle can do (R100): MEM1 faults; or Decode faults; or nothing is in `D`; or `D` holds an
instruction and `exec` runs it. -/
theorem step_cases {s : State} (h : s.stopped = false) :
    (∃ u, s.mem1 = some u ∧ ¬ InRange s (u.a + u.b) ∧ step s = .next (backEnd s).tick) ∨
    ((∀ u ∈ s.mem1, InRange s (u.a + u.b)) ∧ (backEnd s).fault = none ∧
      ((s.d.valid = false ∧ step s = .next (fetchStage (backEnd s)).tick) ∨
       (s.d.valid = true ∧ (∃ e, decode s.d.word = .error e) ∧
          step s = .next ((backEnd s).raise .illegalInstruction s.d.pc s.d.word).tick) ∨
       (s.d.valid = true ∧ ∃ i t, decode s.d.word = .ok i ∧ exec i (backEnd s) = .next t ∧
          t.fault = none ∧ step s = .next (fetchStage t).tick))) := by
  have h0 := not_stopped h
  rw [step_running h]
  by_cases hr : ∀ u ∈ s.mem1, InRange s (u.a + u.b)
  · refine .inr ⟨hr, backEnd_fault_ok h0 hr, ?_⟩
    have hf := backEnd_fault_ok h0 hr
    simp only [runCycle, hf, decodeStage, backEnd_d]
    cases hv : s.d.valid with
    | false => exact .inl ⟨rfl, by simp [finishCycle, hf]⟩
    | true =>
      cases hd : decode s.d.word with
      | error e => exact .inr (.inl ⟨rfl, ⟨e, rfl⟩, by simp [finishCycle]⟩)
      | ok i =>
        obtain ⟨t, ht⟩ := exec_next i (backEnd s)
        have hft : t.fault = none := (exec_fault ht).trans hf
        exact .inr (.inr ⟨rfl, i, t, rfl, ht, hft, by simp [ht, finishCycle, hft]⟩)
  · simp only [not_forall] at hr
    obtain ⟨u, hu, hr⟩ := hr
    have hu : s.mem1 = some u := by simpa using hu
    refine .inl ⟨u, hu, hr, ?_⟩
    rw [runCycle, if_pos]
    rw [backEnd_bad hu hr]; rfl

theorem step_next {s : State} (h : s.stopped = false) : ∃ t, step s = .next t ∧ t.cycle = s.cycle + 1 := by
  rcases step_cases h with ⟨u, -, -, e⟩ | ⟨-, -, ⟨-, e⟩ | ⟨-, -, e⟩ | ⟨-, i, t, -, he, -, e⟩⟩
  · exact ⟨_, e, by simp⟩
  · exact ⟨_, e, by simp⟩
  · exact ⟨_, e, by simp⟩
  · refine ⟨_, e, ?_⟩
    have := congrArg State.cycle (exec_frame he).1
    simp at this
    simp [this]

theorem stageMem3_mem3 (s : State) : (stageMem3 s).mem3 = none := by
  unfold stageMem3; split
  · assumption
  · split <;> rfl

theorem stageMul3_mul3 (s : State) : (stageMul3 s).mul3 = none := by
  unfold stageMul3; split
  · assumption
  · rfl

theorem stageInt2_int2 (s : State) : (stageInt2 s).int2 = none := by
  unfold stageInt2; split
  · assumption
  · rfl

/-- The state after the middle stages: the final latches are free, and the records of the middle ones
stand in them (R126). -/
theorem middle_eq (s : State) :
    ∃ g, g = stageInt2 (stageMul3 (stageMem3 (retireStage s))) ∧
      stageMul2 (stageMem2 g) =
        { g with mem3 := s.mem2, mul3 := s.mul2, mem2 := none, mul2 := none } ∧ g.int2 = none := by
  refine ⟨_, rfl, ?_, stageInt2_int2 _⟩
  rw [stageMem2_eq (by simp [stageMem3_mem3]), stageMul2_eq (by simp [stageMul3_mul3])]
  simp

/-- The state before issue, where MEM1 raises nothing (R126 to R129). -/
theorem first_eq {s : State} (hr : ∀ u ∈ s.mem1, InRange s (u.a + u.b)) :
    ∃ g, g = stageInt2 (stageMul3 (stageMem3 (retireStage s))) ∧
      stageInt1 (stageMul1 (throughMem1 s)) =
        { g with
          int2 := s.int1.map MicroOp.computed
          mul2 := s.mul1.map MicroOp.computed
          mem2 := s.mem1.map MicroOp.addressed
          mul3 := s.mul2
          mem3 := s.mem2
          int1 := none
          mul1 := none
          mem1 := none } := by
  obtain ⟨g, hg, e, hi⟩ := middle_eq s
  refine ⟨g, hg, ?_⟩
  have h1 : g.mem1 = s.mem1 ∧ g.int1 = s.int1 ∧ g.mul1 = s.mul1 ∧ g.launch = s.launch := by
    rw [hg]; simp
  have ht : throughMem1 s = stageMem1 (stageMul2 (stageMem2 g)) := by rw [hg]; rfl
  rw [ht, e]
  rcases stageMem1_cases (s := { g with mem3 := s.mem2, mul3 := s.mul2, mem2 := none, mul2 := none })
    rfl with ⟨u, hu, hb, -⟩ | ⟨-, e'⟩
  · simp only [h1] at hu hb
    have := inRange_iff.mp (hr u (by simp [hu]))
    simp [hb] at this
  · rw [e', stageMul1_eq rfl, stageInt1_eq (by simpa using hi)]
    simp [h1]


theorem stageMem3_ring (s : State) : (stageMem3 s).rob.head = s.rob.head ∧
    (stageMem3 s).rob.tail = s.rob.tail ∧ (stageMem3 s).rob.count = s.rob.count := by
  unfold stageMem3; split
  · exact ⟨rfl, rfl, rfl⟩
  · split <;> exact ⟨rfl, rfl, rfl⟩

theorem stageMul3_ring (s : State) : (stageMul3 s).rob.head = s.rob.head ∧
    (stageMul3 s).rob.tail = s.rob.tail ∧ (stageMul3 s).rob.count = s.rob.count := by
  unfold stageMul3; split <;> exact ⟨rfl, rfl, rfl⟩

theorem stageInt2_ring (s : State) : (stageInt2 s).rob.head = s.rob.head ∧
    (stageInt2 s).rob.tail = s.rob.tail ∧ (stageInt2 s).rob.count = s.rob.count := by
  unfold stageInt2; split <;> exact ⟨rfl, rfl, rfl⟩


/-- After the final stages no step of the back end writes the ROB, a register, Z or memory. -/
theorem backEnd_final (s : State) :
    ∃ g, g = stageInt2 (stageMul3 (stageMem3 (retireStage s))) ∧ (backEnd s).rob = g.rob ∧
      (backEnd s).regs = g.regs ∧ (backEnd s).z = g.z ∧ (backEnd s).mem = g.mem ∧
      (backEnd s).completed = g.completed ∧ (backEnd s).ret = g.ret ∧
      (backEnd s).halted = g.halted := by
  refine ⟨_, rfl, ?_⟩
  unfold backEnd
  split <;> simp [throughMem1, fromMul1]

/-- After Retire nothing of the back end writes what Retire wrote but entries of the ROB. -/
theorem backEnd_retire (s : State) :
    (backEnd s).completed = (retireStage s).completed ∧ (backEnd s).ret = (retireStage s).ret ∧
    (backEnd s).halted = (retireStage s).halted ∧ (backEnd s).rob.head = (retireStage s).rob.head ∧
    (backEnd s).rob.tail = (retireStage s).rob.tail ∧
    (backEnd s).rob.count = (retireStage s).rob.count := by
  obtain ⟨g, hg, e1, -, -, -, e5, e6, e7⟩ := backEnd_final s
  rw [e1, e5, e6, e7, hg]
  have h1 := stageMem3_ring (retireStage s)
  have h2 := stageMul3_ring (stageMem3 (retireStage s))
  have h3 := stageInt2_ring (stageMul3 (stageMem3 (retireStage s)))
  refine ⟨by simp, by simp, by simp, ?_, ?_, ?_⟩
  · rw [h3.1, h2.1, h1.1]
  · rw [h3.2.1, h2.2.1, h1.2.1]
  · rw [h3.2.2, h2.2.2, h1.2.2]

@[simp] theorem retireStage_tail (s : State) : (retireStage s).rob.tail = s.rob.tail := by
  unfold retireStage; split <;> rfl

@[simp] theorem backEnd_tail (s : State) : (backEnd s).rob.tail = s.rob.tail := by
  rw [(backEnd_retire s).2.2.2.2.1, retireStage_tail]

/-- What a cycle writes to registers, Z and memory, its final stages write (R27, R32, R62). -/
theorem step_final {s t : State} (ht : step s = .next t) : t = s ∨
    (s.stopped = false ∧ (∀ r, t.reg r = (backEnd s).reg r) ∧ t.z.value = (backEnd s).z.value ∧ t.mem = (backEnd s).mem) := by
  cases hs : s.stopped with
  | true =>
    rcases step_stopped hs with ⟨r, -, e⟩ | ⟨-, e⟩ <;> rw [e] at ht <;> cases ht
    exact .inl rfl
  | false =>
    refine .inr ⟨rfl, ?_⟩
    rcases step_cases hs with ⟨v, hv, hn', e⟩ | ⟨hr', hf0, ⟨hd, e⟩ | ⟨hd, hde, e⟩ | ⟨hd, i, x, hi, he, hx, e⟩⟩ <;>
      (rw [e] at ht; cases ht)
    · exact ⟨fun _ => rfl, rfl, rfl⟩
    · exact ⟨fun r => by simp [State.reg], by simp, by simp⟩
    · exact ⟨fun _ => rfl, rfl, rfl⟩
    · obtain ⟨h1, h2, h3⟩ := exec_values he
      refine ⟨fun r => ?_, ?_, ?_⟩
      · rw [← h1]; simp [State.reg]
      · rw [← h2]; simp
      · rw [← h3]; simp

/-- R121: what a unit takes is a candidate of least age. -/
theorem oldest_min {fu : FuncUnit} {age : Nat → Nat} {q : IssueQueue} {n k : Nat}
    {u : MicroOp} (h : q.oldest fu age n = some (k, u)) :
    ∀ e, some e ∈ q → e.candidate fu = true → age u.rob ≤ age e.u.rob := by
  induction q generalizing n k u with
  | nil => simp
  | cons x t ih =>
    cases x with
    | none => simpa [IssueQueue.oldest] using ih (by simpa [IssueQueue.oldest] using h)
    | some y =>
      unfold IssueQueue.oldest at h
      intro e he hc
      split at h
      · next hy =>
        split at h
        · next hn =>
          simp at h; obtain ⟨-, rfl⟩ := h
          rcases List.mem_cons.mp he with he | he
          · simp at he; subst he; exact le_refl _
          · have := IssueQueue.oldest_none hn e he; simp [hc] at this
        · next best hb =>
          have hm := ih (k := best.1) (u := best.2) hb
          split at h
          · simp at h; subst h
            rcases List.mem_cons.mp he with he | he
            · simp at he; subst he; simp at *; omega
            · exact hm e he hc
          · simp at h; obtain ⟨-, rfl⟩ := h
            rcases List.mem_cons.mp he with he | he
            · simp at he; subst he; exact le_refl _
            · have := hm e he hc; omega
      · next hy =>
        rcases List.mem_cons.mp he with he | he
        · simp at he; subst he; simp [hc] at hy
        · exact ih h e he hc

/-- Records in age order with one index are one record (R140). -/
theorem pairwise_inj {l : List MicroOp} {f : MicroOp → Nat} (h : l.Pairwise fun y o => f o < f y) {u v : MicroOp}
    (hu : u ∈ l) (hv : v ∈ l) (e : f u = f v) : u = v := by
  induction h with
  | nil => simp at hu
  | @cons a t h1 _ ih =>
    simp only [List.mem_cons] at hu hv
    rcases hu with rfl | hu <;> rcases hv with rfl | hv
    · rfl
    · have := h1 _ hv; omega
    · have := h1 _ hu; omega
    · exact ih hu hv

/-- A memory instruction with a destination is a load (R114). -/
theorem isLoad_of_hasDest {op : Opcode} (h : unitOf op = .mem) (h2 : hasDest op = true) : isLoad op = true := by
  revert h h2; cases op <;> simp [unitOf, isLoad, hasDest]

/-- Fetch leaves the PC or moves it on by one record (R111). -/
theorem fetch_pc (x : State) : (fetchStage x).pc = x.pc ∨ (fetchStage x).pc = x.pc + 4 := by
  have hh : (handed x).pc = x.pc := by unfold handed; split <;> rfl
  have hp : ∀ x : State, (State.passOn x).pc = x.pc := by intro x; unfold State.passOn; split <;> rfl
  rcases fetch_cases x with ⟨h, e⟩ | ⟨h, h', e⟩ | ⟨h, h', ⟨h'', e⟩ | ⟨h'', -, e⟩ | ⟨h'', w, -, e⟩⟩ <;> rw [e] <;> simp [hh]

/-- R110: after the halt flag Fetch does nothing but clear its stall bit. -/
theorem fetch_halted {s : State} (h : s.haltFetch = true) : fetchStage s = s.unstallFetch := by
  rcases fetch_cases s with ⟨-, e⟩ | ⟨h', -⟩ | ⟨h', -⟩
  · exact e
  · simp [h] at h'
  · simp [h] at h'

end Sys2Proof.Machine
end

