-- ==== Sys2Proof/Laws/Sequential.lean ====
section
/-! SUPPORT. The sequential view (spec/40_pipeline.md R144): no stage of a cycle changes it but a dispatch,
which advances it by the one instruction dispatched. -/

namespace Sys2Proof.Machine

theorem Arch.get_set (A : Arch) (r i : RegNum) (v : Word) :
    (A.set r v).get i = if r = i then v else A.get i := by
  unfold Arch.get Arch.set
  rw [Vector.getElem_set]
  simp [BitVec.toNat_inj]

@[simp] theorem Arch.set_mem (A : Arch) (r : RegNum) (v : Word) : (A.set r v).mem = A.mem := rfl
@[simp] theorem Arch.set_z (A : Arch) (r : RegNum) (v : Word) : (A.set r v).z = A.z := rfl
@[simp] theorem Arch.setZ_mem (A : Arch) (r : RegNum) (v : Word) : (A.setZ r v).mem = A.mem := rfl
@[simp] theorem Arch.setZ_z (A : Arch) (r : RegNum) (v : Word) :
    (A.setZ r v).z = decide (v = 0) := rfl
@[simp] theorem Arch.get_setZ (A : Arch) (r i : RegNum) (v : Word) :
    (A.setZ r v).get i = (A.set r v).get i := rfl
@[simp] theorem Arch.store_mem (A : Arch) (a v : Word) :
    (A.store a v).mem = memWrite A.mem a.toNat v := rfl
@[simp] theorem Arch.store_z (A : Arch) (a v : Word) : (A.store a v).z = A.z := rfl
@[simp] theorem Arch.store_get (A : Arch) (a v : Word) (i : RegNum) :
    (A.store a v).get i = A.get i := rfl

theorem Arch.ext_get {A B : Arch} (hr : ∀ i, A.get i = B.get i) (hz : A.z = B.z)
    (hm : A.mem = B.mem) : A = B := by
  cases A with | mk ar az am =>
  cases B with | mk br bz bm =>
  simp at hz hm; subst hz hm
  congr
  apply Vector.ext
  intro k hk
  have := hr (BitVec.ofNat 5 k)
  have hkk : (BitVec.ofNat 5 k).toNat = k := by simp; omega
  simpa [Arch.get, hkk] using this

/-- A record's effect on a register: its own result, or nothing. -/
theorem finish_get (u : MicroOp) (A : Arch) (i : RegNum) :
    (u.finish A).get i = if u.writes i then
      (if isLoad u.op then A.load (effectiveAddress u) else compute u) else A.get i := by
  have hop : hasDest u.op = (isLoad u.op || (!isMem u.op && hasDest u.op)) := by
    cases u.op <;> rfl
  have hsz : setsZ u.op = true → hasDest u.op = true := by cases u.op <;> simp [setsZ, hasDest]
  have hlm : isLoad u.op = true → isMem u.op = true := by cases u.op <;> simp [isLoad, isMem]
  have hlm2 : isMem u.op = true → isLoad u.op = false → hasDest u.op = false := by
    cases u.op <;> simp [isLoad, isMem, hasDest]
  have hld : isLoad u.op = true → hasDest u.op = true := by cases u.op <;> simp [isLoad, hasDest]
  unfold MicroOp.finish MicroOp.writes
  by_cases hl : isLoad u.op
  · simp [hl, hld hl, Arch.get_set]
  · by_cases hm : isMem u.op
    · simp [hl, hm, hlm2 hm (by simpa using hl)]
    · by_cases hs : setsZ u.op
      · simp [hl, hm, hs, hsz hs, Arch.get_set]
      · by_cases hd : hasDest u.op <;> simp [hl, hm, hs, hd, Arch.get_set]

theorem finish_z (u : MicroOp) (A : Arch) :
    (u.finish A).z = if setsZ u.op then decide (compute u = 0) else A.z := by
  have hsz : setsZ u.op = true → isLoad u.op = false ∧ isMem u.op = false := by
    cases u.op <;> simp [setsZ, isLoad, isMem]
  unfold MicroOp.finish
  by_cases hs : setsZ u.op
  · simp [hs, hsz hs]
  · simp [hs]; split
    · rfl
    · split
      · rfl
      · split <;> rfl

theorem finish_mem (u : MicroOp) (A : Arch) :
    (u.finish A).mem = if isMem u.op && !isLoad u.op then
      memWrite A.mem (effectiveAddress u).toNat u.d else A.mem := by
  unfold MicroOp.finish
  by_cases hl : isLoad u.op
  · simp [hl]
  · by_cases hm : isMem u.op
    · simp [hl, hm]
    · simp [hl, hm]; split
      · rfl
      · split <;> rfl

/-- The in-flight records decide every register they write, and Z; the rest comes from what was
written before them. -/
theorem foldr_finish_congr {L : List MicroOp} {A B : Arch}
    (hr : ∀ i, L.find? (fun u => u.writes i) = none → A.get i = B.get i)
    (hz : L.find? (fun u => setsZ u.op) = none → A.z = B.z) (hm : A.mem = B.mem) :
    L.foldr MicroOp.finish A = L.foldr MicroOp.finish B := by
  induction L using List.reverseRecOn generalizing A B with
  | nil => exact Arch.ext_get (fun i => hr i rfl) (hz rfl) hm
  | append_singleton L u ih =>
    simp only [List.foldr_append, List.foldr_cons, List.foldr_nil]
    apply ih
    · intro i hn
      rw [finish_get, finish_get]
      by_cases hw : u.writes i
      · simp [hw, Arch.load, hm]
      · simp [hw]; exact hr i (by simp [List.find?_append, hn, hw])
    · intro hn
      rw [finish_z, finish_z]
      by_cases hs : setsZ u.op
      · simp [hs]
      · simp [hs]; exact hz (by simp [List.find?_append, hn, hs])
    · rw [finish_mem, finish_mem, hm]

theorem written_get (s : State) (i : RegNum) : s.written.get i = s.reg i := by
  simp [State.written, Arch.get, State.reg, Scoreboard.entry]

theorem foldr_get {L : List MicroOp} {A : Arch} {i : RegNum}
    (h : L.find? (fun u => u.writes i) = none) : (L.foldr MicroOp.finish A).get i = A.get i := by
  induction L with
  | nil => rfl
  | cons u t ih =>
    rw [List.find?_cons] at h
    split at h
    · simp at h
    · next hw => simp [List.foldr_cons, finish_get, hw, ih h]

theorem foldr_z {L : List MicroOp} {A : Arch}
    (h : L.find? (fun u => setsZ u.op) = none) : (L.foldr MicroOp.finish A).z = A.z := by
  induction L with
  | nil => rfl
  | cons u t ih =>
    rw [List.find?_cons] at h
    split at h
    · simp at h
    · next hw => simp [List.foldr_cons, finish_z, hw, ih h]

/-- A valid register holds its sequential value (R142, R144). -/
theorem arch_get {s : State} (h : Body s) {i : RegNum} (hv : s.regValid i = true) :
    s.arch.get i = s.reg i := by
  have : s.inFlight.find? (fun u => u.writes i) = none := by
    cases hp : s.inFlight.find? (fun u => u.writes i) with
    | none => rfl
    | some u => have := (h.tracks.held i u hp).1; simp [State.regValid, this] at hv
  rw [State.arch, foldr_get this, written_get]

theorem arch_z {s : State} (h : Body s) (hv : s.z.valid = true) : s.arch.z = s.z.value := by
  have : s.inFlight.find? (fun u => setsZ u.op) = none := by
    cases hp : s.inFlight.find? (fun u => setsZ u.op) with
    | none => rfl
    | some u => have := (h.tracks.z_held u hp).1; simp [this] at hv
  rw [State.arch, foldr_z this]; rfl

theorem finish_congr {u v : MicroOp} (h : u.op = v.op ∧ u.rd = v.rd ∧ u.imm = v.imm ∧ u.a = v.a ∧ u.b = v.b ∧ u.d = v.d) :
    u.finish = v.finish := by
  funext A
  unfold MicroOp.finish compute effectiveAddress
  simp [h]

/-- The writeback of the oldest in-flight record leaves the sequential view as it was. -/
theorem writeback_arch {L : List MicroOp} {u : MicroOp} {s : State}
    (ht : Tracks (L ++ [u]) s.rob s.launch.robSize s.regs s.z)
    (hm : isMem u.op = false ∨ isLoad u.op = true)
    (hres : u.result = if isLoad u.op then memRead s.mem (effectiveAddress u).toNat else compute u) :
    L.foldr MicroOp.finish (s.writeback u).written = (L ++ [u]).foldr MicroOp.finish s.written := by
  simp only [List.foldr_append, List.foldr_cons, List.foldr_nil]
  apply foldr_finish_congr
  · intro i hn
    rw [written_get, finish_get, written_get]
    have hreg : (s.writeback u).reg i = if u.writes i = true ∧ s.regTag i = u.rob ∧ s.regValid i = false then u.result else s.reg i := by
      unfold State.reg State.regTag State.regValid
      by_cases hd : hasDest u.op
      · simp only [State.writeback_regs, hd, if_true, Scoreboard.entry_writeback, MicroOp.writes]
        simp only [Bool.true_and, decide_eq_true_eq]
        split <;> rfl
      · simp [hd, MicroOp.writes]
    rw [hreg]
    cases hw : u.writes i with
    | true =>
      obtain ⟨hv, ht'⟩ := ht.held i u (by simp [List.find?_append, hn, hw])
      simp [State.regTag, State.regValid, hv, ht', hres, Arch.load, State.written]
    | false => simp
  · intro hn
    rw [finish_z]
    cases hs : setsZ u.op with
    | true =>
      obtain ⟨hv, ht'⟩ := ht.z_held u (by simp [List.find?_append, hn, hs])
      have : isLoad u.op = false := by revert hs; cases u.op <;> simp [setsZ, isLoad]
      simp [State.written, hs, ZEntry.writeback, hv, ht', zeroFlag, hres, this]
    | false => simp [State.written, hs]
  · rw [finish_mem]
    rcases hm with hm | hm <;> simp [State.written, hm]

theorem retire_arch (s : State) : (retireStage s).arch = s.arch := by
  unfold State.arch State.written
  simp [State.inFlight, State.waiting, State.inStage1, State.inStage2, State.inStage3]

theorem stageMem3_arch {s : State} (h : Body s) : (stageMem3 s).arch = s.arch := by
  unfold stageMem3
  split
  · rfl
  next u hu =>
  obtain ⟨hm, hf⟩ := inFlight_mem3 hu h.convoy
  obtain ⟨hunit, hea, hr⟩ := h.units.mem3 u hu
  obtain ⟨hz, hd, hmem⟩ := loadStore_flags hunit
  have ht := h.tracks
  rw [hf] at ht
  have hfin : (u.loaded s.mem).finish = u.finish := finish_congr ⟨rfl, rfl, rfl, rfl, rfl, rfl⟩
  split
  · next hl =>
    have ht' : Tracks ((s.waiting ++ s.inStage1 ++ s.inStage2) ++ [u.loaded s.mem]) s.rob s.launch.robSize s.regs s.z :=
      ht.congr (by simp [MicroOp.key, MicroOp.loaded])
    have := writeback_arch ht' (.inr hl) (by
      have : (effectiveAddress (u.loaded s.mem)) = effectiveAddress u := rfl
      simp [MicroOp.loaded, hl, hea, effectiveAddress])
    have e1 : State.arch { s.writeback (u.loaded s.mem) with mem3 := none } =
        (s.waiting ++ s.inStage1 ++ s.inStage2).foldr MicroOp.finish (s.writeback (u.loaded s.mem)).written := by
      unfold State.arch
      congr 1
      simp [State.inFlight, State.inStage3, hm, State.waiting, State.inStage1, State.inStage2]
    rw [e1, this, State.arch, hf]
    simp [hfin]
  · next hl =>
    have e1 : State.arch { s.memStore u with mem3 := none } =
        (s.waiting ++ s.inStage1 ++ s.inStage2).foldr MicroOp.finish (s.memStore u).written := by
      unfold State.arch
      congr 1
      simp [State.inFlight, State.inStage3, hm, State.waiting, State.inStage1, State.inStage2]
    have e2 : (s.memStore u).written = u.finish s.written := by
      simp [MicroOp.finish, hl, hmem, State.written, Arch.store, hea]
    rw [e1, e2, State.arch, hf]
    simp

theorem stageMul3_arch {s : State} (h : Body s) (h3 : s.mem3 = none) : (stageMul3 s).arch = s.arch := by
  unfold stageMul3
  split
  · rfl
  next u hu =>
  have ht := h.tracks
  have hf : s.inFlight = (s.waiting ++ s.inStage1 ++ s.inStage2) ++ [u] := by
    simp [State.inFlight, State.inStage3, hu, h3]
  rw [hf] at ht
  obtain ⟨hunit, hres⟩ := h.units.mul3 u hu
  have hop : isMem u.op = false ∧ isLoad u.op = false := by
    revert hunit; cases u.op <;> simp [unitOf, isMem, isLoad]
  have := writeback_arch ht (.inl hop.1) (by simpa [hop] using hres)
  have e1 : State.arch { s.writeback u with mul3 := none } =
      (s.waiting ++ s.inStage1 ++ s.inStage2).foldr MicroOp.finish (s.writeback u).written := by
    unfold State.arch
    congr 1
    simp [State.inFlight, State.inStage3, h3, State.waiting, State.inStage1, State.inStage2]
  rw [e1, this, State.arch, hf]

theorem stageInt2_arch {s : State} (h : Body s) (h3 : s.mul3 = none ∧ s.mem3 = none) : (stageInt2 s).arch = s.arch := by
  unfold stageInt2
  split
  · rfl
  next u hu =>
  have ht := h.tracks
  have h2 : s.mul2 = none ∧ s.mem2 = none := by
    have := h.convoy.stage2
    simp [State.inStage2, hu] at this
    cases hm : s.mul2 <;> cases hm' : s.mem2 <;> simp_all
  have hf : s.inFlight = (s.waiting ++ s.inStage1) ++ [u] := by
    simp [State.inFlight, State.inStage2, State.inStage3, hu, h3, h2]
  rw [hf] at ht
  obtain ⟨hunit, hres⟩ := h.units.int2 u hu
  have hop : isMem u.op = false ∧ isLoad u.op = false := by
    revert hunit; cases u.op <;> simp [unitOf, isMem, isLoad]
  have := writeback_arch ht (.inl hop.1) (by simpa [hop] using hres)
  have e1 : State.arch { s.writeback u with int2 := none } =
      (s.waiting ++ s.inStage1).foldr MicroOp.finish (s.writeback u).written := by
    unfold State.arch
    congr 1
    simp [State.inFlight, State.inStage3, h3, h2, State.waiting, State.inStage1, State.inStage2]
  rw [e1, this, State.arch, hf]

theorem final_arch {s : State} (h : Body s) :
    (stageInt2 (stageMul3 (stageMem3 (retireStage s)))).arch = s.arch := by
  obtain ⟨h1, e1⟩ := stageMem3_body (retire_body h)
  obtain ⟨h2, e2, e3⟩ := stageMul3_body h1 e1
  rw [stageInt2_arch h2 ⟨e2, e3⟩, stageMul3_arch h1 e1, stageMem3_arch (retire_body h), retire_arch]

theorem backEnd_arch {s : State} (h : Body s) (h0 : s.fault = none) : (backEnd s).arch = s.arch := by
  obtain ⟨hF, f2, f3, f4⟩ := final_body h
  obtain ⟨hG, gl, g2⟩ := middle_body hF f2 f3 f4
  have hfin := final_arch h
  set F := stageInt2 (stageMul3 (stageMem3 (retireStage s))) with hFdef
  set G := stageMul2 (stageMem2 F) with hGdef
  have ht : throughMem1 s = stageMem1 G := rfl
  have g2' : G.int2 = none ∧ G.mul2 = none ∧ G.mem2 = none := by
    simpa [State.inStage2] using g2
  have hGa : G.arch = s.arch := by
    rw [← hfin, State.arch, gl, State.arch]; simp [State.written, hGdef]
  rw [← hGa]
  unfold backEnd
  rw [ht]
  split
  · next hfault =>
    rcases stageMem1_cases g2'.2.2 with ⟨u, -, -, e⟩ | ⟨-, e⟩
    · rw [e]; rfl
    · rw [e] at hfault ⊢
      simp [hGdef, hFdef, h0] at hfault
  · next hfault =>
    rcases stageMem1_cases g2'.2.2 with ⟨u, -, -, e⟩ | ⟨hr, e⟩
    · rw [e] at hfault; simp at hfault
    · obtain ⟨hK, k1⟩ := firstDone_body hG g2 hr
      have hk : stageInt1 (stageMul1 (stageMem1 G)) = firstDone G := by
        rw [e, stageMul1_eq (by simpa using g2'.2.1), stageInt1_eq (by simpa using g2'.1)]
        rfl
      unfold fromMul1
      rw [hk]
      obtain ⟨t, et, hw, hs1, -⟩ := issue_cases hK k1
      rw [et]
      subst et
      have h1 : (issueMul (issueInt (issueLsq (firstDone G)))).inFlight = (firstDone G).inFlight := by
        simp only [State.inFlight, hw, hs1, k1]
        simp [State.inStage2, State.inStage3]
      have h2 : ∀ A, (firstDone G).inFlight.foldr MicroOp.finish A = G.inFlight.foldr MicroOp.finish A := by
        intro A
        simp only [State.inFlight, List.foldr_append, g2, k1]
        have hm : ∀ (o : Option MicroOp) (f : MicroOp → MicroOp), (∀ u, (f u).finish = u.finish) →
            ∀ A, (o.map f).toList.foldr MicroOp.finish A = o.toList.foldr MicroOp.finish A := by
          intro o f hf A; cases o <;> simp [hf]
        simp [firstDone, State.waiting, State.inStage1, State.inStage2, State.inStage3,
          hm _ MicroOp.computed (fun _ => finish_congr ⟨rfl, rfl, rfl, rfl, rfl, rfl⟩), hm _ MicroOp.addressed (fun _ => finish_congr ⟨rfl, rfl, rfl, rfl, rfl, rfl⟩)]
      rw [State.arch, h1, h2, State.arch]
      simp [State.written, firstDone]

theorem mulResult_eq (a b : Word) : mulResult a b = a * b := by
  unfold mulResult
  apply BitVec.eq_of_toInt_eq
  simp [BitVec.toInt_mul]

/-- The record an instruction dispatches does, once finished, what the instruction means. -/
theorem finish_operandRead {s : State} {i : Instr} {A : Arch} {t : State}
    (ht : t = examined i s)
    (hs : ∀ r ∈ (shapeOf i).sources, A.get r = t.reg r) :
    ((shapeOf i).operandRead t).finish A = seqExec i A := by
  cases i <;> simp only [shapeOf, Shape.sources, Operand.source, aluRegShape, aluLitShape, movcShape, loadShape, ldrShape, storeShape, strShape, branchShape, jumpShape, haltShape, List.append_nil, List.nil_append, List.cons_append, List.mem_cons, List.not_mem_nil, or_false, forall_eq_or_imp, forall_eq] at hs <;>
    simp [shapeOf, aluRegShape, aluLitShape, movcShape, loadShape, ldrShape, storeShape, strShape, branchShape, jumpShape, haltShape, Shape.operandRead, Operand.read, MicroOp.finish, isLoad, isMem, setsZ, hasDest, compute, effectiveAddress, seqExec, hs, addResult, subResult, andResult, orResult, xorResult, mulResult_eq, movcResult]

theorem examined_same (i : Instr) (s : State) : (examined i s).regs = s.regs ∧ (examined i s).z = s.z ∧
    (examined i s).inFlight = s.inFlight ∧ (examined i s).mem = s.mem ∧ (examined i s).d = s.d ∧ (examined i s).pc = s.pc := by
  rcases examined_cases i s with ⟨-, e⟩ | ⟨-, e⟩ <;> rw [e] <;> exact ⟨rfl, rfl, rfl, rfl, rfl, rfl⟩

theorem exec_arch {s t : State} {i : Instr} (h : Body s) (hw : s.waiting = []) (he : exec i s = .next t) :
    (t.arch = s.arch ∧ t = (examined i s).stallDecode) ∨
    (t.arch = seqExec i s.arch ∧ t.d.valid = false ∧ ∀ _ : i ≠ .halt,
      t.haltFetch = s.haltFetch ∧
      ((t.pc = s.pc ∧ t.f = s.f ∧ seqNext i s.arch s.d.pc = s.d.pc + 4) ∨ (t.pc = seqNext i s.arch s.d.pc ∧ t.f.valid = false))) := by
  rw [exec_eq] at he
  obtain ⟨x1, x2, x3, x4, x5, x6⟩ := examined_same i s
  have hx : Body (examined i s) ∧ (examined i s).waiting = [] := by
    rcases examined_cases i s with ⟨-, e⟩ | ⟨-, e⟩ <;> rw [e]
    · exact ⟨h, hw⟩
    · exact ⟨stopFetch_body h, hw⟩
  have hxa : (examined i s).arch = s.arch := by simp [State.arch, State.written, x1, x2, x3, x4]
  unfold dispatch at he
  split at he
  · simp at he; subst he
    exact .inl ⟨by rw [← hxa]; rfl, rfl⟩
  · next hz =>
    simp at hz
    simp at he; subst he
    refine .inr ?_
    obtain ⟨hdz, hsz⟩ := hz
    have hb := allocate_waiting (u := (shapeOf i).operandRead (examined i s)) hx.1 hx.2 hsz
    simp only [dataHazard, Bool.or_eq_false_iff, List.any_eq_false, Bool.not_eq_eq_eq_not, Bool.not_true] at hdz
    have hsrc : ∀ r ∈ (shapeOf i).sources, s.arch.get r = (examined i s).reg r := by
      intro r hr
      have hv : (examined i s).regValid r = true := by simpa using hdz.1 r hr
      rw [← hxa]; exact arch_get hx.1 hv
    have hfin := finish_operandRead (i := i) (A := s.arch) rfl hsrc
    have hal : ((examined i s).allocate ((shapeOf i).operandRead (examined i s))).arch = seqExec i s.arch := by
      rw [← hfin, ← hxa]
      unfold State.arch
      have : ((examined i s).allocate ((shapeOf i).operandRead (examined i s))).inFlight = (shapeOf i).operandRead (examined i s) :: (examined i s).inFlight := by
        simp only [State.inFlight, hb]
        simp [hx.2, State.inStage1, State.inStage2, State.inStage3]
      rw [this, List.foldr_cons]
      set u := (shapeOf i).operandRead (examined i s)
      have hwr : ((examined i s).allocate u).written = (examined i s).written := by
        have hreg : ∀ r, ((examined i s).allocate u).written.get r = (examined i s).written.get r := by
          intro r
          rw [written_get, written_get]
          unfold State.reg
          simp only [State.allocate_regs]
          split
          · rw [Scoreboard.entry_invalidate]; split <;> rfl
          · rfl
        refine Arch.ext_get hreg ?_ rfl
        simp only [State.written, State.allocate_z]
        split <;> rfl
      rw [hwr]
    have hz' : readsZ (shapeOf i).op = true → s.arch.z = s.z.value := by
      intro hr
      have := hdz.2
      simp [hr] at this
      rw [arch_z h (by rw [← x2]; exact this)]
    refine ⟨?_, by simp [FrontLatch.clear], ?_⟩
    · rcases effect_cases i ((shapeOf i).operandRead (examined i s)) ((examined i s).allocate ((shapeOf i).operandRead (examined i s))) with e | ⟨w, e⟩ <;> rw [e]
      · exact hal
      · exact hal
    · intro hh
      have e0 : examined i s = s := by rcases examined_cases i s with ⟨-, e⟩ | ⟨e, -⟩ <;> [exact e; exact absurd e hh]
      rw [e0]
      cases i <;> first
        | exact ⟨by simp [effectOf, noEffect], .inl ⟨by simp [effectOf, noEffect], by simp [effectOf, noEffect], rfl⟩⟩
        | skip
      · have hzz := hz' rfl
        simp only [effectOf, bzEffect, seqNext, hzz]
        by_cases hv : s.z.value
        · simp [shapeOf, branchShape, Shape.operandRead, setsZ, hv, FrontLatch.clear]
        · simp [shapeOf, branchShape, Shape.operandRead, setsZ, hv]
      · have hzz := hz' rfl
        simp only [effectOf, bnzEffect, seqNext, hzz]
        by_cases hv : s.z.value
        · simp [shapeOf, branchShape, Shape.operandRead, setsZ, hv]
        · simp [shapeOf, branchShape, Shape.operandRead, setsZ, hv, FrontLatch.clear]
      · rename_i rs1 imm
        have hr := hsrc rs1 (by simp [shapeOf, jumpShape, Shape.sources, Operand.source])
        rw [e0] at hr
        refine ⟨rfl, .inr ⟨?_, by simp [effectOf, jumpEffect, FrontLatch.clear]⟩⟩
        simp [effectOf, jumpEffect, shapeOf, jumpShape, Shape.operandRead, Operand.read, seqNext, hr]

theorem fetchStage_arch (s : State) : (fetchStage s).arch = s.arch := by
  have hi : (fetchStage s).inFlight = s.inFlight := by
    simp [State.inFlight, State.waiting, State.inStage1, State.inStage2, State.inStage3]
  simp [State.arch, hi, State.written]

theorem fetchRecord_nextPc (s : State) (hf : s.f.valid = false) (hd : s.d.valid = false) : (fetchRecord s).nextPc = s.pc := by
  unfold fetchRecord
  split
  · split
    · simp [State.nextPc, hf, hd]
    · simp [State.passOn, hd, State.nextPc, FrontLatch.fill]
  · simp [State.nextPc, hf, hd]

theorem fetchRecord_nextPc' (s : State) (hd : s.d.valid = true) : (fetchRecord s).nextPc = s.d.pc := by
  unfold fetchRecord
  split
  · split
    · simp [State.nextPc, hd]
    · simp [State.passOn, hd, State.nextPc]
  · simp [State.nextPc, hd]

/-- Fetch never changes which instruction dispatches next. -/
theorem fetchStage_nextPc {s : State} : (fetchStage s).nextPc = s.nextPc := by
  have h : s.unstallFetch.nextPc = s.nextPc := rfl
  rw [← h]
  unfold fetchStage fetchBody
  split
  · rfl
  · split
    · split
      · next hd => simp at hd; simp [State.nextPc, hd]
      · next hf hd =>
        rw [fetchRecord_nextPc' _ (by simp [FrontLatch.fill])]
        simp at hf hd
        simp [State.nextPc, FrontLatch.fill, hf, hd]
    · next hf =>
      simp at hf
      cases hd : s.d.valid
      · rw [fetchRecord_nextPc _ (by simpa using hf) (by simpa using hd)]; simp [State.nextPc, hd, hf]
      · rw [fetchRecord_nextPc' _ (by simpa using hd)]; simp [State.nextPc, hd]

end Sys2Proof.Machine
end

