-- ==== Sys2Proof/Laws/Alone.lean ====
section
/-! SUPPORT. An instruction alone in the core: from Decode to its writeback in two cycles and the depth of its
unit (spec/40_pipeline.md R131), and what it leaves. -/

namespace Sys2Proof.Machine

/-- Nothing is left to fetch or decode: `k` cycles after `s`, with one instruction in the ROB. -/
structure Quiet (s : State) (op : Opcode) (k : Nat) (t : State) : Prop where
  inv : Inv t
  decode : t.d.valid = false
  fetch : t.f.valid = false
  path : t.haltFetch = true ∨ (pcWellFormed t.launch t.pc = true ∧ codeAt t.launch t.pc = none)
  launch : t.launch = s.launch
  fault : t.fault = none
  halted : t.halted = s.halted
  completed : t.completed = s.completed
  cycle : t.cycle = s.cycle + BitVec.ofNat 64 k
  count : t.rob.count = 1
  head : t.rob.head = s.rob.tail
  entry : ∃ e, t.rob.at? s.rob.tail = some e ∧ e.pc = s.d.pc ∧ e.op = op

theorem Quiet.running {s t : State} {op : Opcode} {k : Nat} (q : Quiet s op k t) (h : s.stopped = false)
    (hb : ∀ n ∈ s.launch.cycleBudget, s.cycle.toNat + 5 ≤ n) (hk : k < 5) : t.stopped = false := by
  simp only [State.stopped, Bool.or_eq_false_iff] at h ⊢
  obtain ⟨⟨⟨-, h2⟩, h3⟩, h4⟩ := h
  refine ⟨⟨⟨by simp [q.fault], by simpa [q.halted] using h2⟩, by simpa [q.launch, q.completed] using h3⟩, ?_⟩
  rw [q.launch, q.cycle]
  cases hn : s.launch.cycleBudget with
  | none => rfl
  | some n =>
    have := hb n (by simp [hn])
    have hle : (s.cycle + BitVec.ofNat 64 k).toNat ≤ s.cycle.toNat + k := by
      rw [BitVec.toNat_add]
      have h1 := Nat.mod_le (s.cycle.toNat + (BitVec.ofNat 64 k).toNat) (2 ^ 64)
      have : (BitVec.ofNat 64 k).toNat = k := by simp; omega
      omega
    simp; omega

/-- Fetch finds nothing to do. -/
theorem fetch_quiet {t : State} (hf : t.f.valid = false)
    (hp : t.haltFetch = true ∨ (pcWellFormed t.launch t.pc = true ∧ codeAt t.launch t.pc = none)) :
    fetchStage t = t.unstallFetch := by
  have hh : handed t = t.unstallFetch := by simp [handed, hf]
  rcases fetch_cases t with ⟨-, e⟩ | ⟨-, h', -⟩ | ⟨h, -, ⟨h', -⟩ | ⟨-, -, e⟩ | ⟨-, w, h', -⟩⟩
  · exact e
  · simp [hf] at h'
  · rcases hp with hp | hp
    · simp [hp] at h
    · simp [hp.1] at h'
  · rw [e, hh]
  · rcases hp with hp | hp
    · simp [hp] at h
    · simp [hp.2] at h'

/-- While its record is in flight, the one entry of the ROB does not retire. -/
theorem retire_waits {t : State} (h : Inv t) (hc : t.rob.count = 1) (hf : t.inFlight ≠ []) :
    t.rob.retirable = none := by
  obtain ⟨u, hu⟩ := List.exists_mem_of_ne_nil _ hf
  obtain ⟨_, ht, -⟩ := h.rob.tracked u hu
  have hlt := at?_lt h.rob.ring ht
  have hage := (h.rob.ring.filled u.rob hlt).mp (by unfold ReorderBuffer.at? at ht; rw [ht]; rfl)
  have hh := h.rob.ring.head_lt
  have : u.rob = t.rob.head := ringAge_inj hh hlt hh (by rw [ringAge_head hh]; omega)
  rw [this] at ht
  simp [ReorderBuffer.retirable, ht, MicroOp.robEntry, Option.filter]

/-- The final stages keep every ROB entry but for its `complete` bit. -/
theorem final_at? (s : State) (k : Nat) (e : RobEntry) (h : s.rob.at? k = some e)
    (hr : s.rob.retirable = none) :
    ∃ e', (backEnd s).rob.at? k = some e' ∧ e'.pc = e.pc ∧ e'.op = e.op := by
  have hset : ∀ (q : ReorderBuffer) (j : Nat), (∃ e', q.at? k = some e' ∧ e'.pc = e.pc ∧ e'.op = e.op) →
      ∃ e', (q.setComplete j).at? k = some e' ∧ e'.pc = e.pc ∧ e'.op = e.op := by
    rintro q j ⟨e', he, hp⟩
    rw [at?_setComplete, he]
    split
    · exact ⟨_, rfl, hp⟩
    · exact ⟨_, rfl, hp⟩
  obtain ⟨g, hg, e1, -⟩ := backEnd_final s
  rw [e1, hg]
  have h0 : ∃ e', (retireStage s).rob.at? k = some e' ∧ e'.pc = e.pc ∧ e'.op = e.op := by
    simp only [retireStage, hr]; exact ⟨e, h, rfl, rfl⟩
  have h1 : ∃ e', (stageMem3 (retireStage s)).rob.at? k = some e' ∧ e'.pc = e.pc ∧ e'.op = e.op := by
    unfold stageMem3; split
    · exact h0
    · split
      · exact hset _ _ h0
      · exact hset _ _ h0
  have h2 : ∃ e', (stageMul3 (stageMem3 (retireStage s))).rob.at? k = some e' ∧ e'.pc = e.pc ∧ e'.op = e.op := by
    unfold stageMul3; split
    · exact h1
    · exact hset _ _ h1
  unfold stageInt2; split
  · exact h2
  · exact hset _ _ h2


/-- A quiet cycle: the record in flight moves on, and nothing else happens. -/
theorem quiet_step {s t : State} {op : Opcode} {k : Nat} (q : Quiet s op k t) (hrun : t.stopped = false)
    (hr : ∀ u ∈ t.mem1, InRange t (u.a + u.b)) (hne : t.inFlight ≠ []) :
    ∃ t', step t = .next t' ∧ Quiet s op (k + 1) t' ∧ t'.arch = t.arch ∧ t'.pc = t.pc ∧
      t'.haltFetch = t.haltFetch ∧
      t'.waiting = [] ∧ t'.inStage1 = t.waiting ∧
      t'.int2 = t.int1.map MicroOp.computed ∧ t'.mul2 = t.mul1.map MicroOp.computed ∧
      t'.mem2 = t.mem1.map MicroOp.addressed ∧ t'.mul3 = t.mul2 ∧ t'.mem3 = t.mem2 ∧
      (t.int2 = none → t.mul3 = none → t.mem3 = none → t'.written = t.written) := by
  have h0 := q.fault
  have hf0 := backEnd_fault_ok h0 hr
  obtain ⟨hb, hw⟩ := backEnd_body q.inv.body h0
  obtain ⟨hw, hs1⟩ := hw (by simp [hf0])
  have hfe := backEnd_front q.inv.front
  have hret := retire_waits q.inv q.count hne
  obtain ⟨e0, -⟩ := backEnd_ok h0 hr
  obtain ⟨g, -, eg⟩ := first_eq hr
  have hmv : (backEnd t).int2 = t.int1.map MicroOp.computed ∧ (backEnd t).mul2 = t.mul1.map MicroOp.computed ∧
    (backEnd t).mem2 = t.mem1.map MicroOp.addressed ∧ (backEnd t).mul3 = t.mul2 ∧ (backEnd t).mem3 = t.mem2 := by
    rw [e0, fromMul1, eg]; simp
  have hfq : fetchStage (backEnd t) = (backEnd t).unstallFetch :=
    fetch_quiet (by simpa using q.fetch) (by simpa using q.path)
  have hst : step t = .next ((backEnd t).unstallFetch).tick := by
    rcases step_cases hrun with ⟨v, hv, hn', e⟩ | ⟨-, -, ⟨-, e⟩ | ⟨hd, -⟩ | ⟨hd, -⟩⟩
    · exact absurd (hr v (by simp [hv])) hn'
    · rw [e, hfq]
    · simp [q.decode] at hd
    · simp [q.decode] at hd
  have hinv : Inv ((backEnd t).unstallFetch).tick := by
    rw [← hfq]
    exact (tick_body (fetchStage_body hb)).toInv (fetchStage_front hfe.mid).tick
  have hra := backEnd_retire t
  simp only [retireStage, hret] at hra
  obtain ⟨r1, r2, r3, r4, r5, r6⟩ := hra
  obtain ⟨e, he, hep⟩ := q.entry
  obtain ⟨e', he', hep', heo'⟩ := final_at? t s.rob.tail e he hret
  refine ⟨_, hst, ⟨hinv, by simpa using q.decode, by simpa using q.fetch, by simpa using q.path,
    by simpa using q.launch, by simpa using hf0, by simpa [r3] using q.halted, by simpa [r1] using q.completed, ?_, by simpa [r6] using q.count, by simpa [r4] using q.head,
    ⟨e', by simpa using he', hep'.trans hep.1, heo'.trans hep.2⟩⟩, ?_, by simp, by simp, hw, hs1, hmv.1, hmv.2.1, hmv.2.2.1, hmv.2.2.2.1, hmv.2.2.2.2, ?_⟩
  · simp [q.cycle, BitVec.ofNat_add, BitVec.add_assoc]
  · rw [← backEnd_arch q.inv.body h0]; rfl
  · intro i2 m3 e3
    obtain ⟨g', hg', -, q2, q3, q4, -⟩ := backEnd_final t
    simp [State.written, q2, q3, q4, hg', retireStage, hret, stageMem3, stageMul3, stageInt2, i2, m3, e3]

/-- The first cycle of an instruction alone: it dispatches. -/
theorem alone_first {s : State} {i : Instr} {p : Word} (h : Alone s i p)
    (hp : i = .halt ∨ p = seqNext i s.written s.d.pc) :
    ∃ t, step s = .next t ∧ Quiet s (instrOpcode i) 1 t ∧ t.arch = seqExec i s.written ∧
      (i ≠ .halt → t.pc = p) ∧ (i = .halt → t.haltFetch = true ∧ t.pc = s.pc) ∧
      t.waiting = [(shapeOf i).operandRead s] ∧ t.inStage1 = [] ∧ t.inStage2 = [] ∧ t.inStage3 = [] ∧ t.written = s.written := by
  have h0 := not_stopped h.running
  obtain ⟨hi, hc⟩ := h.empty
  have hemp := hi
  simp [State.inFlight, State.waiting, State.inStage1, State.inStage2, State.inStage3] at hemp
  have hr : ∀ u ∈ s.mem1, InRange s (u.a + u.b) := by simp [hemp]
  have hf0 := backEnd_fault_ok h0 hr
  obtain ⟨hb, hw⟩ := backEnd_body h.inv.body h0
  obtain ⟨hw, hs1⟩ := hw (by simp [hf0])
  have hfe := backEnd_front h.inv.front
  obtain ⟨e0, -⟩ := backEnd_ok h0 hr
  obtain ⟨g, hg, eg⟩ := first_eq hr
  have hret : s.rob.retirable = none := by simp [ReorderBuffer.retirable, hc]
  have hge : g = { s with ret := none } := by
    rw [hg]
    simp [retireStage, hret, stageMem3, stageMul3, stageInt2, hemp]
  have hbe : (backEnd s).regs = s.regs ∧ (backEnd s).z = s.z ∧ (backEnd s).rob = s.rob ∧ (backEnd s).mem = s.mem ∧
      (backEnd s).completed = s.completed ∧ (backEnd s).halted = s.halted := by
    obtain ⟨g', hg', q1, q2, q3, q4, q5, -, q6⟩ := backEnd_final s
    rw [q1, q2, q3, q4, q5, q6, hg', ← hg, hge]
    exact ⟨rfl, rfl, rfl, rfl, rfl, rfl⟩
  have hmv : (backEnd s).int2 = none ∧ (backEnd s).mul2 = none ∧ (backEnd s).mem2 = none ∧ (backEnd s).mul3 = none ∧ (backEnd s).mem3 = none := by
    rw [e0, fromMul1, eg]; simp [hemp]
  have hst1 : (backEnd s).inStage1 = [] := by rw [hs1]; simp [State.waiting, hemp]
  have hdi : DecodeInv (backEnd s) := ⟨hb.toInv hfe, hw⟩
  have hvalid : ∀ r, (backEnd s).regValid r = true := by
    intro r
    have := h.inv.scoreboard.free r (by simp [State.producer, hi])
    simpa [State.regValid, hbe] using this
  have hz : (backEnd s).z.valid = true := by
    rw [hbe.2.1]; exact h.inv.scoreboard.z_free (by simp [State.zProducer, hi])
  have hcan : CanDispatch (backEnd s) (instrOpcode i) (sourcesOf i) := by
    refine ⟨hdi, fun r _ => hvalid r, fun _ => hz, ?_⟩
    have := h.inv.launch.2.2.1
    rw [hbe.2.2.1, hc]
    exact Nat.lt_of_lt_of_le Nat.zero_lt_one (by simpa using this)
  obtain ⟨x, hx, hd, hhf, hpf⟩ := dispatched_of hcan
  have hu : (shapeOf i).operandRead (backEnd s) = (shapeOf i).operandRead s := by
    have hor : ∀ o : Operand, o.read (backEnd s) = o.read s := by
      intro o; cases o <;> simp [Operand.read, State.reg, hbe.1]
    simp [Shape.operandRead, hor, hbe]
  rw [hu] at hd
  have hxf := exec_fault hx
  rw [hf0] at hxf
  have hxb := exec_body hb hw (by simpa using h.decoded.2) hx
  have hxm := exec_front hfe.mid (by simpa using h.decoded.1) (by simpa using h.decoded.2) hx
  have hsa : s.arch = s.written := by simp [State.arch, hi]
  have hba : (backEnd s).arch = s.written := by rw [backEnd_arch h.inv.body h0, hsa]
  have hdv : x.d.valid = false := by rw [hd.latch]
  have hxa : x.arch = seqExec i s.written ∧ (i ≠ .halt → x.pc = p) := by
    rcases exec_arch hb hw hx with ⟨-, e⟩ | ⟨e, -, hpc⟩
    · exfalso
      have : x.d.valid = true := by
        rw [e]
        have := (examined_same i (backEnd s)).2.2.2.2.1
        simp [this, h.decoded.1]
      simp [hdv] at this
    · refine ⟨by rw [e, hba], fun hne => ?_⟩
      rcases hp with hp | hp
      · exact absurd hp hne
      · obtain ⟨hh', hpc⟩ := hpc hne
        rw [hba] at hpc
        rcases hpc with ⟨q1, -, q3⟩ | ⟨q1, -⟩
        · rw [q1, hp]
          simp at q3
          rw [q3]
          cases hhs : s.haltFetch with
          | true =>
            have := h.inv.front.halt_holds hhs h.decoded.1
            simp [decodedIn, h.decoded, Except.toOption] at this
            exact absurd this hne
          | false => simpa using h.inv.front.pc_follows hhs h.decoded.1 h.behind
        · rw [q1, hp]; simp
  have hfv : x.f.valid = false := by
    rcases exec_cases hx with ⟨-, rfl⟩ | ⟨-, u, y, -, hy, -, rfl⟩
    · rcases examined_cases i (backEnd s) with ⟨-, e⟩ | ⟨-, e⟩ <;> rw [e] <;> simp [h.behind, FrontLatch.clear]
    · rcases hy with rfl | ⟨w, rfl⟩ <;> rcases examined_cases i (backEnd s) with ⟨-, e⟩ | ⟨-, e⟩ <;> rw [e] <;> simp [h.behind, FrontLatch.clear]
  have hxl : x.launch = s.launch := by rw [hd.fixed.1]; simp
  have hpath : x.haltFetch = true ∨ (pcWellFormed x.launch x.pc = true ∧ codeAt x.launch x.pc = none) := by
    by_cases hih : i = .halt
    · left; rw [hhf]; simp [hih]
    · right; rw [hxl, hxa.2 hih]; exact h.after
  have hfq := fetch_quiet hfv hpath
  have hst : step s = .next (x.unstallFetch).tick := by
    rcases step_cases h.running with ⟨v, hv, hn', e⟩ | ⟨-, -, ⟨hd', -⟩ | ⟨-, ⟨e', he'⟩, -⟩ | ⟨-, j, y, hj, hy, -, e⟩⟩
    · exact absurd (hr v (by simp [hv])) hn'
    · simp [h.decoded.1] at hd'
    · simp [h.decoded.2] at he'
    · rw [h.decoded.2] at hj; cases hj
      rw [hx] at hy; cases hy
      rw [e, hfq]
  refine ⟨_, hst, ⟨?_, by simpa using hdv, by simpa using hfv, by simpa using hpath, by simpa using hxl, by simpa using hxf, ?_, ?_, ?_, ?_, ?_, ⟨_, by simpa [hbe] using hd.entry, by simp, shapeOf_op i⟩⟩, hxa.1, hxa.2, ?_, hd.waiting.1, ?_, ?_, ?_, ?_⟩
  · rw [← hfq]
    exact (tick_body (fetchStage_body hxb)).toInv (fetchStage_front hxm).tick
  · have := hd.control.2.1; simp [this, hbe]
  · have := hd.control.2.2.1; simp [this, hbe]
  · have := hd.control.2.2.2.1; simp [this]
  · have := hd.ring.2.2; simp [this, hbe, hc]
  · have := hd.ring.1
    have ht := h.inv.rob.ring.tail_eq
    have hh := h.inv.rob.ring.head_lt
    rw [hc] at ht; simp [Nat.mod_eq_of_lt hh] at ht
    simp [this, hbe, ht]
  · intro hih
    subst hih
    refine ⟨by simp [hhf], ?_⟩
    have := (hpf _ rfl).1
    simpa [effectOf, noEffect, examined] using this
  · have q := hd.units
    have q1 := hst1
    simp [State.inStage1] at q1 ⊢
    simp [q, q1]
  · have q := hd.units
    simp [State.inStage2, q, hmv]
  · have q := hd.units
    simp [State.inStage3, q, hmv]
  · obtain ⟨v1, v2, v3⟩ := exec_values hx
    refine Arch.ext_get (fun r => ?_) ?_ ?_
    · have := v1 r
      simpa [written_get, State.reg, hbe.1] using this
    · simpa [State.written, hbe.2.1] using v2
    · simpa [State.written, hbe.2.2.2.1] using v3

/-- `n` cycles, then `m` more. -/
theorem run_succ (n : Nat) (s : State) : core.run (n + 1) s =
    match step s with
    | .next s' => core.run n s'
    | .fault r => .fault r
    | .refused r => .refused r := by
  have h : core.step s = step s := rfl
  simp only [Host.Core.run, h]
  cases step s <;> rfl

theorem run_add {s t : State} {n : Nat} (m : Nat) (h : core.run n s = .next t) :
    core.run (n + m) s = core.run m t := by
  induction n generalizing s with
  | zero =>
    have : s = t := by injection h
    rw [this, Nat.zero_add]
  | succ n ih =>
    rw [Nat.add_right_comm, run_succ]
    rw [run_succ] at h
    cases hx : step s with
    | next x => rw [hx] at h; exact ih h
    | fault r => rw [hx] at h; cases h
    | refused r => rw [hx] at h; cases h

theorem run_one {s t : State} (h : step s = .next t) : core.run 1 s = .next t := by
  rw [run_succ, h]; rfl

/-- Where an instruction that was alone in `D` stands once it has written back. -/
structure Done (s : State) (i : Instr) (p : Word) (k : Nat) (t : State) : Prop where
  quiet : Quiet s (instrOpcode i) k t
  empty : t.inFlight = []
  result : t.written = seqExec i s.written
  pc : i ≠ .halt → t.pc = p
  halt : i = .halt → t.haltFetch = true

/-- What `Settled` asks of it. -/
theorem Done.settled {s t : State} {i : Instr} {p : Word} {k : Nat} (h : Done s i p k t) : Settled s t := by
  refine ⟨h.quiet.fault, h.empty, fun r => ?_, ?_, h.quiet.count, ?_⟩
  · exact h.quiet.inv.scoreboard.free r (by simp [State.producer, h.empty])
  · exact h.quiet.inv.scoreboard.z_free (by simp [State.zProducer, h.empty])
  · obtain ⟨e, he, hpc, -⟩ := h.quiet.entry
    refine ⟨e, he, ?_, hpc⟩
    by_contra hc
    have hlt := at?_lt h.quiet.inv.rob.ring he
    obtain ⟨u, hu, -⟩ := h.quiet.inv.rob.pending _ hlt e (by simpa using he) (by simpa using hc)
    simp [h.empty] at hu

/-- The first three cycles of an instruction alone: dispatched, issued, in stage 2. -/
theorem alone_second {s : State} {i : Instr} {p : Word} (h : Alone s i p)
    (hp : i = .halt ∨ p = seqNext i s.written s.d.pc) :
    ∃ (t : State) (u : MicroOp), core.run 2 s = .next t ∧ u = (shapeOf i).operandRead s ∧ Quiet s (instrOpcode i) 2 t ∧
      t.arch = seqExec i s.written ∧ t.written = s.written ∧ (i ≠ .halt → t.pc = p) ∧
      (i = .halt → t.haltFetch = true) ∧ t.waiting = [] ∧ t.inStage1 = [u] ∧
      t.int2 = none ∧ t.mul2 = none ∧ t.mem2 = none ∧ t.mul3 = none ∧ t.mem3 = none := by
  obtain ⟨t, hst, hq, ha, hpc, hh, hw, h1, h2, h3, hwr⟩ := alone_first h hp
  simp only [State.inStage1, State.inStage2, State.inStage3, List.append_eq_nil_iff, Option.toList_eq_nil_iff] at h1 h2 h3
  obtain ⟨t', hst', hq', ha', hpc', hh', hw', h1', i2, m2, e2, m3, e3, hwr'⟩ :=
    quiet_step hq (hq.running h.running h.budget (by omega)) (by simp [h1]) (by simp [State.inFlight, hw])
  refine ⟨t', _, ?_, rfl, hq', by rw [ha', ha], by rw [hwr' h2.1.1 h3.1 h3.2, hwr], fun hn => by rw [hpc', hpc hn],
    fun hn => by rw [hh', (hh hn).1], hw', by rw [h1', hw], ?_, ?_, ?_, ?_, ?_⟩
  · rw [show (2 : Nat) = 1 + 1 from rfl, run_add 1 (run_one hst), run_one hst']
  all_goals simp [*]

/-- An instruction alone runs to its end in two cycles and the depth of its unit (R131). -/
theorem alone_run {s : State} {i : Instr} {p : Word} (h : Alone s i p)
    (hp : i = .halt ∨ p = seqNext i s.written s.d.pc)
    (hr : isMem (instrOpcode i) = true →
      InRange s (((shapeOf i).operandRead s).a + ((shapeOf i).operandRead s).b)) :
    ∃ t : State, core.run (2 + (unitOf (instrOpcode i)).depth) s = .next t ∧
      Done s i p (2 + (unitOf (instrOpcode i)).depth) t := by
  obtain ⟨t, u, hst, hu, hq, ha, hwr, hpc, hh, hw, h1, i2, m2, e2, m3, e3⟩ := alone_second h hp
  have huo : u.op = instrOpcode i := by rw [hu]; exact shapeOf_op i
  have hone : (t.int1 = some u ∧ t.mul1 = none ∧ t.mem1 = none) ∨
      (t.int1 = none ∧ t.mul1 = some u ∧ t.mem1 = none) ∨
      (t.int1 = none ∧ t.mul1 = none ∧ t.mem1 = some u) := by
    simp only [State.inStage1] at h1
    cases ht1 : t.int1 <;> cases ht2 : t.mul1 <;> cases ht3 : t.mem1 <;> simp [ht1, ht2, ht3] at h1 <;> simp [h1]
  have hrr : ∀ v ∈ t.mem1, InRange t (v.a + v.b) := by
    intro v hv
    have hvu : v = u := by
      rcases hone with ⟨-, -, e⟩ | ⟨-, -, e⟩ | ⟨-, -, e⟩ <;> simp [e] at hv
      exact hv.symm
    subst hvu
    have := hq.inv.units.mem1 v hv
    have hm : isMem (instrOpcode i) = true := by
      rw [huo] at this; revert this; cases instrOpcode i <;> simp [unitOf, isMem]
    have := hr hm
    rw [← hu] at this
    simpa [InRange, hq.launch] using this
  obtain ⟨t3, hst3, hq3, ha3, hpc3, hh3, hw3, h13, i23, m23, e23, m33, e33, -⟩ :=
    quiet_step hq (hq.running h.running h.budget (by omega)) hrr (by simp [State.inFlight, h1])
  rw [hw] at h13
  have h13' := h13
  simp only [State.inStage1, List.append_eq_nil_iff, Option.toList_eq_nil_iff] at h13'
  have hne3 : t3.inFlight ≠ [] := by
    rcases hone with ⟨x1, x2, x3⟩ | ⟨x1, x2, x3⟩ | ⟨x1, x2, x3⟩ <;>
      simp [State.inFlight, State.inStage2, i23, m23, e23, x1, x2, x3]
  obtain ⟨t4, hst4, hq4, ha4, hpc4, hh4, hw4, h14, i24, m24, e24, m34, e34, -⟩ :=
    quiet_step hq3 (hq3.running h.running h.budget (by omega)) (by simp [h13']) hne3
  rw [hw3] at h14
  have h14' := h14
  simp only [State.inStage1, List.append_eq_nil_iff, Option.toList_eq_nil_iff] at h14'
  have hrun4 : core.run 4 s = .next t4 := by
    rw [show (4 : Nat) = 2 + 1 + 1 from rfl, run_add 1 (n := 2 + 1) (t := t3), run_one hst4]
    rw [run_add 1 hst, run_one hst3]
  have harch : ∀ x : State, x.inFlight = [] → x.written = x.arch := fun x hx => by simp [State.arch, hx]
  by_cases hint : unitOf (instrOpcode i) = .int
  · have hi1 : t.mul1 = none ∧ t.mem1 = none := by
      rcases hone with ⟨-, x2, x3⟩ | ⟨-, x2, -⟩ | ⟨-, -, x3⟩
      · exact ⟨x2, x3⟩
      · have := hq.inv.units.mul1 u (by simp [x2]); rw [huo, hint] at this; simp at this
      · have := hq.inv.units.mem1 u (by simp [x3]); rw [huo, hint] at this; simp at this
    have hemp : t4.inFlight = [] := by
      simp [State.inFlight, hw4, h14, State.inStage2, State.inStage3, i24, m24, e24, m34, e34, h13', m23, e23, hi1]
    rw [hint]
    exact ⟨t4, hrun4, hq4, hemp, by rw [harch _ hemp, ha4, ha3, ha], fun hn => by rw [hpc4, hpc3, hpc hn],
      fun hn => by rw [hh4, hh3, hh hn]⟩
  · have hd : (unitOf (instrOpcode i)).depth = 3 := by
      revert hint; cases unitOf (instrOpcode i) <;> simp [FuncUnit.depth]
    have hi1 : t.int1 = none := by
      rcases hone with ⟨x1, -, -⟩ | ⟨x1, -, -⟩ | ⟨x1, -, -⟩
      · have := hq.inv.units.int1 u (by simp [x1]); rw [huo] at this; exact absurd this hint
      · exact x1
      · exact x1
    have hne4 : t4.inFlight ≠ [] := by
      rcases hone with ⟨x1, x2, x3⟩ | ⟨x1, x2, x3⟩ | ⟨x1, x2, x3⟩
      · simp [x1] at hi1
      · simp [State.inFlight, State.inStage3, m34, m23, x2]
      · simp [State.inFlight, State.inStage3, e34, e23, x3]
    obtain ⟨t5, hst5, hq5, ha5, hpc5, hh5, hw5, h15, i25, m25, e25, m35, e35, -⟩ :=
      quiet_step hq4 (hq4.running h.running h.budget (by omega)) (by simp [h14']) hne4
    have hemp : t5.inFlight = [] := by
      simp [State.inFlight, hw5, h15, hw4, State.inStage2, State.inStage3, i25, m25, e25, m35, e35, h14', m24, e24, h13']
    rw [hd]
    refine ⟨t5, ?_, hq5, hemp, by rw [harch _ hemp, ha5, ha4, ha3, ha], fun hn => by rw [hpc5, hpc4, hpc3, hpc hn],
      fun hn => by rw [hh5, hh4, hh3, hh hn]⟩
    rw [show 2 + 3 = 4 + 1 from rfl, run_add 1 hrun4, run_one hst5]

/-- A memory instruction alone whose address is out of range faults in MEM1 with no effect (R204). -/
theorem alone_fault {s : State} {i : Instr} {p : Word} (h : Alone s i p)
    (hp : p = seqNext i s.written s.d.pc) (hm : isMem (instrOpcode i) = true)
    (hr : ¬ InRange s (((shapeOf i).operandRead s).a + ((shapeOf i).operandRead s).b)) :
    ∃ t : State, core.run 3 s = .next t ∧ t.written = s.written ∧
      t.fault = some {
        code := .dataAddressRange
        pc := s.d.pc
        info := (((shapeOf i).operandRead s).a + ((shapeOf i).operandRead s).b).zeroExtend 64 } := by
  obtain ⟨t, u, hst, hu, hq, ha, hwr, hpc, hh, hw, h1, i2, m2, e2, m3, e3⟩ := alone_second h (.inr hp)
  have huo : u.op = instrOpcode i := by rw [hu]; exact shapeOf_op i
  have hum : unitOf u.op = .mem := by
    rw [huo]; revert hm; cases instrOpcode i <;> simp [unitOf, isMem]
  have hone : t.mem1 = some u := by
    simp only [State.inStage1] at h1
    cases ht1 : t.int1 <;> cases ht2 : t.mul1 <;> cases ht3 : t.mem1 <;> simp [ht1, ht2, ht3] at h1
    · simp [h1]
    · subst h1; have := hq.inv.units.mul1 _ (by simpa using ht2); simp [this] at hum
    · subst h1; have := hq.inv.units.int1 _ (by simpa using ht1); simp [this] at hum
  rw [← hu] at hr ⊢
  have hr' : ¬ InRange t (u.a + u.b) := by simpa [InRange, hq.launch] using hr
  have hrun := hq.running h.running h.budget (by omega)
  rcases step_cases hrun with ⟨v, hv, -, e⟩ | ⟨hok, -⟩
  · have hret := retire_waits hq.inv hq.count (by simp [State.inFlight, h1])
    refine ⟨(backEnd t).tick, by rw [show (3 : Nat) = 2 + 1 from rfl, run_add 1 hst, run_one e], ?_, ?_⟩
    · rw [← hwr]
      obtain ⟨g', hg', -, q2, q3, q4, -⟩ := backEnd_final t
      simp [State.written, q2, q3, q4, hg', retireStage, hret, stageMem3, stageMul3, stageInt2, i2, m3, e3]
    · rw [hone] at hv; cases hv
      rw [backEnd_bad hone hr']
      simp [State.raise, hu, Shape.operandRead]
  · exact absurd (hok u (by simp [hone])) hr'

/-- Once it has written back, a HALT that was alone retires and stops the core (R103, R195). -/
theorem halt_retires {s t : State} {p : Word} {k : Nat} (h : Alone s .halt p) (hd : Done s .halt p k t) (hk : k < 5) :
    ∃ t', step t = .next t' ∧ t'.halted = true ∧ t'.stopped = true ∧ t'.fault = none ∧
      t'.completed = s.completed + 1 ∧ t'.written = t.written := by
  have hq := hd.quiet
  have hemp := hd.empty
  simp [State.inFlight, State.waiting, State.inStage1, State.inStage2, State.inStage3] at hemp
  have hr : ∀ u ∈ t.mem1, InRange t (u.a + u.b) := by simp [hemp]
  have hf0 := backEnd_fault_ok hq.fault hr
  obtain ⟨e, he, hec, hpc⟩ := hd.settled.complete
  obtain ⟨e', he', -, heo⟩ := hq.entry
  rw [he] at he'; cases he'
  have hret : t.rob.retirable = some e := by
    simp [ReorderBuffer.retirable, hq.count, hq.head, he, hec, Option.filter]
  have hra := backEnd_retire t
  simp only [retireStage, hret] at hra
  obtain ⟨r1, -, r3, -⟩ := hra
  have hfq : fetchStage (backEnd t) = (backEnd t).unstallFetch :=
    fetch_quiet (by simpa using hq.fetch) (by simpa using hq.path)
  rcases step_cases (hq.running h.running h.budget hk) with ⟨v, hv, hn', -⟩ | ⟨-, -, ⟨-, e1⟩ | ⟨hd', -⟩ | ⟨hd', -⟩⟩
  · exact absurd (hr v (by simp [hv])) hn'
  · rw [hfq] at e1
    have hh : (backEnd t).halted = true := by
      rw [r3]; simp [State.retireEntry, heo, instrOpcode]
    refine ⟨_, e1, by simpa using hh, by simp [State.stopped, hh], by simpa using hf0, ?_, ?_⟩
    · simpa [State.retireEntry, hq.completed] using r1
    · obtain ⟨g', hg', -, q2, q3, q4, -⟩ := backEnd_final t
      simp [State.written, q2, q3, q4, hg', retireStage, hret, stageMem3, stageMul3, stageInt2, hemp, State.retireEntry]
  · simp [hq.decode] at hd'
  · simp [hq.decode] at hd'

end Sys2Proof.Machine
end

