-- ==== Sys2Proof/Laws/Decode.lean ====
section
/-! SUPPORT. The record as a number and its fields (spec/30_encoding.md R80, R86, R89). -/

namespace Sys2Proof

/-- R80: the record as a number, each field at its place. -/
theorem packRecord_toNat (op : BitVec 5) (rd rs1 rs2 rs3 : RegNum) (imm : Word) :
    (packRecord op rd rs1 rs2 rs3 imm).toNat = op.toNat + 2 ^ 5 * rd.toNat + 2 ^ 10 * rs1.toNat +
      2 ^ 15 * rs2.toNat + 2 ^ 20 * rs3.toNat + 2 ^ 32 * imm.toNat := by
  unfold packRecord
  have h (m n : Nat) (x : BitVec m) (y : BitVec n) : (x ++ y).toNat = x.toNat * 2 ^ n + y.toNat := by
    rw [BitVec.toNat_append, Nat.shiftLeft_eq, Nat.mul_comm, ← Nat.two_pow_add_eq_or_of_lt y.isLt]
  erw [h, h, h, h, h, h]
  simp
  omega
variable (op : BitVec 5) (rd rs1 rs2 rs3 : RegNum) (imm : Word)

@[simp] theorem recOp_pack : recOp (packRecord op rd rs1 rs2 rs3 imm) = op := by
  apply BitVec.eq_of_toNat_eq
  simp only [recOp, BitVec.extractLsb'_toNat, packRecord_toNat, Nat.shiftRight_eq_div_pow]
  omega

@[simp] theorem recRd_pack : recRd (packRecord op rd rs1 rs2 rs3 imm) = rd := by
  apply BitVec.eq_of_toNat_eq
  simp only [recRd, BitVec.extractLsb'_toNat, packRecord_toNat, Nat.shiftRight_eq_div_pow]
  omega

@[simp] theorem recRs1_pack : recRs1 (packRecord op rd rs1 rs2 rs3 imm) = rs1 := by
  apply BitVec.eq_of_toNat_eq
  simp only [recRs1, BitVec.extractLsb'_toNat, packRecord_toNat, Nat.shiftRight_eq_div_pow]
  omega

@[simp] theorem recRs2_pack : recRs2 (packRecord op rd rs1 rs2 rs3 imm) = rs2 := by
  apply BitVec.eq_of_toNat_eq
  simp only [recRs2, BitVec.extractLsb'_toNat, packRecord_toNat, Nat.shiftRight_eq_div_pow]
  omega

@[simp] theorem recRs3_pack : recRs3 (packRecord op rd rs1 rs2 rs3 imm) = rs3 := by
  apply BitVec.eq_of_toNat_eq
  simp only [recRs3, BitVec.extractLsb'_toNat, packRecord_toNat, Nat.shiftRight_eq_div_pow]
  omega

@[simp] theorem recRsv_pack : recRsv (packRecord op rd rs1 rs2 rs3 imm) = 0 := by
  apply BitVec.eq_of_toNat_eq
  simp only [recRsv, BitVec.extractLsb'_toNat, packRecord_toNat, Nat.shiftRight_eq_div_pow, show (0 : BitVec 7).toNat = 0 from rfl]
  omega

@[simp] theorem recImm_pack : recImm (packRecord op rd rs1 rs2 rs3 imm) = imm := by
  apply BitVec.eq_of_toNat_eq
  simp only [recImm, BitVec.extractLsb'_toNat, packRecord_toNat, Nat.shiftRight_eq_div_pow]
  omega

/-- R86: the decoder rejects a record exactly for its reserved bits or its tag. -/
theorem decode_error_iff (w : Record) : (∃ e, decode w = .error e) ↔
    recRsv w ≠ 0 ∨ (recOp w).toNat = 0 ∨ 0x16 ≤ (recOp w).toNat := by
  unfold decode
  by_cases h : recRsv w = 0
  · simp only [h, ne_eq, not_true, if_false, false_or]
    unfold decodeTag
    have := (recOp w).isLt
    generalize (recOp w).toNat = n at *
    interval_cases n <;> simp
  · have h' : recRsv w ≠ 0#7 := h
    simp [h']

/-- R89: the record under the mask is its tag and its reserved bits. -/
theorem masked_eq (w : Record) :
    w &&& recordMask = (recOp w).zeroExtend 64 ||| ((recRsv w).zeroExtend 64 <<< 25) := by
  apply BitVec.eq_of_getLsbD_eq
  intro i hi
  interval_cases i <;> simp [recordMask, recOp, recRsv]

end Sys2Proof
end

