-- ==== Sys2Proof/Laws/PerInstr.lean ====
section
/-! SUPPORT. What the record of each instruction shows of it (spec/30_encoding.md R80, R82, R83): one
statement, one lemma per instruction. -/

namespace Sys2Proof.Laws.Encodes

open Sys2Proof.Machine (destOf sourcesOf)

/-- R80, R82, R83: the record of `i` carries the tag of its row, its destination in `rd`, and every
register it reads in one of the source fields. -/
def Statement (i : Instr) : Prop :=
  recOp (encode i) = opcodeTag (instrOpcode i) ∧
    (∀ r, destOf i = some r → recRd (encode i) = r) ∧
    ∀ r ∈ sourcesOf i, r = recRs1 (encode i) ∨ r = recRs2 (encode i) ∨ r = recRs3 (encode i)

theorem movc (rd : RegNum) (imm : Word) : Statement (.movc rd imm) := by
  simp [Statement, encode, opcodeTag, instrOpcode, destOf, sourcesOf]

theorem add (rd rs1 rs2 : RegNum) : Statement (.add rd rs1 rs2) := by
  simp [Statement, encode, opcodeTag, instrOpcode, destOf, sourcesOf]

theorem sub (rd rs1 rs2 : RegNum) : Statement (.sub rd rs1 rs2) := by
  simp [Statement, encode, opcodeTag, instrOpcode, destOf, sourcesOf]

theorem and (rd rs1 rs2 : RegNum) : Statement (.and rd rs1 rs2) := by
  simp [Statement, encode, opcodeTag, instrOpcode, destOf, sourcesOf]

theorem or (rd rs1 rs2 : RegNum) : Statement (.or rd rs1 rs2) := by
  simp [Statement, encode, opcodeTag, instrOpcode, destOf, sourcesOf]

theorem xor (rd rs1 rs2 : RegNum) : Statement (.xor rd rs1 rs2) := by
  simp [Statement, encode, opcodeTag, instrOpcode, destOf, sourcesOf]

theorem mul (rd rs1 rs2 : RegNum) : Statement (.mul rd rs1 rs2) := by
  simp [Statement, encode, opcodeTag, instrOpcode, destOf, sourcesOf]

theorem addl (rd rs1 : RegNum) (imm : Word) : Statement (.addl rd rs1 imm) := by
  simp [Statement, encode, opcodeTag, instrOpcode, destOf, sourcesOf]

theorem subl (rd rs1 : RegNum) (imm : Word) : Statement (.subl rd rs1 imm) := by
  simp [Statement, encode, opcodeTag, instrOpcode, destOf, sourcesOf]

theorem andl (rd rs1 : RegNum) (imm : Word) : Statement (.andl rd rs1 imm) := by
  simp [Statement, encode, opcodeTag, instrOpcode, destOf, sourcesOf]

theorem orl (rd rs1 : RegNum) (imm : Word) : Statement (.orl rd rs1 imm) := by
  simp [Statement, encode, opcodeTag, instrOpcode, destOf, sourcesOf]

theorem xorl (rd rs1 : RegNum) (imm : Word) : Statement (.xorl rd rs1 imm) := by
  simp [Statement, encode, opcodeTag, instrOpcode, destOf, sourcesOf]

theorem mull (rd rs1 : RegNum) (imm : Word) : Statement (.mull rd rs1 imm) := by
  simp [Statement, encode, opcodeTag, instrOpcode, destOf, sourcesOf]

theorem load (rd rs1 : RegNum) (imm : Word) : Statement (.load rd rs1 imm) := by
  simp [Statement, encode, opcodeTag, instrOpcode, destOf, sourcesOf]

theorem ldr (rd rs1 rs2 : RegNum) : Statement (.ldr rd rs1 rs2) := by
  simp [Statement, encode, opcodeTag, instrOpcode, destOf, sourcesOf]

theorem store (rs1 rs2 : RegNum) (imm : Word) : Statement (.store rs1 rs2 imm) := by
  simp [Statement, encode, opcodeTag, instrOpcode, destOf, sourcesOf]

theorem str (rs1 rs2 rs3 : RegNum) : Statement (.str rs1 rs2 rs3) := by
  simp [Statement, encode, opcodeTag, instrOpcode, destOf, sourcesOf]

theorem bz (imm : Word) : Statement (.bz imm) := by
  simp [Statement, encode, opcodeTag, instrOpcode, destOf, sourcesOf]

theorem bnz (imm : Word) : Statement (.bnz imm) := by
  simp [Statement, encode, opcodeTag, instrOpcode, destOf, sourcesOf]

theorem jump (rs1 : RegNum) (imm : Word) : Statement (.jump rs1 imm) := by
  simp [Statement, encode, opcodeTag, instrOpcode, destOf, sourcesOf]

theorem halt : Statement .halt := by
  simp [Statement, encode, opcodeTag, instrOpcode, destOf, sourcesOf]

end Sys2Proof.Laws.Encodes
end

