-- ==== Sys2Proof/Tests/Slice0.lean ====
section
/-! SUPPORT. The model's own tests: ill-formed records, lines and launch parameters are refused; every
instruction decodes from a word written out from spec/30_encoding.md; one small step of each
instruction with a result taken from spec/95_test_vectors.md or worked out from its rule; and, for
every obligation with hypotheses, a state and operands that meet them (`test_witness_…`). -/

namespace Sys2Proof.Tests

open Sys2Proof.Machine

-- one after another: each `decide +kernel` waits for the theorems before it
set_option Elab.async false

/-! ### Small states -/

/-- A small machine: register k holds k, cell 5 holds 50, and the cycle budget is 5. -/
def smallLaunch (code : List Record) : Launch where
  code := code
  codeBase := 4000
  iqSize := 2
  lsqSize := 2
  robSize := 3
  dmemCells := 16
  regInit := Vector.ofFn fun k => BitVec.ofNat 32 k.val
  dmemInit := [(5, 50)]
  cycleBudget := some 5
  stopOnCodeSize := true

/-- The small machine after reset, with the records `code`. -/
def small (code : List Record) : State := State.resetFrom (smallLaunch code)

/-- Instruction `i` alone in `D`, fetched from 4000, and Z holding `z`. -/
def one (i : Instr) (z : Bool) : State :=
  { small [encode i] with
    pc := 4004
    d := FrontLatch.fill 4000 (encode i)
    z := { value := z, valid := true, tag := 0 } }

/-- The record of an instruction at 4000 with ROB index 0. -/
def uop (op : Opcode) (rd : RegNum) (a b d : Word) : MicroOp where
  op := op
  pc := 4000
  rd := rd
  rob := 0
  imm := b
  a := a
  b := b
  d := d
  ea := 0
  result := 0
  unit := unitOf op

/-- The small machine with `rd` in the record `D` has held. -/
def decoded (rd : RegNum) : State :=
  { small [0] with
    pc := 4004
    d := { valid := false, stalled := false, pc := 4000, word := packRecord 0 rd 0 0 0 0 } }

/-- The small machine with `u` dispatched from 4000 and not yet placed. -/
def busy (u : MicroOp) : State :=
  (((decoded u.rd).robAllocate u).invalidateDest u).invalidateZ u

/-- The next state of an outcome; the state after reset for any other. -/
def after : Host.Outcome State Fault Refusal → State
  | .next t => t
  | .fault _ => State.reset
  | .refused _ => State.reset

/-- Whether an outcome is a next state. -/
def isNext : Host.Outcome State Fault Refusal → Bool
  | .next _ => true
  | .fault _ => false
  | .refused _ => false

theorem next_after {o : Host.Outcome State Fault Refusal} (h : isNext o = true) :
    o = .next (after o) := by
  cases o with
  | next t => rfl
  | fault _ => cases h
  | refused _ => cases h

/-- Whether a decoding is a refusal. -/
def refuses (w : Record) : Bool := (decode w).toOption.isNone

/-! ### Well-formed records, lines and parameters -/

theorem test_legal : recordLegal 0x0000000000000001 = true ∧ recordLegal 0x12345678FFFFF5 = false ∧
    recordLegal 0x1234567801FFFFF5 = true := by decide

/-- Tag 0x00, the tags from 0x16 on, and each end of the reserved bits (R86). -/
theorem test_ill_formed_records : recordLegal 0x0000000000000000 = false ∧
    recordLegal 0x0000000000000016 = false ∧ recordLegal 0x000000000000001F = false ∧
    recordLegal 0x0000000002000015 = false ∧ recordLegal 0x0000000080000001 = false := by decide

theorem test_reset_memory_wf : State.reset.mem.wf := by decide

theorem test_memory_not_rising : ¬ Memory.wf [(5, 1), (3, 1)] ∧ ¬ Memory.wf [(5, 1), (5, 2)] := by
  decide

theorem test_memory_lists_no_zero : ¬ Memory.wf [(5, 0)] := by decide

theorem test_default_launch_wf : Launch.default.wellFormed := by decide

theorem test_launch_no_iq : ¬ Launch.wellFormed { Launch.default with iqSize := 0 } := by decide

theorem test_launch_no_lsq : ¬ Launch.wellFormed { Launch.default with lsqSize := 0 } := by decide

theorem test_launch_no_rob : ¬ Launch.wellFormed { Launch.default with robSize := 0 } := by decide

theorem test_launch_memory_form :
    ¬ Launch.wellFormed { Launch.default with dmemInit := [(1, 1), (0, 1)] } := by decide

theorem test_launch_cell_outside :
    ¬ Launch.wellFormed { Launch.default with dmemInit := [(4096, 1)] } := by decide

theorem test_line_unknown_mnemonic :
    assembleLine { mnemonic := "NOP", operands := [] } = .error .unknownMnemonic := by rfl

theorem test_line_wrong_count :
    assembleLine { mnemonic := "ADD", operands := [.reg 1, .reg 2] } = .error .wrongOperands := by rfl

theorem test_line_wrong_kind :
    assembleLine { mnemonic := "ADD", operands := [.reg 1, .reg 2, .imm 3] } =
      .error .wrongOperands := by rfl

theorem test_line_register_range :
    assembleLine { mnemonic := "ADD", operands := [.reg 1, .reg 2, .reg 32] } =
      .error .registerRange := by rfl

theorem test_line_immediate_range :
    assembleLine { mnemonic := "BZ", operands := [.imm 2147483648] } = .error .immediateRange ∧
    assembleLine { mnemonic := "BZ", operands := [.imm (-2147483649)] } =
      .error .immediateRange := ⟨rfl, rfl⟩

/-- The ends of both ranges are accepted (R98). -/
theorem test_line_ends :
    assembleLine { mnemonic := "MOVC", operands := [.reg 31, .imm 2147483647] } =
      .ok 0x7FFFFFFF000003E1 ∧
    assembleLine { mnemonic := "MOVC", operands := [.reg 0, .imm (-2147483648)] } =
      .ok 0x8000000000000001 := ⟨rfl, rfl⟩

/-- spec/95_test_vectors.md S1; one bad line refuses the whole program (R98). -/
theorem test_assemble :
    assemble [{ mnemonic := "MOVC", operands := [.reg 1, .imm 5] },
        { mnemonic := "ADD", operands := [.reg 2, .reg 1, .reg 1] },
        { mnemonic := "HALT", operands := [] }] =
      .ok [0x0000000500000021, 0x0000000000008442, 0x0000000000000015] ∧
    assemble [{ mnemonic := "HALT", operands := [] }, { mnemonic := "ADD", operands := [] }] =
      .error .wrongOperands := ⟨rfl, rfl⟩

/-! ### Decoding, from words written out from R80, R82 and R83 -/

theorem test_decode_movc : decodeTableWord 64
    0b1111111111111111111111111111111100000000000000000000000011100001 = some (.movc 7 (-1)) := by rfl

theorem test_decode_add : decodeTableWord 64
    0b0000000001000010001000010 = some (.add 2 1 1) := by rfl

theorem test_decode_sub : decodeTableWord 64
    0b0000000010000010001100011 = some (.sub 3 1 2) := by rfl

theorem test_decode_and : decodeTableWord 64
    0x31484 = some (.and 4 5 6) := by rfl

theorem test_decode_or : decodeTableWord 64
    0xEFBE5 = some (.or 31 30 29) := by rfl

theorem test_decode_xor : decodeTableWord 64
    0x20826 = some (.xor 1 2 4) := by rfl

theorem test_decode_mul : decodeTableWord 64
    0x18827 = some (.mul 1 2 3) := by rfl

theorem test_decode_addl : decodeTableWord 64
    0x0000000500000848 = some (.addl 2 2 5) := by rfl

theorem test_decode_subl : decodeTableWord 64
    0x0000000100000429 = some (.subl 1 1 1) := by rfl

theorem test_decode_andl : decodeTableWord 64
    0x00000F0F0000046A = some (.andl 3 1 3855) := by rfl

theorem test_decode_orl : decodeTableWord 64
    0xFFFFFFFF0000046B = some (.orl 3 1 (-1)) := by rfl

theorem test_decode_xorl : decodeTableWord 64
    0xFFFFFFFF0000046C = some (.xorl 3 1 (-1)) := by rfl

theorem test_decode_mull : decodeTableWord 64
    0xFFFFFFF90000046D = some (.mull 3 1 (-7)) := by rfl

theorem test_decode_load : decodeTableWord 64
    0x000000040000006E = some (.load 3 0 4) := by rfl

theorem test_decode_ldr : decodeTableWord 64
    0x398AF = some (.ldr 5 6 7) := by rfl

theorem test_decode_store : decodeTableWord 64
    0b0000000000000000000000000000001000000000000000000000010000010000 = some (.store 1 0 2) := by rfl

theorem test_decode_str : decodeTableWord 64
    0b00000000011100110000010000010001 = some (.str 1 6 7) := by rfl

theorem test_decode_bz : decodeTableWord 64
    0x0000000800000012 = some (.bz 8) := by rfl

theorem test_decode_bnz : decodeTableWord 64
    0xFFFFFFF800000013 = some (.bnz (-8)) := by rfl

theorem test_decode_jump : decodeTableWord 64
    0b0000000000001000000010100 = some (.jump 4 0) := by rfl

theorem test_decode_halt : decodeTableWord 64
    0b10101 = some (.halt) := by rfl

/-- R86 and R87 (spec/95_test_vectors.md, decode corner cases). -/
theorem test_decode_refuses : refuses 0x0000000000000000 = true ∧ refuses 0x0000000000000016 = true ∧
    refuses 0x000000000000001F = true ∧ refuses 0x0000000002000015 = true ∧
    refuses 0x0000000080000001 = true := by decide +kernel

theorem test_decode_ignores_unused_fields :
    decodeTableWord 64 0x1234567801FFFFF5 = some .halt ∧
    decodeTableWord 64 0x000000070000FC21 = some (.movc 1 7) := ⟨rfl, rfl⟩

/-- R81: the first byte and the last. -/
theorem test_record_bytes :
    recordToBytes 0x0123456789ABCDEF = [0xEF, 0xCD, 0xAB, 0x89, 0x67, 0x45, 0x23, 0x01] := by decide

/-- A byte short of a record is no record (R81). -/
theorem test_record_too_short : recordOfBytes [0x15, 0, 0, 0, 0, 0, 0] = none := by decide

/-! ### The invariants at the states above -/

theorem small_inv : Inv (small [0]) := by
  refine ⟨?_, ⟨?_, ?_, ⟨?_, ?_, ?_, ?_, ?_⟩, ?_⟩, ⟨?_, ?_, ?_, ?_, ?_, ?_, ?_, ?_⟩, ⟨?_, ?_, ?_, ?_⟩,
    ⟨⟨?_, ?_, ?_, ?_, ?_⟩, ?_, ?_, ?_⟩, ⟨?_, ?_, ?_, ?_⟩, ⟨?_, ?_, ?_, ?_, ?_, ?_, ?_⟩, ⟨?_, ?_⟩⟩ <;>
    decide +kernel

theorem one_inv (i : Instr) (z : Bool) : Inv (one i z) := by
  obtain ⟨h1, ⟨q1, q2, ⟨l1, l2, l3, l4, l5⟩, q3⟩, u, c, ⟨⟨r1, r2, r3, r4, r5⟩, r6, r7, r8⟩,
    ⟨s1, s2, s3, s4⟩, -, m⟩ := small_inv
  exact ⟨h1, ⟨q1, q2, ⟨l1, l2, l3, l4, l5⟩, q3⟩, ⟨u.1, u.2, u.3, u.4, u.5, u.6, u.7, u.8⟩,
    ⟨c.1, c.2, c.3, c.4⟩, ⟨⟨r1, r2, r3, r4, r5⟩, r6, r7, r8⟩, ⟨s1, s2, fun _ => rfl, s4⟩,
    ⟨nofun, fun _ => by simp [one, codeAt, codeIndex, small, State.resetFrom, smallLaunch, FrontLatch.fill],
      nofun, nofun, fun _ _ _ => rfl, nofun, nofun⟩, ⟨m.1, m.2⟩⟩

theorem one_can (i : Instr) (z : Bool) (sources : List RegNum) :
    CanDispatch (one i z) (instrOpcode i) sources :=
  ⟨⟨one_inv i z, rfl⟩, fun r _ => small_inv.scoreboard.free r rfl, fun _ => rfl,
    (by decide : (0 : Nat) < 3)⟩

theorem one_alone (i : Instr) (z : Bool) (next : Word) (h : decode (encode i) = .ok i)
    (hw : pcWellFormed (smallLaunch [0]) next = true)
    (hc : 1 ≤ codeIndex (smallLaunch [0]) next) : Alone (one i z) i next :=
  ⟨one_inv i z, ⟨rfl, rfl⟩, ⟨rfl, h⟩, rfl, ⟨hw, List.getElem?_eq_none hc⟩, rfl,
    by intro n hn; cases hn; exact (by decide : (0 : Nat) + 5 ≤ 5)⟩

/-! ### Each instruction: what it leaves, and the hypotheses of its statement -/

/-- spec/95_test_vectors.md §3.1. -/
theorem test_add : (after (step { busy (uop .add 3 0xFFFFFFFF 1 0) with
      int1 := some (uop .add 3 0xFFFFFFFF 1 0) })).int2.map MicroOp.result = some 0 := by
  decide +kernel

theorem test_witness_AddWritesSum :
    CanDispatch (one (.add 2 1 1) false) .add [1, 1] ∧
    Alone (one (.add 2 1 1) false) (.add 2 1 1) ((one (.add 2 1 1) false).d.pc + 4) :=
  ⟨one_can _ _ _, one_alone _ _ _ rfl (by decide) (by decide)⟩

/-- spec/95_test_vectors.md §3.1. -/
theorem test_sub : (after (step { busy (uop .sub 3 0x80000000 1 0) with
      int1 := some (uop .sub 3 0x80000000 1 0) })).int2.map MicroOp.result = some 0x7FFFFFFF := by
  decide +kernel

theorem test_witness_SubWritesDifference :
    CanDispatch (one (.sub 1 1 2) false) .sub [1, 2] ∧
    Alone (one (.sub 1 1 2) false) (.sub 1 1 2) ((one (.sub 1 1 2) false).d.pc + 4) :=
  ⟨one_can _ _ _, one_alone _ _ _ rfl (by decide) (by decide)⟩

/-- spec/95_test_vectors.md §3.1. -/
theorem test_and : (after (step { busy (uop .and 3 0xF0F0F0F0 0x0FF00FF0 0) with
      int1 := some (uop .and 3 0xF0F0F0F0 0x0FF00FF0 0) })).int2.map MicroOp.result = some 0x00F000F0 := by
  decide +kernel

theorem test_witness_AndWritesConjunction :
    CanDispatch (one (.and 3 1 2) false) .and [1, 2] ∧
    Alone (one (.and 3 1 2) false) (.and 3 1 2) ((one (.and 3 1 2) false).d.pc + 4) :=
  ⟨one_can _ _ _, one_alone _ _ _ rfl (by decide) (by decide)⟩

/-- spec/95_test_vectors.md §3.1. -/
theorem test_or : (after (step { busy (uop .or 3 0xF0F0F0F0 0x0FF00FF0 0) with
      int1 := some (uop .or 3 0xF0F0F0F0 0x0FF00FF0 0) })).int2.map MicroOp.result = some 0xFFF0FFF0 := by
  decide +kernel

theorem test_witness_OrWritesDisjunction :
    CanDispatch (one (.or 31 30 29) false) .or [30, 29] ∧
    Alone (one (.or 31 30 29) false) (.or 31 30 29) ((one (.or 31 30 29) false).d.pc + 4) :=
  ⟨one_can _ _ _, one_alone _ _ _ rfl (by decide) (by decide)⟩

/-- spec/95_test_vectors.md §3.1. -/
theorem test_xor : (after (step { busy (uop .xor 3 0xF0F0F0F0 0x0FF00FF0 0) with
      int1 := some (uop .xor 3 0xF0F0F0F0 0x0FF00FF0 0) })).int2.map MicroOp.result = some 0xFF00FF00 := by
  decide +kernel

theorem test_witness_XorWritesExclusiveOr :
    CanDispatch (one (.xor 0 0 0) false) .xor [0, 0] ∧
    Alone (one (.xor 0 0 0) false) (.xor 0 0 0) ((one (.xor 0 0 0) false).d.pc + 4) :=
  ⟨one_can _ _ _, one_alone _ _ _ rfl (by decide) (by decide)⟩

/-- spec/95_test_vectors.md §3.1. -/
theorem test_mul : (after (step { busy (uop .mul 3 0x80000000 0xFFFFFFFF 0) with
      mul1 := some (uop .mul 3 0x80000000 0xFFFFFFFF 0) })).mul2.map MicroOp.result = some 0x80000000 := by
  decide +kernel

theorem test_witness_MulWritesLowProduct :
    CanDispatch (one (.mul 3 1 2) false) .mul [1, 2] ∧
    Alone (one (.mul 3 1 2) false) (.mul 3 1 2) ((one (.mul 3 1 2) false).d.pc + 4) :=
  ⟨one_can _ _ _, one_alone _ _ _ rfl (by decide) (by decide)⟩

/-- spec/95_test_vectors.md §3.2. -/
theorem test_addl : (after (step { busy (uop .addl 3 0x0000000A 0xFFFFFFFD 0) with
      int1 := some (uop .addl 3 0x0000000A 0xFFFFFFFD 0) })).int2.map MicroOp.result = some 0x00000007 := by
  decide +kernel

theorem test_witness_AddlWritesSum :
    CanDispatch (one (.addl 1 1 1) false) .addl [1] ∧
    Alone (one (.addl 1 1 1) false) (.addl 1 1 1) ((one (.addl 1 1 1) false).d.pc + 4) :=
  ⟨one_can _ _ _, one_alone _ _ _ rfl (by decide) (by decide)⟩

/-- spec/95_test_vectors.md §3.2. -/
theorem test_subl : (after (step { busy (uop .subl 3 0 1 0) with
      int1 := some (uop .subl 3 0 1 0) })).int2.map MicroOp.result = some 0xFFFFFFFF := by
  decide +kernel

theorem test_witness_SublWritesDifference :
    CanDispatch (one (.subl 1 1 1) false) .subl [1] ∧
    Alone (one (.subl 1 1 1) false) (.subl 1 1 1) ((one (.subl 1 1 1) false).d.pc + 4) :=
  ⟨one_can _ _ _, one_alone _ _ _ rfl (by decide) (by decide)⟩

/-- spec/95_test_vectors.md §3.2. -/
theorem test_andl : (after (step { busy (uop .andl 3 0xFFFF00FF 0x00000F0F 0) with
      int1 := some (uop .andl 3 0xFFFF00FF 0x00000F0F 0) })).int2.map MicroOp.result = some 0x0000000F := by
  decide +kernel

theorem test_witness_AndlWritesConjunction :
    CanDispatch (one (.andl 3 1 3855) false) .andl [1] ∧
    Alone (one (.andl 3 1 3855) false) (.andl 3 1 3855) ((one (.andl 3 1 3855) false).d.pc + 4) :=
  ⟨one_can _ _ _, one_alone _ _ _ rfl (by decide) (by decide)⟩

/-- spec/95_test_vectors.md §3.2. -/
theorem test_orl : (after (step { busy (uop .orl 3 0 0xFFFFFFFF 0) with
      int1 := some (uop .orl 3 0 0xFFFFFFFF 0) })).int2.map MicroOp.result = some 0xFFFFFFFF := by
  decide +kernel

theorem test_witness_OrlWritesDisjunction :
    CanDispatch (one (.orl 3 1 (-1)) false) .orl [1] ∧
    Alone (one (.orl 3 1 (-1)) false) (.orl 3 1 (-1)) ((one (.orl 3 1 (-1)) false).d.pc + 4) :=
  ⟨one_can _ _ _, one_alone _ _ _ rfl (by decide) (by decide)⟩

/-- spec/95_test_vectors.md §3.2. -/
theorem test_xorl : (after (step { busy (uop .xorl 3 0xAAAAAAAA 0xFFFFFFFF 0) with
      int1 := some (uop .xorl 3 0xAAAAAAAA 0xFFFFFFFF 0) })).int2.map MicroOp.result = some 0x55555555 := by
  decide +kernel

theorem test_witness_XorlWritesExclusiveOr :
    CanDispatch (one (.xorl 3 1 (-1)) false) .xorl [1] ∧
    Alone (one (.xorl 3 1 (-1)) false) (.xorl 3 1 (-1)) ((one (.xorl 3 1 (-1)) false).d.pc + 4) :=
  ⟨one_can _ _ _, one_alone _ _ _ rfl (by decide) (by decide)⟩

/-- spec/95_test_vectors.md §3.2. -/
theorem test_mull : (after (step { busy (uop .mull 3 6 0xFFFFFFF9 0) with
      mul1 := some (uop .mull 3 6 0xFFFFFFF9 0) })).mul2.map MicroOp.result = some 0xFFFFFFD6 := by
  decide +kernel

theorem test_witness_MullWritesLowProduct :
    CanDispatch (one (.mull 3 1 (-7)) false) .mull [1] ∧
    Alone (one (.mull 3 1 (-7)) false) (.mull 3 1 (-7)) ((one (.mull 3 1 (-7)) false).d.pc + 4) :=
  ⟨one_can _ _ _, one_alone _ _ _ rfl (by decide) (by decide)⟩

/-- spec/95_test_vectors.md §3.3. -/
theorem test_movc : (after (step { busy (uop .movc 3 0 0xFFFFFFFF 0) with
      int1 := some (uop .movc 3 0 0xFFFFFFFF 0) })).int2.map MicroOp.result = some 0xFFFFFFFF := by
  decide +kernel

theorem test_witness_MovcWritesImmediate :
    CanDispatch (one (.movc 0 9) false) .movc [] ∧
    Alone (one (.movc 0 9) false) (.movc 0 9) ((one (.movc 0 9) false).d.pc + 4) :=
  ⟨one_can _ _ _, one_alone _ _ _ rfl (by decide) (by decide)⟩

/-- spec/95_test_vectors.md §3.4: the sum wraps, 0xFFFFFFFF + 1 = 0. -/
theorem test_load_wraps : (after (step { busy (uop .load 3 0xFFFFFFFF 1 0) with
      mem1 := some (uop .load 3 0xFFFFFFFF 1 0) })).mem2.map MicroOp.ea = some 0 := by decide +kernel

theorem test_witness_LoadReadsBasePlusOffset :
    CanDispatch (one (.load 3 1 4) false) .load [1] ∧
    (Alone (one (.load 3 1 4) false) (.load 3 1 4) ((one (.load 3 1 4) false).d.pc + 4) ∧
      InRange (one (.load 3 1 4) false) ((one (.load 3 1 4) false).reg 1 + 4)) ∧
    (Alone (one (.load 3 1 15) false) (.load 3 1 15) ((one (.load 3 1 15) false).d.pc + 4) ∧
      ¬ InRange (one (.load 3 1 15) false) ((one (.load 3 1 15) false).reg 1 + 15)) :=
  ⟨one_can _ _ _, ⟨one_alone _ _ _ rfl (by decide) (by decide), by unfold InRange; decide +kernel⟩,
    one_alone _ _ _ rfl (by decide) (by decide), by unfold InRange; decide +kernel⟩

/-- R129, R151: MEM3 reads the cell into rd and leaves Z. -/
theorem test_ldr_reads : (after (step { busy (uop .ldr 3 2 3 0) with
      mem3 := some { uop .ldr 3 2 3 0 with ea := 5 } })).regs.entry 3 =
    { value := 50, valid := true, tag := 0 } := by decide +kernel

theorem test_witness_LdrReadsBasePlusIndex :
    CanDispatch (one (.ldr 3 3 2) false) .ldr [3, 2] ∧
    (Alone (one (.ldr 3 3 2) false) (.ldr 3 3 2) ((one (.ldr 3 3 2) false).d.pc + 4) ∧
      InRange (one (.ldr 3 3 2) false) ((one (.ldr 3 3 2) false).reg 3 + (one (.ldr 3 3 2) false).reg 2)) ∧
    (Alone (one (.ldr 3 8 8) false) (.ldr 3 8 8) ((one (.ldr 3 8 8) false).d.pc + 4) ∧
      ¬ InRange (one (.ldr 3 8 8) false) ((one (.ldr 3 8 8) false).reg 8 + (one (.ldr 3 8 8) false).reg 8)) :=
  ⟨one_can _ _ _, ⟨one_alone _ _ _ rfl (by decide) (by decide), by unfold InRange; decide +kernel⟩,
    one_alone _ _ _ rfl (by decide) (by decide), by unfold InRange; decide +kernel⟩

/-- R118: the ROB entry holds the `rd` field of the record, 31, though STORE does not use it (R83); the
record in the LSQ holds 0 (R10). -/
theorem test_store_rob_entry :
    let t := after (exec (.store 1 2 0)
      { one (.store 1 2 0) false with d := FrontLatch.fill 4000 0x00000000000107F0 })
    decode 0x00000000000107F0 = .ok (.store 1 2 0) ∧
    t.rob.at? 0 = some { complete := false, pc := 4000, op := .store, rd := 31, hasRd := false } ∧
    t.lsq.entries.map (Option.map (MicroOp.rd ∘ QueueEntry.u)) = [some 0, none] := by
  decide +kernel

/-- R129, R152: MEM3 writes the highest cell and no other. -/
theorem test_store_writes : (after (step { busy (uop .store 0 1 14 7) with
      mem3 := some { uop .store 0 1 14 7 with ea := 15 } })).mem = [(5, 50), (15, 7)] := by
  decide +kernel

theorem test_witness_StoreWritesBasePlusOffset :
    CanDispatch (one (.store 7 1 14) false) .store [7, 1] ∧
    (Alone (one (.store 7 1 14) false) (.store 7 1 14) ((one (.store 7 1 14) false).d.pc + 4) ∧
      InRange (one (.store 7 1 14) false) ((one (.store 7 1 14) false).reg 1 + 14)) ∧
    (Alone (one (.store 7 0 (-1)) false) (.store 7 0 (-1)) ((one (.store 7 0 (-1)) false).d.pc + 4) ∧
      ¬ InRange (one (.store 7 0 (-1)) false) ((one (.store 7 0 (-1)) false).reg 0 + (-1))) :=
  ⟨one_can _ _ _, ⟨one_alone _ _ _ rfl (by decide) (by decide), by unfold InRange; decide +kernel⟩,
    one_alone _ _ _ rfl (by decide) (by decide), by unfold InRange; decide +kernel⟩

/-- Storing 0 over a listed cell removes its entry (the canonical form). -/
theorem test_str_zero : (after (step { busy (uop .str 0 2 3 0) with
      mem3 := some { uop .str 0 2 3 0 with ea := 5 } })).mem = [] := by decide +kernel

theorem test_witness_StrWritesBasePlusIndex :
    CanDispatch (one (.str 7 8 7) false) .str [7, 8, 7] ∧
    (Alone (one (.str 7 8 7) false) (.str 7 8 7) ((one (.str 7 8 7) false).d.pc + 4) ∧
      InRange (one (.str 7 8 7) false) ((one (.str 7 8 7) false).reg 8 + (one (.str 7 8 7) false).reg 7)) ∧
    (Alone (one (.str 7 9 7) false) (.str 7 9 7) ((one (.str 7 9 7) false).d.pc + 4) ∧
      ¬ InRange (one (.str 7 9 7) false) ((one (.str 7 9 7) false).reg 9 + (one (.str 7 9 7) false).reg 7)) :=
  ⟨one_can _ _ _, ⟨one_alone _ _ _ rfl (by decide) (by decide), by unfold InRange; decide +kernel⟩,
    one_alone _ _ _ rfl (by decide) (by decide), by unfold InRange; decide +kernel⟩

/-- R185: taken, to 4000 + 100, and `F` squashed. -/
theorem test_bz_taken : (after (exec (.bz 100) { one (.bz 100) true with
      f := FrontLatch.fill 4004 0 })).pc = 4100 ∧
    (after (exec (.bz 100) { one (.bz 100) true with f := FrontLatch.fill 4004 0 })).f.valid = false :=
  by decide +kernel

theorem test_witness_BzBranchesIfZero :
    CanDispatch (one (.bz 100) true) .bz [] ∧ (one (.bz 100) true).z.value = true ∧
    CanDispatch (one (.bz 100) false) .bz [] ∧ (one (.bz 100) false).z.value = false ∧
    { one (.bz 100) true with z := { value := true, valid := false, tag := 0 } }.z.valid = false ∧
    Alone (one (.bz 100) true) (.bz 100) ((one (.bz 100) true).d.pc + 100) ∧
    Alone (one (.bz 100) false) (.bz 100) ((one (.bz 100) false).d.pc + 4) :=
  ⟨one_can _ _ _, rfl, one_can _ _ _, rfl, rfl, one_alone _ _ _ rfl (by decide) (by decide),
    one_alone _ _ _ rfl (by decide) (by decide)⟩

/-- spec/95_test_vectors.md §3.5: BNZ #-8 at 4004 with Z = 0 goes to 3996. -/
theorem test_bnz_taken : (after (exec (.bnz (-8)) { one (.bnz (-8)) false with
      d := FrontLatch.fill 4004 (encode (.bnz (-8))) })).pc = 3996 := by decide +kernel

theorem test_witness_BnzBranchesIfNotZero :
    CanDispatch (one (.bnz 100) false) .bnz [] ∧ (one (.bnz 100) false).z.value = false ∧
    CanDispatch (one (.bnz 100) true) .bnz [] ∧ (one (.bnz 100) true).z.value = true ∧
    { one (.bnz 100) true with z := { value := true, valid := false, tag := 0 } }.z.valid = false ∧
    Alone (one (.bnz 100) false) (.bnz 100) ((one (.bnz 100) false).d.pc + 100) ∧
    Alone (one (.bnz 100) true) (.bnz 100) ((one (.bnz 100) true).d.pc + 4) :=
  ⟨one_can _ _ _, rfl, one_can _ _ _, rfl, rfl, one_alone _ _ _ rfl (by decide) (by decide),
    one_alone _ _ _ rfl (by decide) (by decide)⟩

/-- R189: x[31] - 8 = 23, any 32-bit target (R190). -/
theorem test_jump : (after (exec (.jump 31 (-8)) (one (.jump 31 (-8)) false))).pc = 23 := by
  decide +kernel

theorem test_witness_JumpGoesToRegisterPlusOffset :
    CanDispatch (one (.jump 1 4103) false) .jump [1] ∧ (busy (uop .add 1 0 0 0)).regValid 1 = false ∧
    Alone (one (.jump 1 4103) false) (.jump 1 4103) ((one (.jump 1 4103) false).reg 1 + 4103) :=
  ⟨one_can _ _ _, by decide +kernel,
    one_alone _ _ _ rfl (by decide +kernel) (by decide +kernel)⟩

/-- R110, R195: the halt flag is set although the ROB is full and HALT stalls. -/
theorem test_halt_stalled :
    (after (exec .halt { one .halt false with
      rob := { entries := [none, none, none], head := 0, tail := 0, count := 3 } })).haltFetch = true ∧
    (after (exec .halt { one .halt false with
      rob := { entries := [none, none, none], head := 0, tail := 0, count := 3 } })).d.stalled = true :=
  by decide +kernel

theorem test_witness_HaltStopsFetchThenTheCore :
    CanDispatch (one .halt false) .halt [] ∧
    Alone (one .halt false) .halt ((one .halt false).d.pc + 4) :=
  ⟨one_can _ _ _, one_alone _ _ _ rfl (by decide) (by decide)⟩

/-! ### The cycle -/

theorem test_witness_StepRunsDecodedInstruction :
    (one (.add 3 1 2) false).stopped = false ∧ (backEnd (one (.add 3 1 2) false)).fault = none ∧
    (one (.add 3 1 2) false).d.valid = true ∧
    decode (one (.add 3 1 2) false).d.word = .ok (.add 3 1 2) := ⟨rfl, rfl, rfl, rfl⟩

/-- An instruction placed after reset is what the next step runs. -/
theorem test_with_fetch_word : isNext (step (State.reset.withFetchWord 64 0x398AF)) = true ∧
    queued (after (step (State.reset.withFetchWord 64 0x398AF))).lsq.entries =
      [{ uop .ldr 5 0 0 0 with pc := 4000 }] := by decide +kernel

/-- Each condition of R101 by itself; the budget at its end and one before it. -/
theorem test_witness_StoppedExactlyAsListed :
    ((small [0]).raise .fetchPcInvalid 0 0).stopped = true ∧
    { small [0] with halted := true }.stopped = true ∧
    { small [0] with completed := 1 }.stopped = true ∧
    { small [0] with cycle := 5 }.stopped = true ∧ { small [0] with cycle := 4 }.stopped = false ∧
    { small [0] with launch := { smallLaunch [0] with stopOnCodeSize := false },
                     completed := 1 }.stopped = false ∧
    (small []).stopped = true ∧ step (small []) = .next (small []) := by
  refine ⟨?_, ?_, ?_, ?_, ?_, ?_, ?_, rfl⟩ <;> decide +kernel

theorem test_witness_EveryCycleIsCounted :
    (small [0]).stopped = false ∧ (after (step (small [0]))).cycle = 1 ∧
    isNext (step ((small [0]).raise .fetchPcInvalid 0 0)) = false ∧
    (small []).fault = none ∧ (small []).stopped = true := by decide +kernel

/-- A ROB whose head, at the last index, is complete; its tail has wrapped. -/
def ringRob (complete : Bool) : ReorderBuffer where
  entries := [some { complete := false, pc := 4004, op := .halt, rd := 0, hasRd := false }, none,
    some { complete := complete, pc := 4000, op := .halt, rd := 0, hasRd := false }]
  head := 2
  tail := 1
  count := 2

/-- R102, R103: a complete head retires and the head wraps; an incomplete one and an empty ROB leave
`RET` empty. -/
theorem test_witness_RetireTakesCompleteHead :
    (ringRob true).at? 2 =
      some { complete := true, pc := 4000, op := .halt, rd := 0, hasRd := false } ∧
    (retireStage { small [0] with rob := ringRob true }).rob.head = 0 ∧
    (retireStage { small [0] with rob := ringRob true }).halted = true ∧
    (retireStage { small [0] with rob := ringRob false }).rob = ringRob false ∧
    (retireStage (small [0])).ret = none ∧ (small [0]).stopped = false ∧
    isNext (step { small [0] with rob := ringRob true }) = true := by decide +kernel

/-- The seven cases of Fetch: halted; both latches held; a bad PC; past the end with and without a
hand-off; one record to an empty `D`; one record kept behind a held `D`. -/
theorem test_witness_FetchReadsAtMostOneRecord :
    (fetchStage { small [7] with haltFetch := true }).pc = 4000 ∧
    (fetchStage { small [7] with
      f := FrontLatch.fill 4000 1, d := FrontLatch.fill 4000 2 }).f.stalled = true ∧
    (fetchStage { small [7] with pc := 3996 }).fault =
      some { code := .fetchPcInvalid, pc := 3996, info := 3996 } ∧
    (fetchStage { small [7] with pc := 4002 }).fault =
      some { code := .fetchPcInvalid, pc := 4002, info := 4002 } ∧
    (fetchStage { small [7] with pc := 4004 }).d.valid = false ∧
    (fetchStage { small [7] with pc := 4004, f := FrontLatch.fill 4000 7 }).d =
      FrontLatch.fill 4000 7 ∧
    (fetchStage (small [7])).d = FrontLatch.fill 4000 7 ∧ (fetchStage (small [7])).pc = 4004 ∧
    (fetchStage { small [7] with d := FrontLatch.fill 3996 2 }).f =
      { valid := true, stalled := true, pc := 4000, word := 7 } := by decide +kernel

/-- Each condition of R114 and R115 by itself, and none. -/
theorem test_witness_DecodeStallsOrDispatches :
    Stalls (busy (uop .add 3 1 2 0)) (.add 1 3 0) ∧
    Stalls { small [0] with z := { value := true, valid := false, tag := 0 } } (.bz 8) ∧
    Stalls { small [0] with
      lsq := { entries := [none, none], head := 0, tail := 0, count := 2 } } (.load 1 0 0) ∧
    Stalls { small [0] with iq := [some { ready := true, u := uop .add 3 1 2 0 },
      some { ready := true, u := uop .add 3 1 2 0 }] } .halt ∧
    Stalls { small [0] with
      rob := { entries := [none, none, none], head := 0, tail := 0, count := 3 } } .halt ∧
    ¬ Stalls (small [0]) (.add 1 3 0) := by
  refine ⟨.inl ⟨3, by decide, by decide +kernel⟩, .inr (.inl ⟨rfl, rfl⟩),
    .inr (.inr (.inl ⟨rfl, rfl⟩)), .inr (.inr (.inr (.inl ⟨rfl, rfl⟩))),
    .inr (.inr (.inr (.inr rfl))), ?_⟩
  rintro (⟨r, -, hv⟩ | ⟨h, -⟩ | ⟨h, -⟩ | ⟨-, h⟩ | h)
  · rw [small_inv.scoreboard.free r rfl] at hv; cases hv
  · cases h
  · cases h
  · cases h
  · cases h

theorem test_witness_DispatchLeavesTheRest :
    destOf (.and 3 1 2) ≠ some 4 ∧ setsZ (instrOpcode (.and 3 1 2)) = false := by decide

/-- Two integer records and one multiply record; with the head at 2 the record of index 2 is older than
that of index 0 (R121). -/
def issueState : State :=
  { small [0] with
    iq := [some { ready := true, u := { uop .add 3 1 2 0 with rob := 0 } },
      some { ready := true, u := { uop .sub 4 1 2 0 with rob := 2 } },
      some { ready := true, u := { uop .mul 5 1 2 0 with rob := 1 } }]
    rob := { entries := [none, none, none], head := 2, tail := 2, count := 3 } }

theorem test_witness_IssueTakesTheOldestOfItsUnit :
    (issueInt issueState).int1 = some { uop .sub 4 1 2 0 with rob := 2 } ∧
    (issueInt issueState).iq[1]? = some none ∧
    (issueMul issueState).mul1 = some { uop .mul 5 1 2 0 with rob := 1 } ∧
    issueInt (small [0]) = small [0] ∧ issueMul (small [0]) = small [0] ∧
    issueInt { issueState with int1 := some (uop .add 1 0 0 0) } =
      { issueState with int1 := some (uop .add 1 0 0 0) } ∧
    issueMul { issueState with mul1 := some (uop .mul 1 0 0 0) } =
      { issueState with mul1 := some (uop .mul 1 0 0 0) } := by decide +kernel

theorem test_witness_IqInsertTakesTheLowestFreeSlot :
    IssueQueue.hasFree [none, none] = true ∧
    IssueQueue.insert [some { ready := true, u := uop .add 1 0 0 0 }, none] (uop .sub 1 0 0 0) =
      [some { ready := true, u := uop .add 1 0 0 0 },
        some { ready := true, u := uop .sub 1 0 0 0 }] ∧
    IssueQueue.hasFree [some { ready := true, u := uop .add 1 0 0 0 }] = false := by decide +kernel

/-- A load-store queue of one entry, at the last index, whose tail has wrapped. -/
def ringLsq : LoadStoreQueue where
  entries := [none, some { ready := true, u := uop .load 1 0 0 0 }]
  head := 1
  tail := 0
  count := 1

theorem test_witness_LsqIsAFifoRing :
    RingInv ringLsq.entries ringLsq.head ringLsq.tail ringLsq.count 2 ∧ ringLsq.count < 2 ∧
    (ringLsq.push 2 (uop .store 0 0 0 0)).front = some (uop .load 1 0 0 0) ∧
    (ringLsq.push 2 (uop .store 0 0 0 0)).tail = 1 ∧
    (issueLsq { small [0] with lsq := ringLsq }).mem1 = some (uop .load 1 0 0 0) ∧
    (issueLsq { small [0] with lsq := ringLsq }).lsq =
      { entries := [none, none], head := 0, tail := 0, count := 0 } ∧
    issueLsq (small [0]) = small [0] ∧
    issueLsq { small [0] with lsq := ringLsq, mem1 := some (uop .load 2 0 0 0) } =
      { small [0] with lsq := ringLsq, mem1 := some (uop .load 2 0 0 0) } := by
  refine ⟨⟨?_, ?_, ?_, ?_, ?_⟩, ?_, ?_, ?_, ?_, ?_, ?_, ?_⟩ <;> decide +kernel

/-- The guard of R31 open; closed by the tag; closed by the valid bit; and a record with no
destination. -/
theorem test_witness_WritebackIsGuardedByTheTag :
    ((busy (uop .add 3 1 2 0)).writeback { uop .add 3 1 2 0 with result := 9 }).regs.entry 3 =
      { value := 9, valid := true, tag := 0 } ∧
    ((busy (uop .add 3 1 2 0)).writeback { uop .add 3 1 2 0 with rob := 1 }).regs =
      (busy (uop .add 3 1 2 0)).regs ∧
    ((small [0]).writeback { uop .add 3 1 2 0 with result := 9 }).regs = (small [0]).regs ∧
    ((busy (uop .add 3 1 2 0)).writeback { uop .halt 3 1 2 0 with result := 9 }).regs =
      (busy (uop .add 3 1 2 0)).regs ∧
    ((busy (uop .add 3 1 2 0)).writeback (uop .add 3 1 2 0)).z =
      { value := true, valid := true, tag := 0 } := by decide +kernel

/-! ### Records in flight -/

/-- SUB of 7 and 7 into R3 in INT2; MUL in MUL3; LOAD of cell 5 in MEM3; STORE of 7 to cell 15 in MEM3. -/
def inInt2 : State :=
  { busy (uop .sub 3 7 7 0) with int2 := some (uop .sub 3 7 7 0) }

def inMul3 : State :=
  { busy (uop .mul 3 1 2 0) with mul3 := some { uop .mul 3 1 2 0 with result := 2 } }

def inMem3 : State :=
  { busy (uop .load 3 1 4 0) with mem3 := some { uop .load 3 1 4 0 with ea := 5 } }

def storing : State :=
  { busy (uop .store 0 1 14 7) with mem3 := some { uop .store 0 1 14 7 with ea := 15 } }

/-- A load of the highest cell in MEM1. -/
def inMem1 : State := { busy (uop .load 3 1 14 0) with mem1 := some (uop .load 3 1 14 0) }

/-- An ADD waiting in the IQ. -/
def inIq : State :=
  { busy (uop .add 3 1 2 0) with iq := [some { ready := true, u := uop .add 3 1 2 0 }, none] }

/-- `D` empty behind a dispatched HALT, and `D` holding a HALT already examined. -/
def halting : State := { inIq with haltFetch := true }

def haltHeld : State := { one .halt false with haltFetch := true }

theorem inInt2_inv : Inv inInt2 := by
  refine ⟨?_, ⟨?_, ?_, ⟨?_, ?_, ?_, ?_, ?_⟩, ?_⟩, ⟨?_, ?_, ?_, ?_, ?_, ?_, ?_, ?_⟩, ⟨?_, ?_, ?_, ?_⟩,
    ⟨⟨?_, ?_, ?_, ?_, ?_⟩, ?_, ?_, ?_⟩, ⟨?_, ?_, ?_, ?_⟩, ⟨?_, ?_, ?_, ?_, ?_, ?_, ?_⟩, ⟨?_, ?_⟩⟩ <;>
    decide +kernel

theorem inMul3_inv : Inv inMul3 := by
  refine ⟨?_, ⟨?_, ?_, ⟨?_, ?_, ?_, ?_, ?_⟩, ?_⟩, ⟨?_, ?_, ?_, ?_, ?_, ?_, ?_, ?_⟩, ⟨?_, ?_, ?_, ?_⟩,
    ⟨⟨?_, ?_, ?_, ?_, ?_⟩, ?_, ?_, ?_⟩, ⟨?_, ?_, ?_, ?_⟩, ⟨?_, ?_, ?_, ?_, ?_, ?_, ?_⟩, ⟨?_, ?_⟩⟩ <;>
    decide +kernel

theorem inMem3_inv : Inv inMem3 := by
  refine ⟨?_, ⟨?_, ?_, ⟨?_, ?_, ?_, ?_, ?_⟩, ?_⟩, ⟨?_, ?_, ?_, ?_, ?_, ?_, ?_, ?_⟩, ⟨?_, ?_, ?_, ?_⟩,
    ⟨⟨?_, ?_, ?_, ?_, ?_⟩, ?_, ?_, ?_⟩, ⟨?_, ?_, ?_, ?_⟩, ⟨?_, ?_, ?_, ?_, ?_, ?_, ?_⟩, ⟨?_, ?_⟩⟩ <;>
    decide +kernel

theorem storing_inv : Inv storing := by
  refine ⟨?_, ⟨?_, ?_, ⟨?_, ?_, ?_, ?_, ?_⟩, ?_⟩, ⟨?_, ?_, ?_, ?_, ?_, ?_, ?_, ?_⟩, ⟨?_, ?_, ?_, ?_⟩,
    ⟨⟨?_, ?_, ?_, ?_, ?_⟩, ?_, ?_, ?_⟩, ⟨?_, ?_, ?_, ?_⟩, ⟨?_, ?_, ?_, ?_, ?_, ?_, ?_⟩, ⟨?_, ?_⟩⟩ <;>
    decide +kernel

theorem inMem1_inv : Inv inMem1 := by
  refine ⟨?_, ⟨?_, ?_, ⟨?_, ?_, ?_, ?_, ?_⟩, ?_⟩, ⟨?_, ?_, ?_, ?_, ?_, ?_, ?_, ?_⟩, ⟨?_, ?_, ?_, ?_⟩,
    ⟨⟨?_, ?_, ?_, ?_, ?_⟩, ?_, ?_, ?_⟩, ⟨?_, ?_, ?_, ?_⟩, ⟨?_, ?_, ?_, ?_, ?_, ?_, ?_⟩, ⟨?_, ?_⟩⟩ <;>
    decide +kernel

theorem inIq_inv : Inv inIq := by
  refine ⟨?_, ⟨?_, ?_, ⟨?_, ?_, ?_, ?_, ?_⟩, ?_⟩, ⟨?_, ?_, ?_, ?_, ?_, ?_, ?_, ?_⟩, ⟨?_, ?_, ?_, ?_⟩,
    ⟨⟨?_, ?_, ?_, ?_, ?_⟩, ?_, ?_, ?_⟩, ⟨?_, ?_, ?_, ?_⟩, ⟨?_, ?_, ?_, ?_, ?_, ?_, ?_⟩, ⟨?_, ?_⟩⟩ <;>
    decide +kernel

theorem halting_inv : Inv halting :=
  (show Inv inIq from inIq_inv) |> fun h =>
  ⟨h.1, ⟨h.2.1, h.2.2, ⟨h.2.3.1, h.2.3.2, h.2.3.3, h.2.3.4, h.2.3.5⟩, h.2.4⟩,
    ⟨h.3.1, h.3.2, h.3.3, h.3.4, h.3.5, h.3.6, h.3.7, h.3.8⟩, ⟨h.4.1, h.4.2, h.4.3, h.4.4⟩,
    ⟨⟨h.5.1.1, h.5.1.2, h.5.1.3, h.5.1.4, h.5.1.5⟩, h.5.2, h.5.3, h.5.4⟩,
    ⟨h.6.1, h.6.2, h.6.3, h.6.4⟩,
    ⟨nofun, nofun, nofun, nofun, nofun, fun _ => rfl, nofun⟩, ⟨h.8.1, h.8.2⟩⟩

theorem haltHeld_inv : Inv haltHeld :=
  (show Inv (one .halt false) from one_inv _ _) |> fun h =>
  ⟨h.1, ⟨h.2.1, h.2.2, ⟨h.2.3.1, h.2.3.2, h.2.3.3, h.2.3.4, h.2.3.5⟩, h.2.4⟩,
    ⟨h.3.1, h.3.2, h.3.3, h.3.4, h.3.5, h.3.6, h.3.7, h.3.8⟩, ⟨h.4.1, h.4.2, h.4.3, h.4.4⟩,
    ⟨⟨h.5.1.1, h.5.1.2, h.5.1.3, h.5.1.4, h.5.1.5⟩, h.5.2, h.5.3, h.5.4⟩,
    ⟨h.6.1, h.6.2, h.6.3, h.6.4⟩,
    ⟨nofun, h.7.2, nofun, nofun, nofun, fun _ => rfl, fun _ _ => rfl⟩, ⟨h.8.1, h.8.2⟩⟩

theorem test_witness_WritebackIsSeenByDecode :
    (Inv inInt2 ∧ inInt2.stopped = false ∧ inInt2.producer 3 = some (uop .sub 3 7 7 0) ∧
      inInt2.int2 = some (uop .sub 3 7 7 0)) ∧
    (Inv inMul3 ∧ inMul3.stopped = false ∧
      inMul3.producer 3 = some { uop .mul 3 1 2 0 with result := 2 } ∧
      inMul3.mul3 = some { uop .mul 3 1 2 0 with result := 2 }) ∧
    (Inv inMem3 ∧ inMem3.stopped = false ∧
      inMem3.producer 3 = some { uop .load 3 1 4 0 with ea := 5 } ∧
      inMem3.mem3 = some { uop .load 3 1 4 0 with ea := 5 }) :=
  ⟨⟨inInt2_inv, rfl, rfl, rfl⟩, ⟨inMul3_inv, rfl, rfl, rfl⟩, inMem3_inv, rfl, rfl, rfl⟩

theorem test_witness_EveryRecordMovesOnEveryCycle :
    inMem1.stopped = false ∧ (∀ u ∈ inMem1.mem1, InRange inMem1 (u.a + u.b)) ∧ Inv inMem1 := by
  refine ⟨rfl, ?_, inMem1_inv⟩
  intro u hu
  cases hu
  unfold InRange
  decide +kernel

theorem test_witness_QueuesNeverFill :
    Inv inIq ∧ inIq.stopped = false ∧ (∀ u ∈ inIq.mem1, InRange inIq (u.a + u.b)) ∧
    inIq.waiting ≠ [] := ⟨inIq_inv, rfl, nofun, by decide +kernel⟩

/-! ### Faults -/

/-- The record `w` fetched into `D`. -/
def holding (w : Record) : State :=
  { small [w] with pc := 4004, d := FrontLatch.fill 4000 w }

/-- A load from cell `a` in MEM1. -/
def loading (a : Word) : State :=
  { busy (uop .load 3 a 0 0) with mem1 := some (uop .load 3 a 0 0) }

/-- The fault a step records, if it records one. -/
def faultOf (s : State) : Option FaultRecord := (after (step s)).fault

/-- Tag 0x00, the first and the last tag of 0x16 to 0x1F, and the lowest and the highest reserved
bit (R86). -/
theorem test_witness_IllegalRecordFaults :
    ((holding 0x00).stopped = false ∧ (holding 0x00).mem1 = none ∧ (holding 0x00).d.valid = true ∧
      (recOp 0x00).toNat = 0 ∧ faultOf (holding 0x00) =
        some { code := .illegalInstruction, pc := 4000, info := 0x00 }) ∧
    ((holding 0x16).stopped = false ∧ (holding 0x16).mem1 = none ∧ (holding 0x16).d.valid = true ∧
      0x16 ≤ (recOp 0x16).toNat ∧ faultOf (holding 0x16) =
        some { code := .illegalInstruction, pc := 4000, info := 0x16 }) ∧
    ((holding 0x1F).stopped = false ∧ (holding 0x1F).mem1 = none ∧ (holding 0x1F).d.valid = true ∧
      0x16 ≤ (recOp 0x1F).toNat ∧ faultOf (holding 0x1F) =
        some { code := .illegalInstruction, pc := 4000, info := 0x1F }) ∧
    ((holding 0x02000015).stopped = false ∧ (holding 0x02000015).mem1 = none ∧ (holding 0x02000015).d.valid = true ∧
      recRsv 0x02000015 ≠ 0 ∧ faultOf (holding 0x02000015) =
        some { code := .illegalInstruction, pc := 4000, info := 0x02000015 }) ∧
    ((holding 0x80000001).stopped = false ∧ (holding 0x80000001).mem1 = none ∧ (holding 0x80000001).d.valid = true ∧
      recRsv 0x80000001 ≠ 0 ∧ faultOf (holding 0x80000001) =
        some { code := .illegalInstruction, pc := 4000, info := 0x80000001 }) := by
  decide +kernel

/-- The bounds 0 ≤ ea < 16 at both ends, from either side (R204). -/
theorem test_witness_DataAddressRangeFaults :
    ((loading 0).stopped = false ∧ (loading 0).mem1 = some (uop .load 3 0 0 0) ∧
      InRange (loading 0) (0 + 0) ∧ faultOf (loading 0) = none) ∧
    ((loading 15).stopped = false ∧ (loading 15).mem1 = some (uop .load 3 15 0 0) ∧
      InRange (loading 15) (15 + 0) ∧ faultOf (loading 15) = none) ∧
    ((loading 16).stopped = false ∧ (loading 16).mem1 = some (uop .load 3 16 0 0) ∧
      ¬ InRange (loading 16) (16 + 0) ∧ faultOf (loading 16) =
        some { code := .dataAddressRange, pc := 4000, info := 16 }) ∧
    ((loading 0xFFFFFFFF).stopped = false ∧ (loading 0xFFFFFFFF).mem1 = some (uop .load 3 0xFFFFFFFF 0 0) ∧
      ¬ InRange (loading 0xFFFFFFFF) (0xFFFFFFFF + 0) ∧ faultOf (loading 0xFFFFFFFF) =
        some { code := .dataAddressRange, pc := 4000, info := 0xFFFFFFFF }) := by
  unfold InRange
  decide +kernel

/-- A PC below CODE_BASE, a misaligned one and a good one (R205); the highest PC, which wraps; and a
taken branch that leaves code. -/
theorem test_witness_FetchPcInvalidFaults :
    { small [0] with pc := 3999 }.fault = none ∧
    pcWellFormed (smallLaunch [0]) 3999 = false ∧ pcWellFormed (smallLaunch [0]) 3996 = false ∧
    pcWellFormed (smallLaunch [0]) 4000 = true ∧ pcWellFormed (smallLaunch [0]) 4001 = false ∧
    pcWellFormed (smallLaunch [0]) 4004 = true ∧
    (pcWellFormed (smallLaunch [0]) 0xFFFFFFFC = true ∧
      pcWellFormed (smallLaunch [0]) (0xFFFFFFFC + 4) = false) ∧
    step (one (.bnz (-8)) false) = .next (after (step (one (.bnz (-8)) false))) ∧
    pcWellFormed (one (.bnz (-8)) false).launch (one (.bnz (-8)) false).pc = true ∧
    pcWellFormed (after (step (one (.bnz (-8)) false))).launch
      (after (step (one (.bnz (-8)) false))).pc = false := by
  refine ⟨?_, ?_, ?_, ?_, ?_, ?_, ?_, next_after ?_, ?_, ?_⟩ <;> decide +kernel

/-- Two faults in one cycle: MEM1's is the earlier (R207). -/
def twoFaults : State := { loading 16 with d := FrontLatch.fill 4000 0 }

theorem test_witness_EarliestFaultWins :
    (twoFaults.stopped = false ∧ step twoFaults = .next (after (step twoFaults)) ∧
      (faultOf twoFaults).map FaultRecord.code = some .dataAddressRange) ∧
    ((holding 0).stopped = false ∧ step (holding 0) = .next (after (step (holding 0))) ∧
      (faultOf (holding 0)).map FaultRecord.code = some .illegalInstruction) ∧
    ((one (.jump 31 0) false).stopped = false ∧
      step (one (.jump 31 0) false) = .next (after (step (one (.jump 31 0) false))) ∧
      faultOf (one (.jump 31 0) false) =
        some { code := .fetchPcInvalid, pc := 31, info := 31 }) := by
  refine ⟨⟨?_, next_after ?_, ?_⟩, ⟨?_, next_after ?_, ?_⟩, ?_, next_after ?_, ?_⟩ <;> decide +kernel

theorem test_witness_FaultStopsTheCoreUntilReset :
    (loading 16).stopped = false ∧ isNext (step (loading 16)) = true ∧
    (faultOf (loading 16)).map FaultRecord.code = some .dataAddressRange ∧
    (holding 0x16).stopped = false ∧ isNext (step (holding 0x16)) = true ∧
    (faultOf (holding 0x16)).map FaultRecord.code = some .illegalInstruction ∧
    { small [0] with pc := 4002 }.stopped = false ∧
    isNext (step { small [0] with pc := 4002 }) = true ∧
    (faultOf { small [0] with pc := 4002 }).map FaultRecord.code = some .fetchPcInvalid := by
  decide +kernel

/-- The step after a fault answers it (assumption 7). -/
theorem test_fault_is_answered : isNext (step (after (step (holding 0)))) = false ∧
    (after (step (holding 0))).applyReset.fault = none := by decide +kernel

/-! ### What changes what -/

theorem test_witness_MemoryChangesOnlyByStoresInMem3 :
    Inv storing ∧ step storing = .next (after (step storing)) ∧
    memRead (after (step storing)).mem 15 ≠ memRead storing.mem 15 :=
  ⟨storing_inv, next_after (by decide +kernel), by decide +kernel⟩

theorem test_witness_RegistersAndZChangeOnlyByWriteback :
    Inv inInt2 ∧ step inInt2 = .next (after (step inInt2)) ∧
    (after (step inInt2)).reg 3 ≠ inInt2.reg 3 ∧
    (after (step inInt2)).z.value ≠ inInt2.z.value :=
  ⟨inInt2_inv, next_after (by decide +kernel), by decide +kernel, by decide +kernel⟩

/-- Three records, BZ in `D`, and Z 1: the branch is taken and the record at its target is fetched. -/
def branching : State := { one (.bz 8) true with launch := smallLaunch [encode (.bz 8), 0, 7] }

/-- The PC as before; Fetch's advance; the target of each taken branch, and the target plus 4. -/
theorem test_witness_PcChangesOnlyByFetchAndBranches :
    (isNext (step inInt2) = true ∧ (after (step inInt2)).pc = inInt2.pc) ∧
    (isNext (step (small [7])) = true ∧ (after (step (small [7]))).pc = 4004) ∧
    (isNext (step (one (.bz 100) true)) = true ∧ (after (step (one (.bz 100) true))).pc = 4100) ∧
    (isNext (step (one (.bnz 100) false)) = true ∧
      (after (step (one (.bnz 100) false))).pc = 4100) ∧
    (isNext (step (one (.jump 1 4103) false)) = true ∧
      (after (step (one (.jump 1 4103) false))).pc = 4104) ∧
    (isNext (step branching) = true ∧ (after (step branching)).pc = 4012) := by
  decide +kernel

theorem test_witness_CodeAndParametersNeverChange :
    isNext (step (one (.add 3 1 2) false)) = true ∧
    isNext (exec (.add 3 1 2) (one (.add 3 1 2) false)) = true := by decide +kernel

theorem test_witness_HaltContainment :
    ((one .halt false).stopped = false ∧ (one .halt false).mem1 = none ∧
      (one .halt false).d.valid = true ∧ decode (one .halt false).d.word = .ok .halt ∧
      isNext (step (one .halt false)) = true) ∧
    (Inv halting ∧ halting.stopped = false ∧ halting.haltFetch = true ∧
      isNext (step halting) = true ∧ halting.d.valid = false) ∧
    (Inv haltHeld ∧ haltHeld.stopped = false ∧ haltHeld.haltFetch = true ∧
      isNext (step haltHeld) = true ∧ haltHeld.d.valid = true) :=
  ⟨⟨rfl, rfl, rfl, rfl, by decide +kernel⟩, ⟨halting_inv, rfl, rfl, by decide +kernel, rfl⟩,
    haltHeld_inv, rfl, rfl, by decide +kernel, rfl⟩

/-! ### Reset, invariants and memory -/

/-- R45 with the defaults of R5. -/
theorem test_reset : State.reset.pc = 4000 ∧ State.reset.reg 31 = 0 ∧ State.reset.regValid 0 = true ∧
    State.reset.z = { value := false, valid := true, tag := 0 } ∧ State.reset.iq.length = 8 ∧
    State.reset.lsq.entries.length = 6 ∧ State.reset.rob.entries.length = 12 ∧
    State.reset.dumpMem.length = 4096 := by decide +kernel

theorem test_witness_ResetMeetsTheInvariants :
    (smallLaunch [0]).wellFormed ∧ (small [0]).dumpRegs[31] = (31, true) := by decide +kernel

theorem test_witness_StepKeepsTheInvariants :
    Inv inIq ∧ step inIq = .next (after (step inIq)) := ⟨inIq_inv, next_after (by decide +kernel)⟩

theorem test_witness_ScoreboardNamesTheYoungestProducer :
    Inv (one (.add 3 1 2) false) ∧ isNext (step (one (.add 3 1 2) false)) = true ∧
    (after (step (one (.add 3 1 2) false))).regValid 3 = false ∧
    (after (step (one (.add 3 1 2) false))).regValid 4 = true ∧
    (after (step (one (.add 3 1 2) false))).z.valid = false :=
  ⟨one_inv _ _, by decide +kernel, by decide +kernel, by decide +kernel, by decide +kernel⟩

/-- All three at their bounds. -/
def full : State :=
  { one (.add 3 1 2) false with
    rob := { entries := [none, none, none], head := 0, tail := 0, count := 3 }
    lsq := { entries := [none, none], head := 0, tail := 0, count := 2 } }

theorem test_witness_StepKeepsTheCapacities :
    full.rob.count ≤ full.launch.robSize ∧ full.lsq.count ≤ full.launch.lsqSize ∧
    full.iq.length = full.launch.iqSize ∧ step full = .next (after (step full)) :=
  ⟨by decide, by decide, rfl, next_after (by decide +kernel)⟩

theorem test_witness_StepKeepsTheMemoryForm :
    storing.mem.wf ∧ step storing = .next (after (step storing)) :=
  ⟨by decide, next_after (by decide +kernel)⟩

theorem test_witness_MemoryReadsWhatWasWritten :
    Memory.wf [(5, 50)] ∧ memWrite [(5, 50)] 3 1 = [(3, 1), (5, 50)] ∧
    memWrite [(5, 50)] 5 2 = [(5, 2)] ∧ memWrite [(5, 50)] 5 0 = [] ∧
    memWrite [(5, 50)] 9 0 = [(5, 50)] := by decide

theorem test_witness_CycleRefinesSequentialExecution :
    (Inv inInt2 ∧ step inInt2 = .next (after (step inInt2)) ∧ (after (step inInt2)).fault = none) ∧
    (Inv (one (.add 3 1 2) false) ∧
      step (one (.add 3 1 2) false) = .next (after (step (one (.add 3 1 2) false))) ∧
      (after (step (one (.add 3 1 2) false))).fault = none ∧
      (one (.add 3 1 2) false).inFlight = [] ∧ (one (.add 3 1 2) false).regValid 3 = true) :=
  ⟨⟨inInt2_inv, next_after (by decide +kernel), by decide +kernel⟩, one_inv _ _,
    next_after (by decide +kernel), by decide +kernel, rfl, by decide +kernel⟩

end Sys2Proof.Tests
end

/-! PROOFS of the statements on the state and its reset (spec/10_state.md): what writes registers, Z
and the PC, and the state after reset. -/

namespace Sys2Proof.Machine

/-! ### The state after reset (R45) -/

section Reset

variable (l : Launch)

@[simp] theorem resetFrom_waiting : (State.resetFrom l).waiting = [] := by
  simp [State.waiting, State.resetFrom]

@[simp] theorem resetFrom_inFlight : (State.resetFrom l).inFlight = [] := by
  simp [State.inFlight, State.inStage1, State.inStage2, State.inStage3, State.resetFrom, State.waiting]

theorem occupied_replicate_none (n : Nat) : occupied (List.replicate n none) = [] :=
  List.map_eq_nil_iff.mp (queued_replicate_none n)

@[simp] theorem resetFrom_iq_occupied : occupied (State.resetFrom l).iq = [] :=
  occupied_replicate_none _

@[simp] theorem resetFrom_lsq_occupied : occupied (State.resetFrom l).lsq.entries = [] :=
  occupied_replicate_none _

@[simp] theorem resetFrom_robAt (k : Nat) : (State.resetFrom l).rob.at? k = none := by
  simp only [State.resetFrom, ReorderBuffer.at?, List.getD_eq_getElem?_getD, List.getElem?_replicate]
  split <;> rfl

theorem resetFrom_queueInv (h : l.wellFormed) : QueueInv (State.resetFrom l) := by
  obtain ⟨-, hlsq, -⟩ := h
  exact ⟨List.length_replicate, by simp, RingInv.reset hlsq, by simp⟩

theorem resetFrom_unitInv : UnitInv (State.resetFrom l) := by
  constructor <;> exact nofun

theorem resetFrom_convoyInv : ConvoyInv (State.resetFrom l) where
  waiting := by simp
  stage1 := Nat.zero_le 1
  stage2 := Nat.zero_le 1
  stage3 := Nat.zero_le 1

theorem resetFrom_robInv (h : l.wellFormed) : RobInv (State.resetFrom l) := by
  obtain ⟨-, -, hrob, -⟩ := h
  exact ⟨RingInv.reset hrob, by simp, by simp, by simp⟩

/-- Every register and Z is valid, and no producer is in flight. -/
theorem resetFrom_scoreboardInv : ScoreboardInv (State.resetFrom l) where
  free := fun i _ => by rw [State.regValid, reset_entry]; rfl
  held := by simp [State.producer]
  z_free := fun _ => rfl
  z_held := by simp [State.zProducer]

theorem resetFrom_frontInv : FrontInv (State.resetFrom l) := by
  constructor <;> exact nofun

theorem resetFrom_memoryInv (h : l.wellFormed) : MemoryInv (State.resetFrom l) := by
  obtain ⟨-, -, -, hform, hcells⟩ := h
  exact ⟨hform, hcells⟩

theorem resetFrom_inv (h : l.wellFormed) : Inv (State.resetFrom l) where
  launch := h
  queue := resetFrom_queueInv l h
  units := resetFrom_unitInv l
  convoy := resetFrom_convoyInv l
  rob := resetFrom_robInv l h
  scoreboard := resetFrom_scoreboardInv l
  front := resetFrom_frontInv l
  memory := resetFrom_memoryInv l h

end Reset

/-- With the default REG_INIT every register is 0 after reset. -/
theorem reset_reg (r : RegNum) : State.reset.reg r = 0 := by
  rw [State.reg, State.reset, reset_entry]
  simp [Launch.default, RegEntry.reset]

/-! ### What the final stages write (R27, R32, R132) -/

theorem State.writeback_reg (s : State) (u : MicroOp) (r : RegNum) :
    (s.writeback u).reg r = s.reg r ∨
      u.writes r = true ∧ (s.writeback u).reg r = u.result := by
  simp only [State.reg, State.writeback_regs]
  by_cases hd : hasDest u.op
  · rw [if_pos hd, Scoreboard.entry_writeback]
    split
    · next hw => exact .inr ⟨by simp [MicroOp.writes, hd, hw.1], rfl⟩
    · exact .inl rfl
  · exact .inl (by rw [if_neg hd])

theorem State.writeback_zValue (s : State) (u : MicroOp) :
    (s.writeback u).z.value = s.z.value ∨
      setsZ u.op = true ∧ (s.writeback u).z.value = zeroFlag u.result := by
  rw [State.writeback_z]
  by_cases hz : setsZ u.op
  · rw [if_pos hz, ZEntry.writeback]
    split
    · exact .inr ⟨hz, rfl⟩
    · exact .inl rfl
  · exact .inl (by rw [if_neg hz])

theorem stageInt2_reg (s : State) (r : RegNum) : (stageInt2 s).reg r = s.reg r ∨
    ∃ u, s.int2 = some u ∧ u.writes r = true ∧ (stageInt2 s).reg r = u.result := by
  unfold stageInt2
  split
  · exact .inl rfl
  · next u hu => exact (s.writeback_reg u r).imp_right fun h => ⟨u, hu, h⟩

theorem stageMul3_reg (s : State) (r : RegNum) : (stageMul3 s).reg r = s.reg r ∨
    ∃ u, s.mul3 = some u ∧ u.writes r = true ∧ (stageMul3 s).reg r = u.result := by
  unfold stageMul3
  split
  · exact .inl rfl
  · next u hu => exact (s.writeback_reg u r).imp_right fun h => ⟨u, hu, h⟩

theorem stageMem3_reg (s : State) (r : RegNum) : (stageMem3 s).reg r = s.reg r ∨
    ∃ u, s.mem3 = some u ∧ u.writes r = true ∧ isLoad u.op = true ∧
      (stageMem3 s).reg r = memRead s.mem u.ea.toNat := by
  unfold stageMem3
  split
  · exact .inl rfl
  · next u hu =>
    split
    · next hl =>
      exact (s.writeback_reg (u.loaded s.mem) r).imp_right fun h => ⟨u, hu, h.1, hl, h.2⟩
    · exact .inl rfl

theorem stageInt2_zValue (s : State) : (stageInt2 s).z.value = s.z.value ∨
    ∃ u, s.int2 = some u ∧ setsZ u.op = true ∧ (stageInt2 s).z.value = zeroFlag u.result := by
  unfold stageInt2
  split
  · exact .inl rfl
  · next u hu => exact (s.writeback_zValue u).imp_right fun h => ⟨u, hu, h⟩

theorem stageMul3_zValue (s : State) : (stageMul3 s).z.value = s.z.value ∨
    ∃ u, s.mul3 = some u ∧ setsZ u.op = true ∧ (stageMul3 s).z.value = zeroFlag u.result := by
  unfold stageMul3
  split
  · exact .inl rfl
  · next u hu => exact (s.writeback_zValue u).imp_right fun h => ⟨u, hu, h⟩

theorem setsZ_of_isLoad {op : Opcode} (h : isLoad op = true) : setsZ op = false := by
  revert h; cases op <;> decide

/-- No memory instruction sets Z (R114). -/
@[simp] theorem stageMem3_z (s : State) : (stageMem3 s).z = s.z := by
  unfold stageMem3
  split
  · rfl
  · next u _ =>
    split
    · next hl => simp [MicroOp.loaded, setsZ_of_isLoad hl]
    · rfl

/-- The last of MEM3, MUL3 and INT2 that writes register `r` gives its value after the back end. -/
theorem backEnd_reg (s : State) (r : RegNum) : (backEnd s).reg r = s.reg r ∨
    (∃ u, (s.int2 = some u ∨ s.mul3 = some u) ∧ u.writes r = true ∧ (backEnd s).reg r = u.result) ∨
    ∃ u, s.mem3 = some u ∧ u.writes r = true ∧ isLoad u.op = true ∧
      (backEnd s).reg r = memRead s.mem u.ea.toNat := by
  obtain ⟨g, hg, -, hregs, -⟩ := backEnd_final s
  have hreg : (backEnd s).reg r = g.reg r := by rw [State.reg, hregs, State.reg]
  rw [hreg, hg]
  rcases stageInt2_reg (stageMul3 (stageMem3 (retireStage s))) r with e | ⟨u, hu, hw, e⟩ <;> rw [e]
  · rcases stageMul3_reg (stageMem3 (retireStage s)) r with e | ⟨u, hu, hw, e⟩ <;> rw [e]
    · rcases stageMem3_reg (retireStage s) r with e | ⟨u, hu, hw, hl, e⟩ <;> rw [e]
      · exact .inl (by simp [State.reg])
      · exact .inr (.inr ⟨u, by simpa using hu, hw, hl, by simp⟩)
    · exact .inr (.inl ⟨u, .inr (by simpa using hu), hw, rfl⟩)
  · exact .inr (.inl ⟨u, .inl (by simpa using hu), hw, rfl⟩)

/-- The last of MUL3 and INT2 that writes Z gives its value after the back end. -/
theorem backEnd_zValue (s : State) : (backEnd s).z.value = s.z.value ∨
    ∃ u, (s.int2 = some u ∨ s.mul3 = some u) ∧ setsZ u.op = true ∧
      (backEnd s).z.value = zeroFlag u.result := by
  obtain ⟨g, hg, -, -, hz, -⟩ := backEnd_final s
  rw [hz, hg]
  rcases stageInt2_zValue (stageMul3 (stageMem3 (retireStage s))) with e | ⟨u, hu, hs, e⟩ <;> rw [e]
  · rcases stageMul3_zValue (stageMem3 (retireStage s)) with e | ⟨u, hu, hs, e⟩ <;> rw [e]
    · exact .inl (by simp)
    · exact .inr ⟨u, .inr (by simpa using hu), hs, rfl⟩
  · exact .inr ⟨u, .inl (by simpa using hu), hs, rfl⟩

theorem not_isLoad_of_unit {op : Opcode} (h : unitOf op ≠ .mem) : isLoad op = false := by
  revert h; cases op <;> decide

/-- The records of INT2 and MUL3 are no loads: they carry their result (R127, R128). -/
theorem UnitInv.not_isLoad {s : State} (h : UnitInv s) {u : MicroOp}
    (hu : s.int2 = some u ∨ s.mul3 = some u) : isLoad u.op = false := by
  rcases hu with hu | hu
  · exact not_isLoad_of_unit (by simp [(h.int2 u hu).1])
  · exact not_isLoad_of_unit (by simp [(h.mul3 u hu).1])

/-- R114, column HasDest: the instructions that have no destination. -/
theorem hasDest_iff {op : Opcode} :
    hasDest op = true ↔ op ∉ [Opcode.store, .str, .bz, .bnz, .jump, .halt] := by
  cases op <;> decide

/-- R114, column SetsZ: the instructions that set Z. -/
theorem setsZ_iff {op : Opcode} :
    setsZ op = true ↔ op ∈ [Opcode.add, .sub, .mul, .addl, .subl, .mull] := by
  cases op <;> decide

theorem MicroOp.hasDest_of_writes {u : MicroOp} {r : RegNum} (h : u.writes r = true) :
    hasDest u.op = true :=
  (Bool.and_eq_true_iff.mp h).1

/-! ### The settled statements -/

/-- Settles O26: the cycle's values are the back end's, where the last final stage to write gives the
value. -/
theorem registersAndZChangeOnlyByWriteback : Obligations.RegistersAndZChangeOnlyByWriteback := by
  intro s t hinv ht
  rcases step_final ht with rfl | ⟨-, hreg, hz, -⟩
  · exact ⟨fun _ hne => absurd rfl hne, fun hne => absurd rfl hne⟩
  refine ⟨fun r hne => ?_, fun hne => ?_⟩
  · rw [hreg r] at hne ⊢
    rcases backEnd_reg s r with e | ⟨u, hu, hw, e⟩ | ⟨u, hu, hw, hl, e⟩
    · exact absurd e hne
    · exact ⟨u, or_assoc.mp (.inl hu), hw, hasDest_iff.mp (MicroOp.hasDest_of_writes hw), by
        simp [e, hinv.units.not_isLoad hu]⟩
    · exact ⟨u, .inr (.inr hu), hw, hasDest_iff.mp (MicroOp.hasDest_of_writes hw), by simp [e, hl]⟩
  · rw [hz] at hne ⊢
    rcases backEnd_zValue s with e | ⟨u, hu, hs, e⟩
    · exact absurd e hne
    · exact ⟨u, hu, setsZ_iff.mp hs, e⟩

/-- Settles O27, from what Decode (`exec_pc`) and Fetch (`fetch_pc`) do to the PC in each case of a
cycle. -/
theorem pcChangesOnlyByFetchAndBranches : Obligations.PcChangesOnlyByFetchAndBranches := by
  intro s t ht
  cases hs : s.stopped with
  | true =>
    rcases step_stopped hs with ⟨r, -, e⟩ | ⟨-, e⟩ <;> rw [e] at ht <;> cases ht
    exact .inl rfl
  | false =>
    rcases step_cases hs with
      ⟨u, -, -, e⟩ | ⟨-, -, ⟨-, e⟩ | ⟨-, -, e⟩ | ⟨hd, i, x, hi, hx, -, e⟩⟩ <;>
      (rw [e] at ht; cases ht)
    · exact .inl (by simp)
    · exact (fetch_pc (backEnd s)).imp (by simp) fun e => .inl (by simpa using e)
    · exact .inl (by simp)
    · rcases exec_pc hx with hpc | htaken
      · rw [backEnd_pc] at hpc
        rw [State.tick_pc, ← hpc]
        exact (fetch_pc x).imp_right .inl
      · exact .inr (.inr ⟨i, x.pc, hd, hi, htaken, fetch_pc x⟩)

/-- Settles O30: the table's row for each element of the state. -/
theorem resetGivesTheTable : Obligations.ResetGivesTheTable := by
  refine ⟨?_, rfl, reset_reg, fun _ => rfl⟩
  rintro s _ rfl
  exact ⟨rfl, rfl, reset_entry s.launch, rfl, rfl, rfl, List.length_replicate,
    resetFrom_iq_occupied _, List.length_replicate, resetFrom_lsq_occupied _, rfl, rfl, rfl,
    List.length_replicate, resetFrom_robAt _, rfl, rfl, rfl, rfl, rfl, rfl, rfl, rfl, rfl, rfl, rfl,
    rfl, fun _ => rfl⟩

/-- Settles O31, each invariant by itself. -/
theorem resetMeetsTheInvariants : Obligations.ResetMeetsTheInvariants :=
  ⟨resetFrom_inv, resetFrom_inv Launch.default (by decide)⟩

end Sys2Proof.Machine

/-! PROOFS of the statements on data memory, code memory and the launch parameters
(spec/20_memory.md): what a data cell reads as after a write, what writes one, and what nothing
writes. -/

namespace Sys2Proof.Machine

/-! ### Reads of a canonical memory (R62, assumption 3) -/

/-- The canonical form, one cell at a time. -/
theorem Memory.wf_cons {c : Nat × Word} {t : Memory} :
    Memory.wf (c :: t) ↔ (∀ x ∈ t, c.1 < x.1) ∧ c.2 ≠ Memory.unlisted ∧ t.wf := by
  simp only [Memory.wf, List.pairwise_cons, List.forall_mem_cons]
  tauto

theorem memRead_cons (c : Nat × Word) (t : Memory) (a : Nat) :
    memRead (c :: t) a = if a = c.1 then c.2 else memRead t a := rfl

theorem mem_of_memRead {m : Memory} {a : Nat} (h : memRead m a ≠ Memory.unlisted) :
    (a, memRead m a) ∈ m := by
  induction m with
  | nil => exact absurd rfl h
  | cons c t ih =>
    rw [memRead_cons] at h ⊢
    by_cases e : a = c.1
    · rw [if_pos e, e]; exact List.mem_cons_self
    · rw [if_neg e] at h ⊢; exact List.mem_cons_of_mem _ (ih h)

/-- A cell below every listed one is unlisted. -/
theorem memRead_below {m : Memory} {a : Nat} (h : ∀ c ∈ m, a < c.1) :
    memRead m a = Memory.unlisted := by
  by_contra hne
  exact lt_irrefl a (h _ (mem_of_memRead hne))

theorem memRead_of_mem {m : Memory} (hm : m.wf) {c : Nat × Word} (hc : c ∈ m) :
    memRead m c.1 = c.2 := by
  induction m with
  | nil => cases hc
  | cons x t ih =>
    obtain ⟨hlt, -, ht⟩ := Memory.wf_cons.mp hm
    rw [memRead_cons]
    rcases List.mem_cons.mp hc with rfl | hc
    · exact if_pos rfl
    · rw [if_neg (hlt c hc).ne', ih ht hc]

/-- A canonical memory lists exactly the cells that do not read as an unlisted one. -/
theorem mem_iff_memRead {m : Memory} (hm : m.wf) {c : Nat × Word} :
    c ∈ m ↔ memRead m c.1 = c.2 ∧ c.2 ≠ Memory.unlisted := by
  refine ⟨fun hc => ⟨memRead_of_mem hm hc, hm.2 c hc⟩, fun ⟨hr, hne⟩ => ?_⟩
  have := mem_of_memRead (hr.trans_ne hne)
  rwa [hr] at this

/-- Canonical memories that read the same list the same cells, in the one rising order. -/
theorem Memory.ext_memRead {m m' : Memory} (hm : m.wf) (hm' : m'.wf)
    (h : ∀ a, memRead m a = memRead m' a) : m = m' := by
  have hlist : ∀ c, c ∈ m ↔ c ∈ m' := fun c => by rw [mem_iff_memRead hm, mem_iff_memRead hm', h]
  have : Std.Irrefl fun c c' : Nat × Word => c.1 < c'.1 := ⟨fun c => lt_irrefl c.1⟩
  have : Std.Antisymm fun c c' : Nat × Word => c.1 < c'.1 :=
    ⟨fun _ _ hlt hgt => absurd hlt hgt.asymm⟩
  exact hm.1.eq_of_mem_iff hm'.1 hlist

/-! ### Reads after a write (R62) -/

/-- A cell put before a list that does not hold it. -/
theorem memRead_cellList_append {t : Memory} {a : Nat} (h : memRead t a = Memory.unlisted)
    (v : Word) (b : Nat) :
    memRead (cellList a v ++ t) b = if b = a then v else memRead t b := by
  unfold cellList
  split
  · next hv =>
    split
    · next e => rw [e, hv]; exact h
    · rfl
  · rfl

/-- R62: the written cell reads the written word, every other cell as before. -/
theorem memRead_memWrite {m : Memory} (hm : m.wf) (a b : Nat) (v : Word) :
    memRead (memWrite m a v) b = if b = a then v else memRead m b := by
  induction m with
  | nil => simpa [memWrite] using memRead_cellList_append (t := []) (a := a) rfl v b
  | cons c t ih =>
    obtain ⟨hlt, -, ht⟩ := Memory.wf_cons.mp hm
    rw [memWrite]
    split
    · next hac =>
      refine memRead_cellList_append (memRead_below fun x hx => ?_) v b
      rcases List.mem_cons.mp hx with rfl | hx
      · exact hac
      · exact hac.trans (hlt x hx)
    · split
      · next hac =>
        rw [memRead_cellList_append (memRead_below (hac ▸ hlt)), memRead_cons]
        split
        · rfl
        · next hba => rw [if_neg (hac ▸ hba)]
      · next hac =>
        rw [memRead_cons, memRead_cons, ih ht]
        split
        · next hbc => rw [if_neg (hbc ▸ Ne.symm hac)]
        · rfl

/-! ### What a step does to data memory, to code memory and to the launch parameters -/

/-- R129: MEM3 writes memory only for a record that is no load. -/
theorem stageMem3_mem (s : State) : (stageMem3 s).mem = s.mem ∨
    ∃ u, s.mem3 = some u ∧ isLoad u.op = false ∧
      (stageMem3 s).mem = memWrite s.mem u.ea.toNat u.d := by
  unfold stageMem3
  split
  · exact .inl rfl
  · next u hu =>
    split
    · exact .inl rfl
    · next hl => exact .inr ⟨u, hu, by simpa using hl, rfl⟩

/-- R62, R129: no stage of the back end but MEM3 writes memory. -/
theorem backEnd_mem (s : State) : (backEnd s).mem = (stageMem3 (retireStage s)).mem := by
  obtain ⟨g, hg, -, -, -, hmem, -⟩ := backEnd_final s
  rw [hmem, hg]
  simp

/-- Everything a step can do to data memory. -/
theorem step_mem {s t : State} (ht : step s = .next t) : t.mem = s.mem ∨
    ∃ u, s.mem3 = some u ∧ isLoad u.op = false ∧ t.mem = memWrite s.mem u.ea.toNat u.d := by
  rcases step_final ht with rfl | ⟨-, -, -, hmem⟩
  · exact .inl rfl
  · rw [hmem, backEnd_mem]
    simpa using stageMem3_mem (retireStage s)

theorem exec_launch {s t : State} {i : Instr} (h : exec i s = .next t) : t.launch = s.launch := by
  simpa using congrArg State.launch (exec_frame h).1

theorem step_launch {s t : State} (ht : step s = .next t) : t.launch = s.launch := by
  cases hs : s.stopped with
  | true =>
    rcases step_stopped hs with ⟨r, -, e⟩ | ⟨-, e⟩ <;> rw [e] at ht <;> cases ht
    rfl
  | false =>
    rcases step_cases hs with
      ⟨u, -, -, e⟩ | ⟨-, -, ⟨-, e⟩ | ⟨-, -, e⟩ | ⟨-, i, x, -, hx, -, e⟩⟩ <;>
      (rw [e] at ht; cases ht)
    · simp
    · simp
    · simp
    · simp [exec_launch hx]

theorem store_or_str_of_unit {op : Opcode} (hu : unitOf op = .mem) (hl : isLoad op = false) :
    op = .store ∨ op = .str := by
  revert hu hl; cases op <;> decide

/-! ### The settled statements -/

/-- Settles O25: the one write of a step is MEM3's, and it changes only its own cell. -/
theorem memoryChangesOnlyByStoresInMem3 : Obligations.MemoryChangesOnlyByStoresInMem3 := by
  intro s t hinv ht a hne
  rcases step_mem ht with e | ⟨u, hu, hl, e⟩
  · exact absurd (congrArg (memRead · a) e) hne
  obtain ⟨hunit, -⟩ := hinv.units.mem3 u hu
  rw [e, memRead_memWrite hinv.memory.form] at hne ⊢
  by_cases ha : a = u.ea.toNat
  · exact ⟨u, hu, store_or_str_of_unit hunit hl, ha.symm, if_pos ha⟩
  · exact absurd (if_neg ha) hne

/-- Settles O35: a step writes at most one cell, and a write keeps the form. -/
theorem stepKeepsTheMemoryForm : Obligations.StepKeepsTheMemoryForm := by
  intro s t hwf ht
  rcases step_mem ht with e | ⟨u, -, -, e⟩ <;> rw [e]
  · exact hwf
  · exact memWrite_wf hwf _ _

/-- Settles O36, by `memRead_memWrite` and `Memory.ext_memRead`. -/
theorem memoryReadsWhatWasWritten : Obligations.MemoryReadsWhatWasWritten :=
  ⟨fun _ a b v hm => memRead_memWrite hm a b v, fun _ _ => Memory.ext_memRead⟩

/-- Settles O28: every case of a step, and Decode, carries the parameters along. -/
theorem codeAndParametersNeverChange : Obligations.CodeAndParametersNeverChange :=
  fun _ => ⟨fun _ => step_launch, fun _ _ => exec_launch, rfl⟩

end Sys2Proof.Machine

/-! PROOFS of the statements on encoding (spec/30_encoding.md): the decoder and the mask, an
instruction read back from its record and its bytes, and what the loader refuses. -/

namespace Sys2Proof

/-! ### The rows of the decoder (R80, R82, R83) -/

theorem opcodeTag_injective : Function.Injective opcodeTag := by
  intro op op'; cases op <;> cases op' <;> decide

/-- A row stands at the tag of its own opcode (R82). -/
theorem recOp_of_decodeTag {w : Record} {i : Instr} (h : decodeTag w = .ok i) :
    recOp w = opcodeTag (instrOpcode i) := by
  apply BitVec.eq_of_toNat_eq
  unfold decodeTag at h
  split at h <;> cases h <;> assumption

/-- R82: no opcode is left without a row. -/
theorem decodeTag_of_recOp {w : Record} {op : Opcode} (h : recOp w = opcodeTag op) :
    ∃ i, decodeTag w = .ok i := by
  unfold decodeTag
  rw [h]
  cases op <;> exact ⟨_, rfl⟩

theorem decode_ok_iff {w : Record} {i : Instr} :
    decode w = .ok i ↔ recRsv w = 0 ∧ decodeTag w = .ok i := by
  unfold decode
  by_cases h : recRsv w = 0
  · rw [if_neg (not_not_intro h), and_iff_right h]
  · rw [if_pos h]
    exact ⟨nofun, fun hi => absurd hi.1 h⟩

/-- R89: the tag alone selects the row, once the reserved bits are 0. -/
theorem decode_to_opcode_iff {w : Record} {op : Opcode} :
    (∃ i, decode w = .ok i ∧ instrOpcode i = op) ↔ recOp w = opcodeTag op ∧ recRsv w = 0 := by
  constructor
  · rintro ⟨i, hi, rfl⟩
    obtain ⟨hrsv, hrow⟩ := decode_ok_iff.mp hi
    exact ⟨recOp_of_decodeTag hrow, hrsv⟩
  · rintro ⟨hop, hrsv⟩
    obtain ⟨i, hi⟩ := decodeTag_of_recOp hop
    have : opcodeTag (instrOpcode i) = opcodeTag op := (recOp_of_decodeTag hi).symm.trans hop
    exact ⟨i, decode_ok_iff.mpr ⟨hrsv, hi⟩, opcodeTag_injective this⟩

theorem decode_error_iff_not_ok {w : Record} :
    (∃ e, decode w = .error e) ↔ ¬ ∃ i, decode w = .ok i := by
  cases decode w <;> simp

/-! ### The mask (R86, R89) -/

/-- Under the mask the tag and the reserved bits stay, each at its place. -/
theorem masked_toNat (w : Record) :
    (w &&& recordMask).toNat = (recOp w).toNat + 2 ^ 25 * (recRsv w).toNat := by
  have hop := (recOp w).isLt
  have hrsv := (recRsv w).isLt
  have hor := Nat.two_pow_add_eq_or_of_lt (show (recOp w).toNat < 2 ^ 25 by omega) (recRsv w).toNat
  have hval {n : Nat} (x : BitVec n) (hn : n ≤ 64) : (x.zeroExtend 64).toNat = x.toNat :=
    BitVec.toNat_setWidth_of_le hn
  rw [masked_eq, BitVec.or_comm, BitVec.toNat_or, BitVec.toNat_shiftLeft, hval _ (by decide),
    hval _ (by decide), Nat.shiftLeft_eq, Nat.mod_eq_of_lt (by omega), Nat.mul_comm, ← hor,
    Nat.add_comm]

/-- The reserved bits lie above every tag, so they are 0 where the masked word is a tag. -/
theorem masked_eq_tag_iff {w : Record} {tag : BitVec 5} :
    w &&& recordMask = tag.zeroExtend 64 ↔ recOp w = tag ∧ recRsv w = 0 := by
  have hop := (recOp w).isLt
  have htag := tag.isLt
  simp only [← BitVec.toNat_inj, masked_toNat, BitVec.truncate_eq_setWidth, BitVec.toNat_setWidth,
    show (0 : BitVec 7).toNat = 0 from rfl]
  omega

/-- R86: the check of a record and the decoder agree. -/
theorem recordLegal_iff {w : Record} : recordLegal w = true ↔ ∃ i, decode w = .ok i := by
  have hop := (recOp w).isLt
  rw [← not_iff_not, ← decode_error_iff_not_ok, decode_error_iff, recordLegal, decide_eq_true_iff,
    masked_toNat, ← BitVec.toNat_ne_iff_ne, show (0 : BitVec 7).toNat = 0 from rfl]
  omega

/-! ### An instruction read back from its record and its bytes (R80, R81) -/

theorem decode_packRecord (op : BitVec 5) (rd rs1 rs2 rs3 : RegNum) (imm : Word) :
    decode (packRecord op rd rs1 rs2 rs3 imm) = decodeTag (packRecord op rd rs1 rs2 rs3 imm) :=
  if_neg (not_not_intro (recRsv_pack op rd rs1 rs2 rs3 imm))

theorem decode_encode (i : Instr) : decode (encode i) = .ok i := by
  cases i <;> simp [encode, decode_packRecord, decodeTag]

theorem length_recordToBytes (w : Record) : (recordToBytes w).length = 8 := rfl

theorem getElem?_recordToBytes (w : Record) {k : Nat} (hk : k < 8) :
    (recordToBytes w)[k]? = some (recordByte w k) := by
  interval_cases k <;> rfl

/-- Byte `k` lengthens, downwards, a run of bits that starts just above it. -/
theorem append_recordByte (w : Record) (n k : Nat) :
    w.extractLsb' (8 * (k + 1)) n ++ recordByte w k = w.extractLsb' (8 * k) (n + 8) :=
  BitVec.extractLsb'_append_extractLsb'_eq_extractLsb' rfl

/-- R81 read back: the bytes join, from byte 7 down, to the whole record. -/
theorem recordOfBytes_recordToBytes (w : Record) (rest : List Byte) :
    recordOfBytes (recordToBytes w ++ rest) = some (w, rest) := by
  have h : recordByte w 7 ++ recordByte w 6 ++ recordByte w 5 ++ recordByte w 4 ++ recordByte w 3 ++
      recordByte w 2 ++ recordByte w 1 ++ recordByte w 0 = w := by
    rw [show recordByte w 7 = w.extractLsb' (8 * 7) 8 from rfl, append_recordByte w _ 6,
      append_recordByte w _ 5, append_recordByte w _ 4, append_recordByte w _ 3,
      append_recordByte w _ 2, append_recordByte w _ 1, append_recordByte w _ 0]
    exact BitVec.extractLsb'_eq_self
  exact congrArg (fun x => some (x, rest)) h

theorem decodeBytes_recordToBytes {w : Record} {i : Instr} (h : decode w = .ok i)
    (rest : List Byte) : decodeBytes (recordToBytes w ++ rest) = some (i, rest) := by
  simp only [decodeBytes, recordOfBytes_recordToBytes, h]

/-! ### The loader (R95, R98) -/

theorem Opcode.ofMnemonic_eq_some_iff {m : String} {op : Opcode} :
    Opcode.ofMnemonic m = some op ↔ op.mnemonic = m := by
  constructor
  · intro h
    exact beq_iff_eq.mp (List.find?_some (p := fun op : Opcode => op.mnemonic == m) h)
  · rintro rfl
    cases op <;> rfl

/-- R98: a line passes where none of the four refusals applies. -/
theorem AsmLine.check_ok_iff {l : AsmLine} {op : Opcode} : l.check = .ok op ↔
    op.mnemonic = l.mnemonic ∧ l.operands.map AsmOperand.kind = op.operandKinds ∧
      l.operands.all AsmOperand.regInRange = true ∧
      l.operands.all AsmOperand.immInRange = true := by
  rw [← Opcode.ofMnemonic_eq_some_iff]
  unfold AsmLine.check
  cases Opcode.ofMnemonic l.mnemonic with
  | none => simp
  | some op' =>
    simp only [Option.some.injEq]
    constructor
    · intro h
      split_ifs at h with hkinds hregs himms
      cases h
      exact ⟨rfl, not_not.mp hkinds, by simpa using hregs, by simpa using himms⟩
    · rintro ⟨rfl, hkinds, hregs, himms⟩
      simp [hkinds, hregs, himms]

theorem all_regInRange_iff {xs : List AsmOperand} :
    xs.all AsmOperand.regInRange = true ↔ ∀ n, .reg n ∈ xs → n ≤ 31 := by
  rw [List.all_eq_true]
  constructor
  · exact fun h n hn => of_decide_eq_true (h _ hn)
  · rintro h (n | v) hx
    · exact decide_eq_true (h n hx)
    · rfl

theorem all_immInRange_iff {xs : List AsmOperand} :
    xs.all AsmOperand.immInRange = true ↔ ∀ v, .imm v ∈ xs → -2 ^ 31 ≤ v ∧ v ≤ 2 ^ 31 - 1 := by
  rw [List.all_eq_true]
  constructor
  · exact fun h v hv => of_decide_eq_true (h _ hv)
  · rintro h (n | v) hx
    · rfl
    · exact decide_eq_true (h v hx)

/-- R83, R98: the record of an accepted line is that of an instruction. -/
theorem assembleLine_ok_iff {l : AsmLine} {w : Record} : assembleLine l = .ok w ↔
    ∃ op, l.check = .ok op ∧ encode (instrOf op (l.operands.getD 0 (.imm 0))
      (l.operands.getD 1 (.imm 0)) (l.operands.getD 2 (.imm 0))) = w := by
  unfold assembleLine
  cases l.check <;> simp

theorem assembleLine_accepts_iff {l : AsmLine} :
    (∃ w, assembleLine l = .ok w) ↔ ∃ op, l.check = .ok op := by
  constructor
  · rintro ⟨w, hw⟩
    obtain ⟨op, hop, -⟩ := assembleLine_ok_iff.mp hw
    exact ⟨op, hop⟩
  · rintro ⟨op, hop⟩
    exact ⟨_, assembleLine_ok_iff.mpr ⟨op, hop, rfl⟩⟩

theorem decode_of_assembleLine {l : AsmLine} {w : Record} (h : assembleLine l = .ok w) :
    ∃ i, decode w = .ok i := by
  obtain ⟨op, -, rfl⟩ := assembleLine_ok_iff.mp h
  exact ⟨_, decode_encode _⟩

/-- R95: line `k` becomes record `k`, and no line is refused. -/
theorem assemble_ok_iff {p : List AsmLine} {ws : List Record} :
    assemble p = .ok ws ↔ List.Forall₂ (fun l w => assembleLine l = .ok w) p ws := by
  induction p generalizing ws with
  | nil => simp [assemble, eq_comm]
  | cons l ls ih =>
    simp only [assemble, List.forall₂_cons_left_iff, ← ih]
    cases assembleLine l <;> cases assemble ls <;> simp [eq_comm]

/-- R98: one refused line refuses the program, and nothing else does. -/
theorem assemble_error_iff {p : List AsmLine} :
    (∃ e, assemble p = .error e) ↔ ∃ l ∈ p, ∃ e, assembleLine l = .error e := by
  induction p with
  | nil => simp [assemble]
  | cons l ls ih =>
    rw [List.exists_mem_cons_iff, ← ih, assemble]
    cases assembleLine l <;> cases assemble ls <;> simp

theorem decode_of_assemble {p : List AsmLine} {ws : List Record} (h : assemble p = .ok ws) :
    ∀ w ∈ ws, ∃ i, decode w = .ok i := by
  have hlines := assemble_ok_iff.mp h
  clear h
  induction hlines with
  | nil => exact nofun
  | cons hw _ ih => exact List.forall_mem_cons.mpr ⟨decode_of_assembleLine hw, ih⟩

/-! ### The settled statements -/

/-- Settles O1: `decode_encode`, and what a decoded record and its bytes show. -/
theorem encodeDecodeRoundTrip : Obligations.EncodeDecodeRoundTrip := by
  intro i
  have h := decode_encode i
  exact ⟨h, recordLegal_iff.mpr ⟨i, h⟩, (decode_ok_iff.mp h).1, decodeBytes_recordToBytes h⟩

/-- Settles O2: under the mask stand exactly the tag and the reserved bits. -/
theorem decoderMatchesMaskedTag : Obligations.DecoderMatchesMaskedTag := by
  intro w
  have hrow (op : Opcode) : (∃ i, decode w = .ok i ∧ instrOpcode i = op) ↔
      w &&& 0x00000000FE00001F = (opcodeTag op).zeroExtend 64 :=
    decode_to_opcode_iff.trans masked_eq_tag_iff.symm
  refine ⟨hrow, ?_, fun _ _ => (opcodeTag_injective ·)⟩
  rw [decode_error_iff_not_ok]
  constructor
  · intro hno op hmask
    obtain ⟨i, hi, -⟩ := (hrow op).mpr hmask
    exact hno ⟨i, hi⟩
  · rintro hno ⟨i, hi⟩
    exact hno _ ((hrow _).mp ⟨i, hi, rfl⟩)

/-- Settles O3: the thirteen words are computed by `encode` and read back by `decode_encode`. -/
theorem workedEncodings : Obligations.WorkedEncodings := by
  have h {i : Instr} {w : Record} (hw : encode i = w) : decode w = .ok i ∧ encode i = w :=
    ⟨hw ▸ decode_encode i, hw⟩
  exact ⟨h rfl, h rfl, h rfl, h rfl, h rfl, h rfl, h rfl, h rfl, h rfl, h rfl, h rfl, h rfl, h rfl⟩

/-- Settles O4, by `recordOfBytes_recordToBytes`. -/
theorem recordBytesAreLittleEndian : Obligations.RecordBytesAreLittleEndian :=
  fun w rest => ⟨length_recordToBytes w, fun _ => getElem?_recordToBytes w,
    recordOfBytes_recordToBytes w rest⟩

/-- Settles O5: the checks of one line, then `Forall₂` of lines and records. -/
theorem loaderAcceptsExactlyLegalLines : Obligations.LoaderAcceptsExactlyLegalLines := by
  refine ⟨fun l => ?_, fun p => assemble_error_iff, fun p ws h => ?_⟩
  · simp only [assembleLine_accepts_iff, AsmLine.check_ok_iff, all_regInRange_iff,
      all_immInRange_iff]
  · have hdec := decode_of_assemble h
    exact ⟨(assemble_ok_iff.mp h).length_eq.symm,
      fun w hw => ⟨recordLegal_iff.mpr (hdec w hw), hdec w hw⟩⟩

end Sys2Proof

/-! PROOFS of the statements on the pipeline (spec/40_pipeline.md): what every step keeps and
the sequential machine it refines, the stages one by one, and what the convoy and the scoreboard
show. -/

namespace Sys2Proof.Machine

/-! ### What a step leads to (R100, R101) -/

/-- Everything a step that answers a next state can have done: nothing, in a core that is stopped;
or a cycle, in which MEM1 faults, or `D` is empty, or Decode faults, or Decode runs an
instruction. -/
theorem step_next_cases {s t : State} (ht : step s = .next t) :
    (t = s ∧ s.stopped = true) ∨
    (s.stopped = false ∧ t = (backEnd s).tick) ∨
    (s.stopped = false ∧ (backEnd s).fault = none ∧
      (t = (fetchStage (backEnd s)).tick ∨
       t = ((backEnd s).raise .illegalInstruction s.d.pc s.d.word).tick ∨
       (s.d.valid = true ∧ ∃ i x, decode s.d.word = .ok i ∧ exec i (backEnd s) = .next x ∧
          t = (fetchStage x).tick))) := by
  cases hs : s.stopped with
  | true =>
    rcases step_stopped hs with ⟨r, -, e⟩ | ⟨-, e⟩ <;> rw [e] at ht <;> cases ht
    exact .inl ⟨rfl, rfl⟩
  | false =>
    rcases step_cases hs with
      ⟨u, -, -, e⟩ | ⟨-, hf, ⟨-, e⟩ | ⟨-, -, e⟩ | ⟨hd, i, x, hi, hx, -, e⟩⟩ <;>
      (rw [e] at ht; cases ht)
    · exact .inr (.inl ⟨rfl, rfl⟩)
    · exact .inr (.inr ⟨rfl, hf, .inl rfl⟩)
    · exact .inr (.inr ⟨rfl, hf, .inr (.inl rfl)⟩)
    · exact .inr (.inr ⟨rfl, hf, .inr (.inr ⟨hd, i, x, hi, hx, rfl⟩)⟩)

/-! ### The invariants (R125, R140 to R143) -/

theorem FrontInv.raise {s : State} (h : FrontInv s) (c : FaultCode) (p : Word) (n : BitVec 64) :
    FrontInv (s.raise c p n) := { h with }

/-- Fetch and the cycle count close a cycle: `F` may have held a record with `D` empty before. -/
theorem fetched_inv {x : State} (hb : Body x) (hf : FrontMid x) : Inv (fetchStage x).tick :=
  (tick_body (fetchStage_body hb)).toInv (fetchStage_front hf).tick

/-- Where MEM1 raises no fault, Decode finds the invariants kept and the queues empty (R125). -/
theorem backEnd_decodeInv {s : State} (h : Inv s) (hs : s.stopped = false)
    (hf : (backEnd s).fault = none) : DecodeInv (backEnd s) := by
  obtain ⟨hbody, hissued⟩ := backEnd_body h.body (not_stopped hs)
  obtain ⟨hwait, -⟩ := hissued (by rw [hf]; rfl)
  exact ⟨hbody.toInv (backEnd_front h.front), hwait⟩

theorem step_inv {s t : State} (h : Inv s) (ht : step s = .next t) : Inv t := by
  rcases step_next_cases ht with ⟨rfl, -⟩ | ⟨hs, rfl⟩ | ⟨hs, hf, hcase⟩
  · exact h
  · exact (tick_body (backEnd_body h.body (not_stopped hs)).1).toInv (backEnd_front h.front).tick
  · obtain ⟨hinv, hwait⟩ := backEnd_decodeInv h hs hf
    rcases hcase with rfl | rfl | ⟨hd, i, x, hi, hx, rfl⟩
    · exact fetched_inv hinv.body hinv.front.mid
    · exact (tick_body (raise_body hinv.body _ _ _)).toInv (hinv.front.raise _ _ _).tick
    · rw [← backEnd_d] at hd hi
      exact fetched_inv (exec_body hinv.body hwait hi hx) (exec_front hinv.front.mid hd hi hx)

/-- Settles O32, stage by stage in each case of a step. -/
theorem stepKeepsTheInvariants : Obligations.StepKeepsTheInvariants :=
  fun _ _ => step_inv

/-! ### The sequential machine (R144, R226) -/

@[simp] theorem State.tick_arch (s : State) : s.tick.arch = s.arch := rfl
@[simp] theorem State.tick_nextPc (s : State) : s.tick.nextPc = s.nextPc := rfl
@[simp] theorem State.raise_arch (s : State) (c : FaultCode) (p : Word) (n : BitVec 64) :
    (s.raise c p n).arch = s.arch := rfl
@[simp] theorem State.raise_nextPc (s : State) (c : FaultCode) (p : Word) (n : BitVec 64) :
    (s.raise c p n).nextPc = s.nextPc := rfl

@[simp] theorem backEnd_nextPc (s : State) : (backEnd s).nextPc = s.nextPc := by
  simp [State.nextPc]

/-- R195: the halt flag is set as soon as Decode examines HALT, and by nothing else. -/
theorem exec_haltFetch {s x : State} {i : Instr} (hx : exec i s = .next x) :
    x.haltFetch = (s.haltFetch || decide (i = .halt)) := by
  have he : (examined i s).haltFetch = (s.haltFetch || decide (i = .halt)) := by
    rcases examined_cases i s with ⟨hi, e⟩ | ⟨rfl, e⟩
    · simp [e, hi]
    · simp [e]
  rcases exec_cases hx with ⟨-, rfl⟩ | ⟨-, u, y, -, rfl | ⟨w, rfl⟩, -, rfl⟩ <;>
    simpa using he

/-- What stands behind the record in `D` is the instruction at the next PC (R111, R119). -/
theorem FrontInv.follows {s : State} (h : FrontInv s) (hd : s.d.valid = true)
    (hh : s.haltFetch = false) : (if s.f.valid then s.f.pc else s.pc) = s.d.pc + 4 := by
  split
  · next hf => exact (h.fetch_follows hf).1
  · next hf => exact h.pc_follows hh hd (by simpa using hf)

theorem stalled_nextPc {s : State} {i : Instr} (hd : s.d.valid = true) :
    (examined i s).stallDecode.nextPc = s.nextPc := by
  obtain ⟨-, -, -, -, he, -⟩ := examined_same i s
  simp [State.nextPc, he, hd]

/-- Decode on the record in `D` leaves the sequential view and the next PC, or advances both by that
instruction. -/
theorem exec_refines {s x : State} {i : Instr} (h : DecodeInv s) (hd : s.d.valid = true)
    (hx : exec i s = .next x) :
    (x.arch = s.arch ∧ x.nextPc = s.nextPc) ∨
    (x.arch = seqExec i s.arch ∧ (x.haltFetch = false → x.nextPc = seqNext i s.arch s.nextPc)) := by
  have hnext : s.nextPc = s.d.pc := if_pos hd
  rcases exec_arch h.inv.body h.issued hx with ⟨ha, rfl⟩ | ⟨ha, hxd, hpath⟩
  · exact .inl ⟨ha, stalled_nextPc hd⟩
  refine .inr ⟨ha, fun hh => ?_⟩
  rw [exec_haltFetch hx, Bool.or_eq_false_iff, decide_eq_false_iff_not] at hh
  obtain ⟨hh, hi⟩ := hh
  have hxnext : x.nextPc = if x.f.valid then x.f.pc else x.pc := by simp [State.nextPc, hxd]
  rw [hxnext, hnext]
  rcases (hpath hi).2 with ⟨hpc, hf, hseq⟩ | ⟨hpc, hf⟩
  · rw [hpc, hf, hseq, h.inv.front.follows hd hh]
  · rw [hf, hpc]; rfl

/-- The back end and Fetch leave the view and the next PC as they are; Decode advances both, or
neither. -/
theorem step_refines {s t : State} (h : Inv s) (ht : step s = .next t) :
    (t.arch = s.arch ∧ t.nextPc = s.nextPc) ∨
    ∃ w i, codeAt s.launch s.nextPc = some w ∧ decode w = .ok i ∧ t.arch = seqExec i s.arch ∧
      (t.haltFetch = false → t.nextPc = seqNext i s.arch s.nextPc) := by
  rcases step_next_cases ht with ⟨rfl, -⟩ | ⟨hs, rfl⟩ | ⟨hs, hf, hcase⟩
  · exact .inl ⟨rfl, rfl⟩
  · simp [backEnd_arch h.body (not_stopped hs)]
  · have harch := backEnd_arch h.body (not_stopped hs)
    rcases hcase with rfl | rfl | ⟨hd, i, x, hi, hx, rfl⟩
    · simp [fetchStage_arch, fetchStage_nextPc, harch]
    · simp [harch]
    · have hx' := exec_refines (backEnd_decodeInv h hs hf) (by simpa using hd) hx
      simp only [State.tick_arch, State.tick_nextPc, State.tick_haltFetch, fetchStage_arch,
        fetchStage_nextPc, fetchStage_haltFetch]
      rw [harch, backEnd_nextPc] at hx'
      refine hx'.imp_right fun hstep => ⟨s.d.word, i, ?_, hi, hstep⟩
      rw [State.nextPc, if_pos hd, h.front.decode_record hd]

/-- Settles O37, by `step_refines` and what a valid register or Z holds (`arch_get`, `arch_z`). -/
theorem cycleRefinesSequentialExecution : Obligations.CycleRefinesSequentialExecution :=
  ⟨fun _ _ h ht _ => step_refines h ht, fun _ h => ⟨fun _ => arch_get h.body, arch_z h.body,
    fun he => by rw [State.arch, he]; rfl⟩⟩

/-! ### The cycle (R100, R101) -/

theorem stopped_iff (s : State) : s.stopped = true ↔ s.fault ≠ none ∨ s.halted = true ∨
    (s.launch.stopOnCodeSize = true ∧ s.completed.toNat = s.launch.codeSize) ∨
    ∃ n, s.launch.cycleBudget = some n ∧ n ≤ s.cycle.toNat := by
  rw [State.stopped]
  cases s.launch.cycleBudget <;> simp [Option.isSome_iff_ne_none, or_assoc]

/-- A step of a stopped core leads to no other state. -/
theorem step_of_stopped {s t : State} (hs : s.stopped = true) (ht : step s = .next t) : t = s := by
  rcases step_next_cases ht with ⟨rfl, -⟩ | ⟨h, -⟩ | ⟨h, -⟩
  · rfl
  all_goals simp [hs] at h

/-- Settles O7, by `stopped_iff`; at reset of an empty program nothing is left to complete. -/
theorem stoppedExactlyAsListed : Obligations.StoppedExactlyAsListed := by
  refine ⟨fun s => ⟨stopped_iff s, fun hs t => step_of_stopped hs, fun hs => ?_⟩,
    fun l hcode hstop => ?_⟩
  · obtain ⟨t, ht, -⟩ := step_next hs
    exact ⟨t, ht⟩
  · exact (stopped_iff _).mpr (.inr (.inr (.inl ⟨hstop, by
      simp [State.resetFrom, Launch.codeSize, hcode]⟩)))

theorem step_faulted {s : State} {r : FaultRecord} (h : s.fault = some r) :
    step s = .fault r.toFault := by
  simp [step, stepOnce, h]

/-- Settles O8, by `step_next` for a running core and `step_stopped` for a stopped one. -/
theorem everyCycleIsCounted : Obligations.EveryCycleIsCounted := by
  refine fun s => ⟨step_next, fun r => step_faulted, fun hf hs => ?_⟩
  rcases step_stopped hs with ⟨r, hr, -⟩ | ⟨-, e⟩
  · simp [hf] at hr
  · exact e

/-- Settles O6: of the cases of a cycle, only the last has a legal record in `D` and no fault. -/
theorem stepRunsDecodedInstruction : Obligations.StepRunsDecodedInstruction := by
  intro s i hs hf hd hi
  rcases step_cases hs with
    ⟨u, hu, hr, -⟩ | ⟨-, -, ⟨hd', -⟩ | ⟨-, ⟨e, he⟩, -⟩ | ⟨-, j, x, hj, hx, hxf, e⟩⟩
  · simp [backEnd_bad hu hr] at hf
  · simp [hd] at hd'
  · simp [hi] at he
  · obtain rfl : i = j := by simpa [hi] using hj
    exact ⟨x, hx, hxf, e⟩

/-! ### Retire (R102 to R105) -/

theorem retirable_eq_some {q : ReorderBuffer} {e : RobEntry} (hc : q.count ≠ 0)
    (he : q.at? q.head = some e) (hcomp : e.complete = true) : q.retirable = some e := by
  simp [ReorderBuffer.retirable, hc, he, hcomp]

theorem retirable_eq_none {q : ReorderBuffer}
    (h : q.count = 0 ∨ ∀ e, q.at? q.head = some e → e.complete = false) : q.retirable = none := by
  unfold ReorderBuffer.retirable
  split
  · rfl
  · next hc =>
    rw [Option.filter_eq_none_iff]
    intro e he
    simp [h.resolve_left hc e he]

/-- Decode writes nothing that Retire wrote, but ROB entries. -/
theorem exec_retired {s x : State} {i : Instr} (hx : exec i s = .next x) :
    x.completed = s.completed ∧ x.ret = s.ret ∧ x.halted = s.halted ∧
      x.rob.head = s.rob.head := by
  obtain ⟨hframe, hhead⟩ := exec_frame hx
  exact ⟨by simpa using congrArg State.completed hframe, by simpa using congrArg State.ret hframe,
    by simpa using congrArg State.halted hframe, hhead⟩

/-- Settles O9: Retire on each kind of head, and the frames of the stages after it. -/
theorem retireTakesCompleteHead : Obligations.RetireTakesCompleteHead := by
  refine fun s => ⟨fun e hc he hcomp => ?_, fun h => ?_, fun t hs ht => ?_⟩
  · rw [retireStage, retirable_eq_some hc he hcomp]; rfl
  · rw [retireStage, retirable_eq_none h]
  · obtain ⟨hcompleted, hret, hhalted, hhead, -⟩ := backEnd_retire s
    rw [← hcompleted, ← hret, ← hhalted, ← hhead]
    rcases step_next_cases ht with ⟨-, h⟩ | ⟨-, rfl⟩ | ⟨-, -, rfl | rfl | ⟨-, i, x, -, hx, rfl⟩⟩
    · simp [hs] at h
    · simp
    · simp
    · simp
    · simpa using exec_retired hx

/-! ### Fetch (R110, R111) -/

/-- Settles O10: each case of `fetch_cases`, with the state after the hand-off named `handed`. -/
theorem fetchReadsAtMostOneRecord : Obligations.FetchReadsAtMostOneRecord := by
  refine fun s => ⟨fetch_halted, fun hh hf hd => ?_, fun hh hfd h hh' => ?_⟩
  · rcases fetch_cases s with ⟨h, -⟩ | ⟨-, -, e⟩ | ⟨-, h, -⟩
    · simp [hh] at h
    · exact e
    · exact absurd ⟨hf, hd⟩ h
  have hhanded : h = handed s := by
    rw [hh', handed]; rfl
  have hpc : h.pc = s.pc := by rw [hhanded, handed]; split <;> rfl
  have hcases := ((fetch_cases s).resolve_left (by simp [hh])).resolve_left (by simp [hfd])
  rw [← hhanded] at hcases
  obtain ⟨-, -, ⟨hwf, e⟩ | ⟨hwf, hcode, e⟩ | ⟨hwf, w, hcode, e⟩⟩ := hcases
  · refine ⟨fun _ => e, by simp [hwf], by simp [hwf]⟩
  · refine ⟨by simp [hwf], fun _ _ => e, fun w _ hw => ?_⟩
    simp [codeAt, hw] at hcode
  · refine ⟨by simp [hwf], fun _ hsize => ?_, fun w' _ hw' => ?_⟩
    · simp [codeAt, List.getElem?_eq_none hsize] at hcode
    · obtain rfl : w = w' := by simpa [codeAt, hw'] using hcode.symm
      rw [e]
      refine ⟨fun hd => ?_, fun hd => ?_⟩
      · simp [State.passOn, hd, State.handOff, State.fetched, FrontLatch.fill, FrontLatch.clear,
          hpc]
      · simp [State.passOn, hd, State.stallFetch, State.fetched, FrontLatch.fill, hpc]

/-! ### Decode (R113 to R119) -/

@[simp] theorem examined_rob (i : Instr) (s : State) : (examined i s).rob = s.rob := by
  rcases examined_cases i s with ⟨-, e⟩ | ⟨-, e⟩ <;> rw [e]
  rfl

/-- Settles O11, by `exec_stalled` and `exec_dispatched`. -/
theorem decodeStallsOrDispatches : Obligations.DecodeStallsOrDispatches := by
  refine fun s i => ⟨fun h => ?_, fun h => ⟨_, exec_dispatched h, rfl, rfl, ?_⟩⟩
  · rw [exec_stalled h]
    rcases examined_cases i s with ⟨hi, e⟩ | ⟨rfl, e⟩
    · simp [e, hi, State.stallDecode]
    · simp [e, State.stallDecode, State.stopFetch, FrontLatch.clear]
  · rcases effect_cases i ((shapeOf i).operandRead (examined i s))
      ((examined i s).allocate ((shapeOf i).operandRead (examined i s))) with e | ⟨w, e⟩ <;>
      simp [e, ReorderBuffer.allocate]

/-- R117: a dispatch invalidates the destination alone. -/
theorem allocate_entry (s : State) {u : MicroOp} {r : RegNum} (h : u.writes r = false) :
    (s.allocate u).regs.entry r = s.regs.entry r := by
  rw [State.allocate_regs]
  split
  · next hd =>
    have hne : u.rd ≠ r := by simpa [MicroOp.writes, hd] using h
    rw [Scoreboard.entry_invalidate, if_neg hne]
  · rfl

theorem writes_operandRead {i : Instr} {r : RegNum} (h : destOf i ≠ some r) (s : State) :
    ((shapeOf i).operandRead s).writes r = false := by
  rw [destOf_eq, ← shapeOf_op] at h
  simp only [MicroOp.writes, Shape.operandRead]
  by_cases hd : hasDest (shapeOf i).op <;> simp_all

/-- What Decode leaves of the scoreboard, of Z and of its latch. -/
theorem exec_scoreboard {s t : State} {i : Instr} (h : exec i s = .next t) :
    (∀ r, destOf i ≠ some r → t.regs.entry r = s.regs.entry r) ∧
    (setsZ (instrOpcode i) = false → t.z = s.z) ∧ t.d.pc = s.d.pc ∧ t.d.word = s.d.word := by
  obtain ⟨hregs, hz, -, -, hd, -⟩ := examined_same i s
  rcases exec_cases h with ⟨-, rfl⟩ | ⟨-, u, y, rfl, hy, -, rfl⟩
  · simp [hregs, hz, hd]
  · have hya : y.regs = ((examined i s).allocate ((shapeOf i).operandRead (examined i s))).regs ∧
        y.z = ((examined i s).allocate ((shapeOf i).operandRead (examined i s))).z ∧
        y.d = s.d := by
      rcases hy with rfl | ⟨w, rfl⟩ <;> exact ⟨rfl, rfl, hd⟩
    obtain ⟨hyregs, hyz, hyd⟩ := hya
    refine ⟨fun r hr => ?_, fun hs => ?_, by simp [hyd, FrontLatch.clear],
      by simp [hyd, FrontLatch.clear]⟩
    · rw [State.clearDecode_regs, hyregs, allocate_entry _ (writes_operandRead hr _), hregs]
    · rw [← shapeOf_op] at hs
      simp [hyz, hz, Shape.operandRead, hs]

/-- Settles O12, by `exec_frame`, `exec_values` and `exec_scoreboard`. -/
theorem dispatchLeavesTheRest : Obligations.DispatchLeavesTheRest := by
  intro s i
  obtain ⟨t, ht⟩ := exec_next i s
  obtain ⟨hframe, hhead⟩ := exec_frame ht
  obtain ⟨hreg, hzv, hmem⟩ := exec_values ht
  obtain ⟨hentry, hz, hpc, hword⟩ := exec_scoreboard ht
  refine ⟨t, ht, hreg, hzv, hentry, hz, fun a => by rw [hmem], ?_⟩
  rw [← hframe]
  exact ⟨rfl, rfl, rfl, rfl, rfl, rfl, rfl, rfl, rfl, rfl, rfl, rfl, rfl, rfl, hhead, hpc, hword⟩

/-! ### Issue and the queues (R121 to R124) -/

/-- R121: slot `k` of the IQ holds `e`, a ready record of unit `fu`. -/
def State.mayTake (s : State) (fu : FuncUnit) (k : Nat) (e : QueueEntry) : Prop :=
  s.iq[k]? = some (some e) ∧ e.ready = true ∧ e.u.unit = fu

theorem State.mayTake_iff {s : State} {fu : FuncUnit} {k : Nat} {e : QueueEntry} :
    s.mayTake fu k e ↔ s.iq[k]? = some (some e) ∧ e.candidate fu = true := by
  simp [State.mayTake, QueueEntry.candidate]

/-- R121: where no slot holds a record for it, a unit finds nothing. -/
theorem nextFor_eq_none {s : State} {fu : FuncUnit} (h : ∀ k e, ¬ s.mayTake fu k e) :
    s.nextFor fu = none := by
  cases hn : s.nextFor fu with
  | none => rfl
  | some p =>
    obtain ⟨k, u⟩ := p
    obtain ⟨e, -, he, -, hc⟩ := IssueQueue.oldest_spec hn
    exact absurd (State.mayTake_iff.mpr ⟨he, hc⟩) (h _ e)

/-- R121: where a slot holds a record for it, a unit finds one of least age. -/
theorem nextFor_eq_some {s : State} {fu : FuncUnit} (h : ∃ k e, s.mayTake fu k e) :
    ∃ k e, s.nextFor fu = some (k, e.u) ∧ s.mayTake fu k e ∧
      ∀ j e', s.mayTake fu j e' →
        s.rob.age s.launch.robSize e.u.rob ≤ s.rob.age s.launch.robSize e'.u.rob := by
  cases hn : s.nextFor fu with
  | none =>
    obtain ⟨k, e, h⟩ := h
    obtain ⟨he, hc⟩ := State.mayTake_iff.mp h
    simp [IssueQueue.oldest_none hn e (List.mem_of_getElem? he)] at hc
  | some p =>
    obtain ⟨k, u⟩ := p
    obtain ⟨e, -, he, rfl, hc⟩ := IssueQueue.oldest_spec hn
    refine ⟨k, e, rfl, State.mayTake_iff.mpr ⟨he, hc⟩, fun j e' h' => ?_⟩
    obtain ⟨he', hc'⟩ := State.mayTake_iff.mp h'
    exact oldest_min hn e' (List.mem_of_getElem? he') hc'

/-- Settles O13, by `nextFor_eq_none` and `nextFor_eq_some` for each unit. -/
theorem issueTakesTheOldestOfItsUnit : Obligations.IssueTakesTheOldestOfItsUnit := by
  intro s
  refine ⟨fun h => ?_, fun hl h => ?_, fun h => ?_, fun hl h => ?_⟩
  · rcases h with h | h
    · rw [issueInt, if_pos (Option.isSome_iff_ne_none.mpr h)]
    · simp [issueInt, nextFor_eq_none h]
  · obtain ⟨k, e, hn, hold⟩ := nextFor_eq_some h
    exact ⟨k, e, hold, by simp [issueInt, hl, hn, IssueQueue.free]⟩
  · rcases h with h | h
    · rw [issueMul, if_pos (Option.isSome_iff_ne_none.mpr h)]
    · simp [issueMul, nextFor_eq_none h]
  · obtain ⟨k, e, hn, hold⟩ := nextFor_eq_some h
    exact ⟨k, e, hold, by simp [issueMul, hl, hn, IssueQueue.free]⟩

theorem IssueQueue.insert_eq_set {q : IssueQueue} (h : q.hasFree = true) (u : MicroOp) :
    ∃ k, q[k]? = some none ∧ (∀ j, j < k → ∃ e, q[j]? = some (some e)) ∧
      q.insert u = q.set k (some { ready := true, u := u }) := by
  induction q with
  | nil => cases h
  | cons x t ih =>
    cases x with
    | none => exact ⟨0, rfl, nofun, rfl⟩
    | some y =>
      obtain ⟨k, hk, hbelow, hins⟩ := ih (by simpa [IssueQueue.hasFree] using h)
      refine ⟨k + 1, by simpa using hk, fun j hj => ?_, by simp [IssueQueue.insert, hins]⟩
      cases j with
      | zero => exact ⟨y, rfl⟩
      | succ j => simpa using hbelow j (by omega)

theorem IssueQueue.insert_full {q : IssueQueue} (h : q.hasFree = false) (u : MicroOp) :
    q.insert u = q := by
  induction q with
  | nil => rfl
  | cons x t ih =>
    cases x with
    | none => simp [IssueQueue.hasFree] at h
    | some y => rw [IssueQueue.insert, ih (by simpa [IssueQueue.hasFree] using h)]

/-- Settles O14, by induction over the slots. -/
theorem iqInsertTakesTheLowestFreeSlot : Obligations.IqInsertTakesTheLowestFreeSlot :=
  fun _ u => ⟨fun h => IssueQueue.insert_eq_set h u, fun h => IssueQueue.insert_full h u⟩

/-- R124: a pushed record is the front of a ring that was empty, and of no other. -/
theorem LoadStoreQueue.front_push {q : LoadStoreQueue} {size : Nat} (u : MicroOp)
    (h : RingInv q.entries q.head q.tail q.count size) (hc : q.count < size) :
    (q.push size u).front = if q.count = 0 then some u else q.front := by
  have htail := h.tail_lt
  have hage := h.age_tail hc
  by_cases h0 : q.count = 0
  · have hth : q.tail = q.head :=
      ringAge_inj h.head_lt htail h.head_lt (by rw [hage, ringAge_head h.head_lt, h0])
    simp [LoadStoreQueue.front, LoadStoreQueue.push, h0, ← hth, h.length, htail]
  · have hth : q.tail ≠ q.head := by
      intro e
      rw [e, ringAge_head h.head_lt] at hage
      exact h0 hage.symm
    simp [LoadStoreQueue.front, LoadStoreQueue.push, h0, List.getElem?_set_ne hth]

/-- R122: issue does nothing with an empty LSQ or an occupied MEM1. -/
theorem issueLsq_same {s : State} (h : s.lsq.count = 0 ∨ s.mem1 ≠ none) : issueLsq s = s := by
  unfold issueLsq
  split
  · rfl
  · next hm =>
    have h0 : s.lsq.count = 0 := h.resolve_right fun hne =>
      hm (Option.isSome_iff_ne_none.mpr hne)
    simp [LoadStoreQueue.front, h0]

/-- R122: issue moves the record at the head to an empty MEM1. -/
theorem issueLsq_head {s : State} {e : QueueEntry} (hc : s.lsq.count ≠ 0) (hm : s.mem1 = none)
    (he : s.lsq.entries[s.lsq.head]? = some (some e)) :
    issueLsq s = { s with mem1 := some e.u, lsq := s.lsq.pop s.launch.lsqSize } := by
  simp [issueLsq, hm, LoadStoreQueue.front, hc, he]

/-- Settles O15, by `RingInv.push` and `RingInv.pop`. -/
theorem lsqIsAFifoRing : Obligations.LsqIsAFifoRing := by
  refine ⟨fun q size u h hc => ⟨_, rfl, h.push hc _, ?_, fun k hk => ?_, rfl, rfl, rfl,
    LoadStoreQueue.front_push u h hc⟩, fun s h => ⟨issueLsq_same, fun hc hm => ?_⟩⟩
  · simp [LoadStoreQueue.push, h.length, h.tail_lt]
  · exact List.getElem?_set_ne (Ne.symm hk)
  · have hpos : 0 < s.lsq.count := Nat.pos_of_ne_zero hc
    obtain ⟨e, he⟩ := h.head_some hpos
    refine ⟨e, he, issueLsq_head hc hm he, ?_⟩
    rw [issueLsq_head hc hm he]
    exact h.pop hpos

/-! ### Writeback (R132) -/

/-- Settles O16, by the register, Z and ROB rules of a writeback. -/
theorem writebackIsGuardedByTheTag : Obligations.WritebackIsGuardedByTheTag := by
  refine fun s u => ⟨_, rfl, fun hd ht hv => ?_, fun h => ?_, fun r hr => ?_, fun hz ht hv => ?_,
    fun h => ?_, fun e he => ?_, fun k hk => ?_, rfl, rfl, rfl, rfl⟩
  · simp only [State.regTag, State.regValid] at ht hv
    simp [hd, Scoreboard.entry_writeback, ht, hv]
  · rw [State.writeback_regs]
    split
    · next hd =>
      rw [Scoreboard.writeback, if_neg]
      rintro ⟨ht, hv⟩
      simp [hd, State.regTag, State.regValid, ht, hv] at h
    · rfl
  · rw [State.writeback_regs]
    split
    · rw [Scoreboard.entry_writeback, if_neg (fun h => hr h.1.symm)]
    · rfl
  · simp [hz, ZEntry.writeback, ht, hv, zeroFlag]
  · rw [State.writeback_z]
    split
    · next hz =>
      rw [ZEntry.writeback, if_neg]
      rintro ⟨ht, hv⟩
      simp [hz, ht, hv] at h
    · rfl
  · rw [State.writeback_rob, at?_setComplete, if_pos rfl, he]; rfl
  · rw [State.writeback_rob, at?_setComplete, if_neg (Ne.symm hk)]

/-! ### A result seen by Decode (R116, R134, R227) -/

/-- If the first record `p` picks stands behind those of `P`, it picks none of them: no record
stands in the list twice (R140). -/
theorem find?_before_eq_none {q : ReorderBuffer} {size : Nat} {sb : Scoreboard} {z : ZEntry}
    {P B : List MicroOp} {u : MicroOp} {p : MicroOp → Bool} (h : Tracks (P ++ u :: B) q size sb z)
    (hp : (P ++ u :: B).find? p = some u) : P.find? p = none := by
  cases hv : P.find? p with
  | none => rfl
  | some v =>
    obtain rfl : v = u := by simpa [List.find?_append, hv] using hp
    obtain ⟨-, -, hyounger⟩ := List.pairwise_append.mp h.ordered
    exact absurd (hyounger v (List.mem_of_find?_eq_some hv) v List.mem_cons_self) (lt_irrefl _)

/-- The sequential value of a register, seen from its youngest producer. -/
theorem foldr_get_producer {P B : List MicroOp} {u : MicroOp} {A : Arch} {r : RegNum}
    (hP : P.find? (fun v => v.writes r) = none) (hu : u.writes r = true) :
    ((P ++ u :: B).foldr MicroOp.finish A).get r =
      if isLoad u.op then (B.foldr MicroOp.finish A).load (effectiveAddress u) else compute u := by
  rw [List.foldr_append, foldr_get hP, List.foldr_cons, finish_get, if_pos hu]

/-- A register that no record before the final latches writes is valid when Decode runs (R134). -/
theorem backEnd_regValid {s : State} (h : Inv s) {r : RegNum}
    (hn : (s.waiting ++ s.inStage1 ++ (s.mul2.toList ++ s.mem2.toList)).find?
      (fun u => u.writes r) = none) : (backEnd s).regValid r = true := by
  obtain ⟨hbody, -⟩ := final_body h.body
  obtain ⟨g, hg, -, hregs, -⟩ := backEnd_final s
  rw [State.regValid, hregs, hg]
  refine hbody.tracks.free r ?_
  rw [← hn]
  simp [State.inFlight, State.waiting, State.inStage1, State.inStage2, State.inStage3,
    stageInt2_int2, stageMul3_mul3, stageMem3_mem3]

theorem inFlight_int2 {s : State} {u : MicroOp} (h : s.int2 = some u) (hc : ConvoyInv s) :
    s.mul2 = none ∧ s.mem2 = none ∧
      s.inFlight = (s.waiting ++ s.inStage1) ++ u :: s.inStage3 := by
  have hlen : s.mul2.toList.length = 0 ∧ s.mem2.toList.length = 0 := by
    have := hc.stage2
    simp only [State.inStage2, h, Option.toList_some, List.length_append, List.length_singleton]
      at this
    omega
  simp only [List.length_eq_zero_iff, Option.toList_eq_nil_iff] at hlen
  obtain ⟨hmul, hmem⟩ := hlen
  exact ⟨hmul, hmem, by simp [State.inFlight, State.inStage2, h, hmul, hmem]⟩

theorem inFlight_mul3 {s : State} {u : MicroOp} (h : s.mul3 = some u) (hc : ConvoyInv s) :
    s.inFlight = (s.waiting ++ s.inStage1 ++ s.inStage2) ++ [u] := by
  have hmem : s.mem3 = none := by
    have hlen := hc.stage3
    cases hm : s.mem3 with
    | none => rfl
    | some v => simp [State.inStage3, h, hm] at hlen
  simp [State.inFlight, State.inStage3, h, hmem]

/-- The record `u` of a final stage among the records in flight: `P` are younger, and all that stand
before the final latches are of them; `B` are older, and there are none where `u` is a load. -/
theorem inFlight_final {s : State} {u : MicroOp} (h : Inv s)
    (hu : s.int2 = some u ∨ s.mul3 = some u ∨ s.mem3 = some u) :
    ∃ P B, s.inFlight = P ++ u :: B ∧
      (∀ v ∈ s.waiting ++ s.inStage1 ++ (s.mul2.toList ++ s.mem2.toList), v ∈ P) ∧
      ((isLoad u.op = false ∧ u.result = compute u) ∨
        (B = [] ∧ u.ea = effectiveAddress u ∧ isLoad u.op = hasDest u.op)) := by
  have hmid : ∀ v ∈ s.waiting ++ s.inStage1 ++ (s.mul2.toList ++ s.mem2.toList),
      v ∈ s.waiting ++ s.inStage1 ++ s.inStage2 := by
    intro v hv
    simp only [List.mem_append, State.inStage2] at hv ⊢
    tauto
  rcases hu with hu | hu | hu
  · obtain ⟨hmul, hmem, hf⟩ := inFlight_int2 hu h.convoy
    exact ⟨_, _, hf, by simp [hmul, hmem],
      .inl ⟨h.units.not_isLoad (.inl hu), (h.units.int2 u hu).2⟩⟩
  · exact ⟨_, _, inFlight_mul3 hu h.convoy, hmid,
      .inl ⟨h.units.not_isLoad (.inr hu), (h.units.mul3 u hu).2⟩⟩
  · obtain ⟨hunit, hea, -⟩ := h.units.mem3 u hu
    obtain ⟨-, hdest, -⟩ := loadStore_flags hunit
    exact ⟨_, _, (inFlight_mem3 hu h.convoy).2, hmid, .inr ⟨rfl, hea, hdest.symm⟩⟩

/-- Settles O17: the register is valid after the back end, so it holds its sequential value, which
the back end does not change and its youngest producer gives. -/
theorem writebackIsSeenByDecode : Obligations.WritebackIsSeenByDecode := by
  intro s r u h hs hprod hu
  have hw : u.writes r = true := List.find?_some (p := fun v : MicroOp => v.writes r) hprod
  obtain ⟨P, B, hf, hlater, hres⟩ := inFlight_final h hu
  rw [State.producer, hf] at hprod
  have hP := find?_before_eq_none (hf ▸ h.body.tracks) hprod
  have hvalid : (backEnd s).regValid r = true := by
    refine backEnd_regValid h (List.find?_eq_none.mpr fun v hv => ?_)
    exact List.find?_eq_none.mp hP v (hlater v hv)
  refine ⟨hvalid, ?_⟩
  have hbody := (backEnd_body h.body (not_stopped hs)).1
  rw [← arch_get hbody hvalid, backEnd_arch h.body (not_stopped hs), State.arch, hf,
    foldr_get_producer hP hw]
  rcases hres with ⟨hl, hc⟩ | ⟨rfl, hea, hl⟩
  · simp [hl, hc]
  · simp [hl, MicroOp.hasDest_of_writes hw, hea, Arch.load, State.written]

/-! ### The convoy (R125 to R131) -/

/-- Decode leaves the units as they are. -/
theorem exec_units {s x : State} {i : Instr} (hx : exec i s = .next x) :
    x.int1 = s.int1 ∧ x.int2 = s.int2 ∧ x.mul1 = s.mul1 ∧ x.mul2 = s.mul2 ∧ x.mul3 = s.mul3 ∧
      x.mem1 = s.mem1 ∧ x.mem2 = s.mem2 ∧ x.mem3 = s.mem3 := by
  obtain ⟨hframe, -⟩ := exec_frame hx
  rw [← hframe]
  exact ⟨rfl, rfl, rfl, rfl, rfl, rfl, rfl, rfl⟩

/-- After the back end nothing of a cycle writes a unit's latch. -/
theorem step_units {s t : State} (hs : s.stopped = false) (ht : step s = .next t) :
    t.int1 = (backEnd s).int1 ∧ t.int2 = (backEnd s).int2 ∧ t.mul1 = (backEnd s).mul1 ∧
      t.mul2 = (backEnd s).mul2 ∧ t.mul3 = (backEnd s).mul3 ∧ t.mem1 = (backEnd s).mem1 ∧
      t.mem2 = (backEnd s).mem2 ∧ t.mem3 = (backEnd s).mem3 := by
  rcases step_next_cases ht with ⟨-, h⟩ | ⟨-, rfl⟩ | ⟨-, -, rfl | rfl | ⟨-, i, x, -, hx, rfl⟩⟩
  · simp [hs] at h
  · simp
  · simp
  · simp
  · simpa using exec_units hx

/-- The later latches after the back end (R126 to R129). -/
theorem backEnd_units {s : State} (hs : s.stopped = false)
    (hr : ∀ u ∈ s.mem1, InRange s (u.a + u.b)) :
    (backEnd s).int2 = s.int1.map MicroOp.computed ∧
    (backEnd s).mul2 = s.mul1.map MicroOp.computed ∧
    (backEnd s).mem2 = s.mem1.map MicroOp.addressed ∧
    (backEnd s).mul3 = s.mul2 ∧ (backEnd s).mem3 = s.mem2 := by
  obtain ⟨e, -⟩ := backEnd_ok (not_stopped hs) hr
  obtain ⟨g, -, hg⟩ := first_eq hr
  rw [e, fromMul1, hg]
  simp

/-- Settles O18: the latches are the back end's, and issue has moved the waiting record (R125). -/
theorem everyRecordMovesOnEveryCycle : Obligations.EveryRecordMovesOnEveryCycle := by
  intro s hs hr
  obtain ⟨t, ht, -⟩ := step_next hs
  obtain ⟨hint1, hint2, hmul1, hmul2, hmul3, hmem1, hmem2, hmem3⟩ := step_units hs ht
  refine ⟨t, ht, ?_⟩
  rw [hint2, hmul2, hmem2, hmul3, hmem3]
  obtain ⟨bint2, bmul2, bmem2, bmul3, bmem3⟩ := backEnd_units hs hr
  refine ⟨bint2, bmul2, bmem2, bmul3, bmem3, fun h => ?_⟩
  have hf := backEnd_fault_ok (not_stopped hs) hr
  obtain ⟨-, hissued⟩ := backEnd_body h.body (not_stopped hs)
  obtain ⟨-, hstage1⟩ := hissued (by rw [hf]; rfl)
  rw [← hstage1, State.inStage1, hint1, hmul1, hmem1, State.inStage1]

/-- R125: with nothing waiting the IQ has a free slot and the LSQ is not full. -/
theorem DecodeInv.queues_free {s : State} (h : DecodeInv s) :
    s.iq.hasFree = true ∧ s.lsq.count < s.launch.lsqSize := by
  obtain ⟨⟨⟨hiq, hlsq, -⟩, hqueue, -⟩, hwait⟩ := h
  simp only [State.waiting, List.append_eq_nil_iff] at hwait
  refine ⟨?_, ?_⟩
  · obtain ⟨x, hx⟩ := List.exists_mem_of_length_pos (hqueue.iq_length ▸ hiq)
    refine List.any_eq_true.mpr ⟨x, hx, ?_⟩
    rw [queued_eq_nil.mp hwait.1 x hx]; rfl
  · rw [hqueue.lsq_ring.count_zero (queued_eq_nil.mp hwait.2)]
    exact hlsq

/-- Settles O19, by `first_eq` before issue, `backEnd_decodeInv` after it, and the invariants at the
end of the cycle. -/
theorem queuesNeverFill : Obligations.QueuesNeverFill := by
  intro s h hs hr
  have hfound := backEnd_decodeInv h hs (backEnd_fault_ok (not_stopped hs) hr)
  obtain ⟨hfree, hroom⟩ := hfound.queues_free
  refine ⟨?_, hfound.issued, hfree, by simpa using hroom, ?_⟩
  · rintro _ rfl
    obtain ⟨g, -, e⟩ := first_eq hr
    rw [e]
    exact ⟨rfl, rfl, rfl⟩
  · obtain ⟨t, ht, -⟩ := step_next hs
    have hlen := (step_inv h ht).convoy.waiting
    rw [State.waiting, List.length_append] at hlen
    exact ⟨t, ht, by omega, by omega⟩

/-! ### The scoreboard (R142) -/

/-- In age order the first record found is younger than every other. -/
theorem age_le_youngest {L : List MicroOp} {p : MicroOp → Bool} {f : MicroOp → Nat} {u v : MicroOp}
    (hord : L.Pairwise fun y o => f o < f y) (hu : L.find? p = some u) (hv : v ∈ L)
    (hp : p v = true) : f v ≤ f u := by
  obtain ⟨-, P, B, rfl, hP⟩ := List.find?_eq_some_iff_append.mp hu
  obtain ⟨-, hrest, -⟩ := List.pairwise_append.mp hord
  rcases List.mem_append.mp hv with hv | hv
  · simpa [hp] using hP v hv
  · rcases List.mem_cons.mp hv with rfl | hv
    · exact le_rfl
    · exact (List.rel_of_pairwise_cons hrest hv).le

/-- R142 in its own words, for a register or Z: `p` picks its producers. -/
theorem invalid_iff_in_flight {s : State} (h : RobInv s) {p : MicroOp → Bool} {valid : Bool}
    {tag : Nat} (hfree : s.inFlight.find? p = none → valid = true)
    (hheld : ∀ u ∈ s.inFlight.find? p, valid = false ∧ tag = u.rob) :
    (valid = false ↔ ∃ u ∈ s.inFlight, p u = true) ∧
    (valid = false → ∃ u ∈ s.inFlight, p u = true ∧ tag = u.rob ∧
      ∀ v ∈ s.inFlight, p v = true →
        s.rob.age s.launch.robSize v.rob ≤ s.rob.age s.launch.robSize u.rob) := by
  cases hf : s.inFlight.find? p with
  | none =>
    rw [hfree hf]
    simpa using hf
  | some u =>
    obtain ⟨hv, ht⟩ := hheld u hf
    have hmem := List.mem_of_find?_eq_some hf
    have hpu := List.find?_some hf
    exact ⟨⟨fun _ => ⟨u, hmem, hpu⟩, fun _ => hv⟩, fun _ => ⟨u, hmem, hpu, ht, fun v hv hpv =>
      age_le_youngest h.ordered hf hv hpv⟩⟩

/-- Settles O33, by `StepKeepsTheInvariants` and `invalid_iff_in_flight`. -/
theorem scoreboardNamesTheYoungestProducer : Obligations.ScoreboardNamesTheYoungestProducer := by
  intro s t h ht
  obtain ⟨-, -, -, -, hrob, hboard, -, -⟩ := step_inv h ht
  exact ⟨fun i => invalid_iff_in_flight hrob (hboard.free i) (hboard.held i),
    invalid_iff_in_flight hrob hboard.z_free hboard.z_held⟩

/-! ### Capacities (R143) -/

/-- The rings are not overfull and the IQ has its slots (R143). -/
structure Capacities (s : State) : Prop where
  rob : s.rob.count ≤ s.launch.robSize
  lsq : s.lsq.count ≤ s.launch.lsqSize
  iq : s.iq.length = s.launch.iqSize

theorem retireStage_count (s : State) : (retireStage s).rob.count ≤ s.rob.count := by
  unfold retireStage
  split
  · exact le_rfl
  · exact Nat.sub_le _ _

theorem issueLsq_count (s : State) : (issueLsq s).lsq.count ≤ s.lsq.count := by
  unfold issueLsq
  split
  · exact le_rfl
  · split
    · exact le_rfl
    · exact Nat.sub_le _ _

@[simp] theorem issueInt_iq_length (s : State) : (issueInt s).iq.length = s.iq.length := by
  unfold issueInt
  split
  · rfl
  · split
    · rfl
    · exact List.length_set

@[simp] theorem issueMul_iq_length (s : State) : (issueMul s).iq.length = s.iq.length := by
  unfold issueMul
  split
  · rfl
  · split
    · rfl
    · exact List.length_set

/-- No stage of the back end adds an entry. -/
theorem backEnd_capacities {s : State} (h : Capacities s) : Capacities (backEnd s) := by
  obtain ⟨hrob, hlsq, hiq⟩ := h
  obtain ⟨-, -, -, -, -, hcount⟩ := backEnd_retire s
  have hqueues : (backEnd s).lsq.count ≤ s.lsq.count ∧ (backEnd s).iq.length = s.iq.length := by
    unfold backEnd
    split
    · simp
    · exact ⟨by simpa [fromMul1] using issueLsq_count (stageInt1 (stageMul1 (throughMem1 s))),
        by simp [fromMul1]⟩
  exact ⟨by rw [hcount, backEnd_launch]; exact (retireStage_count s).trans hrob,
    by rw [backEnd_launch]; exact hqueues.1.trans hlsq,
    by rw [backEnd_launch]; exact hqueues.2.trans hiq⟩

/-- R115: what dispatches finds room in the ROB and, a memory instruction, in the LSQ. -/
theorem room_of_not_stalled {s : State} {i : Instr} (h : ¬ Stalls s i) :
    s.rob.count ≠ s.launch.robSize ∧
      (isMem (instrOpcode i) = true → s.lsq.count ≠ s.launch.lsqSize) := by
  simp only [Stalls, not_or, not_and] at h
  obtain ⟨-, -, hlsq, -, hrob⟩ := h
  exact ⟨hrob, hlsq⟩

theorem allocate_capacities {s : State} {u : MicroOp} (h : Capacities s)
    (hrob : s.rob.count ≠ s.launch.robSize)
    (hlsq : isMem u.op = true → s.lsq.count ≠ s.launch.lsqSize) : Capacities (s.allocate u) := by
  obtain ⟨hr, hl, hi⟩ := h
  refine ⟨?_, ?_, ?_⟩
  · simp only [State.allocate_rob, ReorderBuffer.allocate, State.allocate_launch]
    omega
  · rw [State.allocate_lsq, State.allocate_launch]
    split
    · next hm =>
      have := hlsq hm
      simp only [LoadStoreQueue.push]
      omega
    · exact hl
  · rw [State.allocate_iq, State.allocate_launch]
    split
    · exact hi
    · rw [IssueQueue.length_insert, hi]

/-- R143: a full queue stalls dispatch. -/
theorem exec_capacities {s x : State} {i : Instr} (h : Capacities s) (hx : exec i s = .next x) :
    Capacities x := by
  have hexam : Capacities (examined i s) := by
    rcases examined_cases i s with ⟨-, e⟩ | ⟨-, e⟩ <;> rw [e]
    · exact h
    · exact ⟨h.rob, h.lsq, h.iq⟩
  rcases exec_cases hx with ⟨-, rfl⟩ | ⟨hns, u, y, rfl, hy, -, rfl⟩
  · exact ⟨hexam.rob, hexam.lsq, hexam.iq⟩
  · obtain ⟨hrob, hlsq⟩ := room_of_not_stalled (mt stalls_examined.mp hns)
    have hal := allocate_capacities (u := (shapeOf i).operandRead (examined i s)) hexam hrob
      (by simpa [Shape.operandRead, shapeOf_op] using hlsq)
    rcases hy with rfl | ⟨w, rfl⟩ <;> exact ⟨hal.rob, hal.lsq, hal.iq⟩

theorem raise_capacities {s : State} (h : Capacities s) (c : FaultCode) (p : Word)
    (n : BitVec 64) : Capacities (s.raise c p n) :=
  ⟨h.rob, h.lsq, h.iq⟩

theorem tick_capacities {s : State} (h : Capacities s) : Capacities s.tick :=
  ⟨h.rob, h.lsq, h.iq⟩

theorem fetchStage_capacities {s : State} (h : Capacities s) : Capacities (fetchStage s) :=
  ⟨by simpa using h.rob, by simpa using h.lsq, by simpa using h.iq⟩

theorem step_capacities {s t : State} (h : Capacities s) (ht : step s = .next t) :
    Capacities t := by
  have hb := backEnd_capacities h
  rcases step_next_cases ht with ⟨rfl, -⟩ | ⟨-, rfl⟩ | ⟨-, -, rfl | rfl | ⟨-, i, x, -, hx, rfl⟩⟩
  · exact h
  · exact tick_capacities hb
  · exact tick_capacities (fetchStage_capacities hb)
  · exact tick_capacities (raise_capacities hb _ _ _)
  · exact tick_capacities (fetchStage_capacities (exec_capacities hb hx))

/-- Settles O34, by `step_capacities`; the occupied slots are some of the slots. -/
theorem stepKeepsTheCapacities : Obligations.StepKeepsTheCapacities := by
  intro s t hrob hlsq hiq ht
  obtain ⟨hrob', hlsq', hiq'⟩ := step_capacities ⟨hrob, hlsq, hiq⟩ ht
  exact ⟨hrob', hlsq', hiq', hiq' ▸ List.length_filterMap_le _ _⟩

end Sys2Proof.Machine

/-! PROOFS of the statements on the memory instructions (spec/41_memory_ops.md): the dispatch of an
instruction without a dispatch effect, what an instruction alone leaves, and a load, a store and an
address out of range among them. -/

namespace Sys2Proof.Machine

/-! ### Dispatch without an effect (R113, R117) -/

theorem examined_of_ne_halt {i : Instr} (hi : i ≠ .halt) (s : State) : examined i s = s := by
  rcases examined_cases i s with ⟨-, e⟩ | ⟨rfl, -⟩
  · exact e
  · exact absurd rfl hi

/-- R113: neither a branch nor HALT, so Fetch goes on where it was. -/
theorem dispatched_samePath {s : State} {i : Instr} (hi : i ≠ .halt) (he : effectOf i = noEffect)
    (h : CanDispatch s (instrOpcode i) (sourcesOf i)) :
    ∃ t, exec i s = .next t ∧ Dispatched s ((shapeOf i).operandRead s) t ∧ SamePath s t := by
  obtain ⟨t, hx, hd, hhalt, hpath⟩ := dispatched_of h
  obtain ⟨hpc, hf⟩ := hpath s (by rw [he, examined_of_ne_halt hi, noEffect])
  exact ⟨t, hx, hd, hpc, hf, by simpa [hi] using hhalt⟩

/-- R117: a record without a destination invalidates no register. -/
theorem Dispatched.regs_eq {s t : State} {u : MicroOp} (h : Dispatched s u t)
    (hd : hasDest u.op = false) : t.regs = s.regs :=
  Scoreboard.ext_entry fun r => h.other_regs r (by simp [MicroOp.writes, hd])

/-! ### What an instruction alone leaves (R127 to R132) -/

theorem seqExec_written {i : Instr} (hi : i ≠ .halt) (s : State) :
    seqExec i s.written = ((shapeOf i).operandRead s).finish s.written :=
  (finish_operandRead (examined_of_ne_halt hi s).symm fun r _ => written_get s r).symm

section Done

variable {s t : State} {i : Instr} {p : Word} {k : Nat}

theorem Done.written_eq (h : Done s i p k t) (hi : i ≠ .halt) :
    t.written = ((shapeOf i).operandRead s).finish s.written :=
  h.result.trans (seqExec_written hi s)

theorem Done.reg_eq (h : Done s i p k t) (hi : i ≠ .halt) (r : RegNum) :
    t.reg r = if ((shapeOf i).operandRead s).writes r then
      (if isLoad (instrOpcode i) then
        memRead s.mem (effectiveAddress ((shapeOf i).operandRead s)).toNat
      else compute ((shapeOf i).operandRead s)) else s.reg r := by
  rw [← written_get t, h.written_eq hi, finish_get, written_get, ← shapeOf_op]
  rfl

theorem Done.z_eq (h : Done s i p k t) (hi : i ≠ .halt) :
    t.z.value = if setsZ (instrOpcode i) then decide (compute ((shapeOf i).operandRead s) = 0)
      else s.z.value := by
  rw [← shapeOf_op]
  exact (congrArg Arch.z (h.written_eq hi)).trans (finish_z _ _)

theorem Done.mem_eq (h : Done s i p k t) (hi : i ≠ .halt) :
    t.mem = if isMem (instrOpcode i) && !isLoad (instrOpcode i) then
      memWrite s.mem (effectiveAddress ((shapeOf i).operandRead s)).toNat
        ((shapeOf i).operandRead s).d
      else s.mem := by
  rw [← shapeOf_op]
  exact (congrArg Arch.mem (h.written_eq hi)).trans (finish_mem _ _)

end Done

theorem same_of_written {s t : State} (h : t.written = s.written) :
    SameRegs s t ∧ t.z.value = s.z.value ∧ SameMemory s t :=
  ⟨fun r => by rw [← written_get, h, written_get], congrArg Arch.z h,
    fun a => congrArg (memRead ·.mem a) h⟩

/-! ### A memory instruction (R114), alone (R129, R204) -/

theorem isMem_of_isLoad {op : Opcode} (h : isLoad op = true) : isMem op = true := by
  revert h; cases op <;> decide

theorem hasDest_of_isLoad {op : Opcode} (h : isLoad op = true) : hasDest op = true := by
  revert h; cases op <;> decide

theorem hasDest_of_store {op : Opcode} (hm : isMem op = true) (hl : isLoad op = false) :
    hasDest op = false := by
  revert hm hl; cases op <;> decide

section Memory

variable {s : State} {i : Instr}

/-- R114: a memory instruction is no branch and no HALT, and it does not set Z. -/
theorem of_isMem (hm : isMem (instrOpcode i) = true) :
    i ≠ .halt ∧ effectOf i = noEffect ∧ unitOf (instrOpcode i) = .mem ∧
      setsZ (instrOpcode i) = false ∧ ∀ (A : Arch) (pc : Word), seqNext i A pc = pc + 4 := by
  cases i
  case load | ldr | store | str => exact ⟨nofun, rfl, rfl, rfl, fun _ _ => rfl⟩
  all_goals cases hm

theorem dispatched_mem (hm : isMem (instrOpcode i) = true)
    (h : CanDispatch s (instrOpcode i) (sourcesOf i)) :
    ∃ t, exec i s = .next t ∧ Dispatched s ((shapeOf i).operandRead s) t ∧ SamePath s t := by
  obtain ⟨hhalt, heffect, -⟩ := of_isMem hm
  exact dispatched_samePath hhalt heffect h

/-- R129: with its address in range, five cycles bring a memory instruction through MEM3. -/
theorem alone_mem (hm : isMem (instrOpcode i) = true) (h : Alone s i (s.d.pc + 4))
    (hr : InRange s (effectiveAddress ((shapeOf i).operandRead s))) :
    ∃ t : State, core.run 5 s = .next t ∧ Done s i (s.d.pc + 4) 5 t ∧
      t.z.value = s.z.value := by
  obtain ⟨hhalt, -, hunit, hz, hnext⟩ := of_isMem hm
  obtain ⟨t, hrun, hdone⟩ := alone_run h (.inr (hnext _ _).symm) fun _ => hr
  rw [hunit] at hrun hdone
  exact ⟨t, hrun, hdone, by rw [hdone.z_eq hhalt, hz, if_neg Bool.false_ne_true]⟩

/-- R129: a load writes the cell it addresses to its destination, and nothing else. -/
theorem alone_load (hl : isLoad (instrOpcode i) = true) (h : Alone s i (s.d.pc + 4))
    (hr : InRange s (effectiveAddress ((shapeOf i).operandRead s))) :
    ∃ t : State, core.run 5 s = .next t ∧ Settled s t ∧
      OnlyReg s t (shapeOf i).rd
        (memRead s.mem (effectiveAddress ((shapeOf i).operandRead s)).toNat) ∧
      t.z.value = s.z.value ∧ SameMemory s t := by
  have hm := isMem_of_isLoad hl
  obtain ⟨hhalt, -⟩ := of_isMem hm
  obtain ⟨t, hrun, hdone, hz⟩ := alone_mem hm h hr
  have hwrites : ∀ r, ((shapeOf i).operandRead s).writes r = decide ((shapeOf i).rd = r) :=
    fun r => by simp [MicroOp.writes, Shape.operandRead, shapeOf_op, hasDest_of_isLoad hl]
  refine ⟨t, hrun, hdone.settled, ⟨?_, fun r hne => ?_⟩, hz, fun a => ?_⟩
  · simp [hdone.reg_eq hhalt, hwrites, hl]
  · simp [hdone.reg_eq hhalt, hwrites, Ne.symm hne]
  · simp [hdone.mem_eq hhalt, hl]

/-- R129: a store writes its data to the cell it addresses, and nothing else. -/
theorem alone_store (hm : isMem (instrOpcode i) = true) (hl : isLoad (instrOpcode i) = false)
    (h : Alone s i (s.d.pc + 4))
    (hr : InRange s (effectiveAddress ((shapeOf i).operandRead s))) :
    ∃ t : State, core.run 5 s = .next t ∧ Settled s t ∧
      OnlyCell s t (effectiveAddress ((shapeOf i).operandRead s))
        ((shapeOf i).operandRead s).d ∧
      SameRegs s t ∧ t.z.value = s.z.value := by
  obtain ⟨hhalt, -⟩ := of_isMem hm
  obtain ⟨t, hrun, hdone, hz⟩ := alone_mem hm h hr
  have hmem : t.mem = memWrite s.mem (effectiveAddress ((shapeOf i).operandRead s)).toNat
      ((shapeOf i).operandRead s).d := by simp [hdone.mem_eq hhalt, hm, hl]
  have hread := memRead_memWrite h.inv.memory.form
  refine ⟨t, hrun, hdone.settled, ⟨?_, fun a hne => ?_⟩, fun r => ?_, hz⟩
  · rw [hmem, hread, if_pos rfl]
  · rw [hmem, hread, if_neg hne]
  · have hdest : hasDest ((shapeOf i).operandRead s).op = false :=
      (congrArg hasDest (shapeOf_op i)).trans (hasDest_of_store hm hl)
    simp [hdone.reg_eq hhalt, MicroOp.writes, hdest]

/-- R204: with its address out of range, a memory instruction faults in MEM1 and writes nothing. -/
theorem alone_outOfRange (hm : isMem (instrOpcode i) = true) (h : Alone s i (s.d.pc + 4))
    (hr : ¬ InRange s (effectiveAddress ((shapeOf i).operandRead s))) :
    ∃ t : State, core.run 3 s = .next t ∧ SameRegs s t ∧ t.z.value = s.z.value ∧
      SameMemory s t ∧ t.fault = some {
        code := .dataAddressRange
        pc := s.d.pc
        info := (effectiveAddress ((shapeOf i).operandRead s)).zeroExtend 64 } := by
  obtain ⟨-, -, -, -, hnext⟩ := of_isMem hm
  obtain ⟨t, hrun, hwritten, hfault⟩ := alone_fault h (hnext _ _).symm hm hr
  obtain ⟨hregs, hz, hmem⟩ := same_of_written hwritten
  exact ⟨t, hrun, hregs, hz, hmem, hfault⟩

end Memory

/-! ### The settled statements -/

/-- Settles O51, by `alone_load` and `alone_outOfRange`. -/
theorem loadReadsBasePlusOffset : Obligations.LoadReadsBasePlusOffset := by
  intro rd rs1 imm s
  refine ⟨fun rs2 rs3 => ?_, fun h => ?_, alone_load rfl, alone_outOfRange rfl⟩
  · simp [decode_packRecord, decodeTag]
  · obtain ⟨t, hx, hd, hp⟩ := dispatched_mem (i := .load rd rs1 imm) rfl h
    exact ⟨_, t, hx, hd, hp, rfl, rfl, rfl, rfl, rfl⟩

/-- Settles O52, by `alone_load` and `alone_outOfRange`. -/
theorem ldrReadsBasePlusIndex : Obligations.LdrReadsBasePlusIndex := by
  intro rd rs1 rs2 s
  refine ⟨fun rs3 imm => ?_, fun h => ?_, alone_load rfl, alone_outOfRange rfl⟩
  · simp [decode_packRecord, decodeTag]
  · obtain ⟨t, hx, hd, hp⟩ := dispatched_mem (i := .ldr rd rs1 rs2) rfl h
    exact ⟨_, t, hx, hd, hp, rfl, rfl, rfl, rfl, rfl⟩

/-- Settles O53, by `alone_store` and `alone_outOfRange`. -/
theorem storeWritesBasePlusOffset : Obligations.StoreWritesBasePlusOffset := by
  intro rs1 rs2 imm s
  refine ⟨fun rd rs3 => ?_, fun h => ?_, alone_store rfl rfl, alone_outOfRange rfl⟩
  · simp [decode_packRecord, decodeTag]
  · obtain ⟨t, hx, hd, hp⟩ := dispatched_mem (i := .store rs1 rs2 imm) rfl h
    exact ⟨_, t, hx, hd, hp, hd.regs_eq rfl, rfl, rfl, rfl, rfl, rfl⟩

/-- Settles O54, by `alone_store` and `alone_outOfRange`. -/
theorem strWritesBasePlusIndex : Obligations.StrWritesBasePlusIndex := by
  intro rs1 rs2 rs3 s
  refine ⟨fun rd imm => ?_, fun h => ?_, alone_store rfl rfl, alone_outOfRange rfl⟩
  · simp [decode_packRecord, decodeTag]
  · obtain ⟨t, hx, hd, hp⟩ := dispatched_mem (i := .str rs1 rs2 rs3) rfl h
    exact ⟨_, t, hx, hd, hp, hd.regs_eq rfl, rfl, rfl, rfl, rfl, rfl⟩

end Sys2Proof.Machine

/-! PROOFS of the statements on the ALU instructions (spec/42_alu.md): the dispatch of an
instruction that computes its destination, what it leaves when it runs alone, and the twelve
instructions among them. -/

namespace Sys2Proof.Machine

/-! ### An instruction that computes its destination (R114, R130) -/

section Computes

variable {s : State} {i : Instr}

/-- R114: outside the memory unit, an instruction with a destination is no load, no branch and no
HALT. -/
theorem of_computes (hd : hasDest (instrOpcode i) = true) (hm : isMem (instrOpcode i) = false) :
    i ≠ .halt ∧ effectOf i = noEffect ∧ isLoad (instrOpcode i) = false ∧
      ∀ (A : Arch) (pc : Word), seqNext i A pc = pc + 4 := by
  cases i
  case load | ldr => cases hm
  case store | str | bz | bnz | jump | halt => cases hd
  all_goals exact ⟨nofun, rfl, rfl, fun _ _ => rfl⟩

/-- R113, R116: the record it dispatches has its operands as the scoreboard stands. -/
theorem dispatched_computes (hd : hasDest (instrOpcode i) = true)
    (hm : isMem (instrOpcode i) = false) (h : CanDispatch s (instrOpcode i) (sourcesOf i)) :
    ∃ u t, exec i s = .next t ∧ Dispatched s u t ∧ SamePath s t ∧
      u.op = instrOpcode i ∧ u.rd = (shapeOf i).rd ∧ u.a = (shapeOf i).a.read s ∧
      u.b = (shapeOf i).b.read s ∧ u.unit = unitOf (instrOpcode i) := by
  obtain ⟨hhalt, heffect, -⟩ := of_computes hd hm
  obtain ⟨t, hx, hdisp, hpath⟩ := dispatched_samePath hhalt heffect h
  exact ⟨_, t, hx, hdisp, hpath, shapeOf_op i, rfl, rfl, rfl, congrArg unitOf (shapeOf_op i)⟩

/-- R127, R128, R132: alone, it writes what its unit computes to its destination, and to Z where it
sets it, once it has run through its unit. -/
theorem alone_computes (hd : hasDest (instrOpcode i) = true) (hm : isMem (instrOpcode i) = false)
    (h : Alone s i (s.d.pc + 4)) :
    ∃ t : State, core.run (2 + (unitOf (instrOpcode i)).depth) s = .next t ∧ Settled s t ∧
      OnlyReg s t (shapeOf i).rd (compute ((shapeOf i).operandRead s)) ∧
      t.z.value = (if setsZ (instrOpcode i) then decide (compute ((shapeOf i).operandRead s) = 0)
        else s.z.value) ∧
      SameMemory s t := by
  obtain ⟨hhalt, -, hl, hnext⟩ := of_computes hd hm
  obtain ⟨t, hrun, hdone⟩ := alone_run h (.inr (hnext _ _).symm) (by simp [hm])
  have hwrites : ∀ r, ((shapeOf i).operandRead s).writes r = decide ((shapeOf i).rd = r) :=
    fun r => by simp [MicroOp.writes, Shape.operandRead, shapeOf_op, hd]
  refine ⟨t, hrun, hdone.settled, ⟨?_, fun r hne => ?_⟩, hdone.z_eq hhalt, fun a => ?_⟩
  · simp [hdone.reg_eq hhalt, hwrites, hl]
  · simp [hdone.reg_eq hhalt, hwrites, Ne.symm hne]
  · simp [hdone.mem_eq hhalt, hm]

end Computes

/-! ### The settled statements -/

/-- Settles O38, by `alone_computes`: ADD computes `addResult` and sets Z. -/
theorem addWritesSum : Obligations.AddWritesSum := by
  intro rd rs1 rs2 s
  refine ⟨fun rs3 imm => ?_, dispatched_computes (i := .add rd rs1 rs2) rfl rfl,
    alone_computes rfl rfl⟩
  simp [decode_packRecord, decodeTag]

/-- Settles O39, by `alone_computes`: SUB computes `subResult` and sets Z. -/
theorem subWritesDifference : Obligations.SubWritesDifference := by
  intro rd rs1 rs2 s
  refine ⟨fun rs3 imm => ?_, dispatched_computes (i := .sub rd rs1 rs2) rfl rfl,
    alone_computes rfl rfl⟩
  simp [decode_packRecord, decodeTag]

/-- Settles O40, by `alone_computes`: AND computes `andResult` and keeps Z. -/
theorem andWritesConjunction : Obligations.AndWritesConjunction := by
  intro rd rs1 rs2 s
  refine ⟨fun rs3 imm => ?_, dispatched_computes (i := .and rd rs1 rs2) rfl rfl,
    alone_computes rfl rfl⟩
  simp [decode_packRecord, decodeTag]

/-- Settles O41, by `alone_computes`: OR computes `orResult` and keeps Z. -/
theorem orWritesDisjunction : Obligations.OrWritesDisjunction := by
  intro rd rs1 rs2 s
  refine ⟨fun rs3 imm => ?_, dispatched_computes (i := .or rd rs1 rs2) rfl rfl,
    alone_computes rfl rfl⟩
  simp [decode_packRecord, decodeTag]

/-- Settles O42, by `alone_computes`: XOR computes `xorResult` and keeps Z. -/
theorem xorWritesExclusiveOr : Obligations.XorWritesExclusiveOr := by
  intro rd rs1 rs2 s
  refine ⟨fun rs3 imm => ?_, dispatched_computes (i := .xor rd rs1 rs2) rfl rfl,
    alone_computes rfl rfl⟩
  simp [decode_packRecord, decodeTag]

/-- Settles O43, by `alone_computes`: MUL computes `mulResult` and sets Z. -/
theorem mulWritesLowProduct : Obligations.MulWritesLowProduct := by
  intro rd rs1 rs2 s
  refine ⟨fun rs3 imm => ?_, dispatched_computes (i := .mul rd rs1 rs2) rfl rfl,
    alone_computes rfl rfl⟩
  simp [decode_packRecord, decodeTag]

/-- Settles O44, by `alone_computes`: ADDL computes `addResult` and sets Z. -/
theorem addlWritesSum : Obligations.AddlWritesSum := by
  intro rd rs1 imm s
  refine ⟨fun rs2 rs3 => ?_, dispatched_computes (i := .addl rd rs1 imm) rfl rfl,
    alone_computes rfl rfl⟩
  simp [decode_packRecord, decodeTag]

/-- Settles O45, by `alone_computes`: SUBL computes `subResult` and sets Z. -/
theorem sublWritesDifference : Obligations.SublWritesDifference := by
  intro rd rs1 imm s
  refine ⟨fun rs2 rs3 => ?_, dispatched_computes (i := .subl rd rs1 imm) rfl rfl,
    alone_computes rfl rfl⟩
  simp [decode_packRecord, decodeTag]

/-- Settles O46, by `alone_computes`: ANDL computes `andResult` and keeps Z. -/
theorem andlWritesConjunction : Obligations.AndlWritesConjunction := by
  intro rd rs1 imm s
  refine ⟨fun rs2 rs3 => ?_, dispatched_computes (i := .andl rd rs1 imm) rfl rfl,
    alone_computes rfl rfl⟩
  simp [decode_packRecord, decodeTag]

/-- Settles O47, by `alone_computes`: ORL computes `orResult` and keeps Z. -/
theorem orlWritesDisjunction : Obligations.OrlWritesDisjunction := by
  intro rd rs1 imm s
  refine ⟨fun rs2 rs3 => ?_, dispatched_computes (i := .orl rd rs1 imm) rfl rfl,
    alone_computes rfl rfl⟩
  simp [decode_packRecord, decodeTag]

/-- Settles O48, by `alone_computes`: XORL computes `xorResult` and keeps Z. -/
theorem xorlWritesExclusiveOr : Obligations.XorlWritesExclusiveOr := by
  intro rd rs1 imm s
  refine ⟨fun rs2 rs3 => ?_, dispatched_computes (i := .xorl rd rs1 imm) rfl rfl,
    alone_computes rfl rfl⟩
  simp [decode_packRecord, decodeTag]

/-- Settles O49, by `alone_computes`: MULL computes `mulResult` and sets Z. -/
theorem mullWritesLowProduct : Obligations.MullWritesLowProduct := by
  intro rd rs1 imm s
  refine ⟨fun rs2 rs3 => ?_, dispatched_computes (i := .mull rd rs1 imm) rfl rfl,
    alone_computes rfl rfl⟩
  simp [decode_packRecord, decodeTag]

end Sys2Proof.Machine

/-! PROOF of the statement on the move instruction (spec/43_move.md): MOVC among the instructions
that compute their destination. -/

namespace Sys2Proof.Machine

/-- Settles O50, by `alone_computes`: MOVC computes its immediate and keeps Z. -/
theorem movcWritesImmediate : Obligations.MovcWritesImmediate := by
  intro rd imm s
  refine ⟨fun rs1 rs2 rs3 => ?_, fun h => ?_, alone_computes rfl rfl⟩
  · simp [decode_packRecord, decodeTag]
  · obtain ⟨t, hx, hdisp, hpath⟩ := dispatched_samePath (i := .movc rd imm) nofun rfl h
    exact ⟨_, t, hx, hdisp, hpath, rfl, rfl, rfl, rfl⟩

end Sys2Proof.Machine

/-! PROOFS of the statements on the branches (spec/44_branch.md): the dispatch of an instruction
without a result, what it leaves when it runs alone, and BZ, BNZ and JUMP among them. -/

namespace Sys2Proof.Machine

/-! ### An instruction without a result (R114, R127) -/

section NoResult

variable {s : State} {i : Instr}

/-- R114: outside the memory unit, an instruction without a destination runs in the INT unit, and by
itself it changes no register, not Z and no data cell. -/
theorem of_noResult (hd : hasDest (instrOpcode i) = false) (hm : isMem (instrOpcode i) = false) :
    unitOf (instrOpcode i) = .int ∧ setsZ (instrOpcode i) = false ∧ ∀ A, seqExec i A = A := by
  cases i
  case bz | bnz | jump | halt => exact ⟨rfl, rfl, fun _ => rfl⟩
  case store | str => cases hm
  all_goals cases hd

/-- R113, R186: its dispatch effect alone decides whether Fetch is redirected or goes on. -/
theorem dispatched_noResult (hd : hasDest (instrOpcode i) = false)
    (hm : isMem (instrOpcode i) = false) (hi : i ≠ .halt)
    (h : CanDispatch s (instrOpcode i) (sourcesOf i)) :
    ∃ u t, exec i s = .next t ∧ Dispatched s u t ∧ u.op = instrOpcode i ∧ u.unit = .int ∧
      t.regs = s.regs ∧ t.z = s.z ∧
      (∀ target, effectOf i ((shapeOf i).operandRead s) s = s.takeBranch target →
        Redirected s target t) ∧
      (effectOf i ((shapeOf i).operandRead s) s = s → SamePath s t) := by
  obtain ⟨hunit, hz, -⟩ := of_noResult hd hm
  obtain ⟨t, hx, hdisp, hhalt, hpath⟩ := dispatched_of h
  rw [examined_of_ne_halt hi] at hpath
  have hrun : t.haltFetch = s.haltFetch := by simpa [hi] using hhalt
  have hop : ((shapeOf i).operandRead s).op = instrOpcode i := shapeOf_op i
  refine ⟨_, t, hx, hdisp, hop, (congrArg unitOf hop).trans hunit, hdisp.regs_eq (hop ▸ hd), ?_,
    fun target he => ?_, fun he => ?_⟩
  · rw [hdisp.zero, hop, hz, if_neg Bool.false_ne_true]
  · obtain ⟨hpc, hf⟩ := hpath _ he
    exact ⟨hpc, hf, hrun⟩
  · obtain ⟨hpc, hf⟩ := hpath _ he
    exact ⟨hpc, hf, hrun⟩

/-- R127: alone, it is complete after four cycles at the PC it leaves, with nothing written. -/
theorem alone_noResult {p : Word} (hd : hasDest (instrOpcode i) = false)
    (hm : isMem (instrOpcode i) = false) (hi : i ≠ .halt) (h : Alone s i p)
    (hp : p = seqNext i s.written s.d.pc) :
    ∃ t : State, core.run 4 s = .next t ∧ Settled s t ∧ t.pc = p ∧ SameRegs s t ∧
      t.z.value = s.z.value ∧ SameMemory s t := by
  obtain ⟨hunit, -, hsame⟩ := of_noResult hd hm
  obtain ⟨t, hrun, hdone⟩ := alone_run h (.inr hp) (by simp [hm])
  rw [hunit] at hrun
  exact ⟨t, hrun, hdone.settled, hdone.pc hi, same_of_written (hdone.result.trans (hsame _))⟩

end NoResult

/-! ### The settled statements -/

/-- Settles O55, by `dispatched_noResult` and `alone_noResult`: BZ is taken when Z is 1. -/
theorem bzBranchesIfZero : Obligations.BzBranchesIfZero := by
  intro imm s
  refine ⟨fun rd rs1 rs2 rs3 => ?_, fun h => ?_, fun hz => exec_stalled (.inr (.inl ⟨rfl, hz⟩)),
    fun next hnext h => alone_noResult (i := .bz imm) rfl rfl nofun h hnext⟩
  · simp [decode_packRecord, decodeTag]
  · obtain ⟨u, t, hx, hdisp, hop, hunit, hregs, hz, hred, hsame⟩ :=
      dispatched_noResult (i := .bz imm) rfl rfl nofun h
    exact ⟨u, t, hx, hdisp, hop, hunit, hregs, hz, fun htaken => hred _ (if_pos htaken),
      fun hnot => hsame (if_neg (Bool.eq_false_iff.mp hnot))⟩

/-- Settles O56, by `dispatched_noResult` and `alone_noResult`: BNZ is taken when Z is 0. -/
theorem bnzBranchesIfNotZero : Obligations.BnzBranchesIfNotZero := by
  intro imm s
  refine ⟨fun rd rs1 rs2 rs3 => ?_, fun h => ?_, fun hz => exec_stalled (.inr (.inl ⟨rfl, hz⟩)),
    fun next hnext h => alone_noResult (i := .bnz imm) rfl rfl nofun h hnext⟩
  · simp [decode_packRecord, decodeTag]
  · obtain ⟨u, t, hx, hdisp, hop, hunit, hregs, hz, hred, hsame⟩ :=
      dispatched_noResult (i := .bnz imm) rfl rfl nofun h
    exact ⟨u, t, hx, hdisp, hop, hunit, hregs, hz,
      fun htaken => hred _ (if_neg (Bool.eq_false_iff.mp htaken)),
      fun hnot => hsame (if_pos hnot)⟩

/-- Settles O57, by `dispatched_noResult` and `alone_noResult`: JUMP is always taken. -/
theorem jumpGoesToRegisterPlusOffset : Obligations.JumpGoesToRegisterPlusOffset := by
  intro rs1 imm s
  refine ⟨fun rd rs2 rs3 => ?_, fun h => ?_,
    fun hv => exec_stalled (.inl ⟨rs1, List.mem_singleton_self rs1, hv⟩),
    fun h => alone_noResult (i := .jump rs1 imm) rfl rfl nofun h ?_⟩
  · simp [decode_packRecord, decodeTag]
  · obtain ⟨u, t, hx, hdisp, hop, hunit, hregs, hz, hred, -⟩ :=
      dispatched_noResult (i := .jump rs1 imm) rfl rfl nofun h
    exact ⟨u, t, hx, hdisp, hop, hunit, hregs, hz, hred _ rfl⟩
  · rw [seqNext, written_get]

end Sys2Proof.Machine

/-! PROOFS of the statements on HALT (spec/45_halt.md): what Decode does with it, the cycles from
the one that examines it on, and HALT alone. -/

namespace Sys2Proof.Machine

/-! ### Decode on HALT (R110, R195) -/

/-- R195: stalled or not, HALT sets the halt flag, squashes `F` and leaves the PC; it stays in `D`,
or it is dispatched. -/
theorem exec_halt {s x : State} (hx : exec .halt s = .next x) :
    (x.haltFetch = true ∧ x.f = { s.f with valid := false } ∧ x.pc = s.pc) ∧
      (x.d = { s.d with stalled := true } ∧ x.rob.tail = s.rob.tail ∨
        x.d.valid = false ∧ x.rob.tail = (s.rob.tail + 1) % s.launch.robSize) := by
  rcases exec_cases hx with ⟨-, rfl⟩ | ⟨-, u, y, -, -, rfl, rfl⟩
  · exact ⟨⟨rfl, rfl, rfl⟩, .inl ⟨rfl, rfl⟩⟩
  · exact ⟨⟨rfl, rfl, rfl⟩, .inr ⟨rfl, rfl⟩⟩

/-! ### The cycles from the one that examines HALT on (R110, R196) -/

/-- R110, R195: in the cycle in which Decode examines HALT, Fetch already finds the halt flag set. -/
theorem step_examines_halt {s t : State} (hs : s.stopped = false)
    (hr : ∀ u ∈ s.mem1, InRange s (u.a + u.b)) (hd : s.d.valid = true)
    (hi : decode s.d.word = .ok .halt) (ht : step s = .next t) :
    (t.haltFetch = true ∧ t.f.valid = false ∧ t.pc = s.pc) ∧
      (t.d.valid = true ∧ t.d.word = s.d.word ∧ t.rob.tail = s.rob.tail ∨
        t.d.valid = false ∧ t.rob.tail = (s.rob.tail + 1) % s.launch.robSize) := by
  obtain ⟨x, hx, -, he⟩ :=
    stepRunsDecodedInstruction s .halt hs (backEnd_fault_ok (not_stopped hs) hr) hd hi
  obtain ⟨⟨hhalt, hf, hpc⟩, hdec⟩ := exec_halt hx
  obtain rfl : (fetchStage x).tick = t := by rw [he] at ht; cases ht; rfl
  rw [fetch_halted hhalt]
  refine ⟨⟨hhalt, by simp [hf], by simp [hpc]⟩, ?_⟩
  rcases hdec with ⟨hxd, htail⟩ | hdispatched
  · exact .inl (by simp [hxd, htail, hd])
  · exact .inr (by simpa using hdispatched)

/-- R110, R196: after the halt flag a cycle that does not examine HALT, because `D` is empty or MEM1
faults, moves nothing through the front end. -/
theorem step_halted_idle {s t : State} (hs : s.stopped = false) (hh : s.haltFetch = true)
    (hidle : s.d.valid = false ∨ ∃ u ∈ s.mem1, ¬ InRange s (u.a + u.b)) (ht : step s = .next t) :
    t.haltFetch = true ∧ t.f.valid = s.f.valid ∧ t.pc = s.pc ∧ t.d = s.d ∧
      t.waiting = (backEnd s).waiting ∧ t.rob.tail = s.rob.tail := by
  rcases step_cases hs with ⟨-, -, -, e⟩ | ⟨hr, -, hcase⟩
  · obtain rfl : (backEnd s).tick = t := by rw [e] at ht; cases ht; rfl
    simp [hh, State.waiting]
  · have hd : s.d.valid = false := hidle.resolve_right fun ⟨u, hu, hbad⟩ => hbad (hr u hu)
    rcases hcase with ⟨-, e⟩ | ⟨hd', -⟩ | ⟨hd', -⟩
    · obtain rfl : (fetchStage (backEnd s)).tick = t := by rw [e] at ht; cases ht; rfl
      rw [fetch_halted (by simpa using hh)]
      simp [hh, State.waiting]
    all_goals simp [hd] at hd'

/-- R196: after the halt flag `D` holds nothing but the HALT. -/
theorem FrontInv.decode_halt {s : State} (h : FrontInv s) (hh : s.haltFetch = true)
    (hd : s.d.valid = true) : decode s.d.word = .ok .halt := by
  have hholds := h.halt_holds hh hd
  rw [decodedIn, if_pos hd] at hholds
  cases hw : decode s.d.word with
  | error e => rw [hw] at hholds; cases hholds
  | ok i => rw [hw] at hholds; cases hholds; rfl

/-! ### The settled statements -/

/-- Settles O29: a cycle after the halt flag examines the HALT in `D` (`step_examines_halt`), or its
front end is idle (`step_halted_idle`). -/
theorem haltContainment : Obligations.HaltContainment := by
  refine ⟨fun s t hs hr hd hi ht => (step_examines_halt hs hr hd hi ht).1,
    fun s t h hs hh ht => ?_⟩
  by_cases hidle : s.d.valid = false ∨ ∃ u ∈ s.mem1, ¬ InRange s (u.a + u.b)
  · obtain ⟨hhalt, hf, hpc, hd, hwait, htail⟩ := step_halted_idle hs hh hidle ht
    exact ⟨hhalt, hf.trans (h.front.halt_empties hh), hpc,
      fun hempty => ⟨by rw [hd, hempty], hwait, htail⟩,
      fun hfull => ⟨h.front.decode_halt hh hfull, .inl ⟨by rw [hd, hfull], by rw [hd], htail⟩⟩⟩
  · push Not at hidle
    obtain ⟨hfull, hr⟩ := hidle
    have hd : s.d.valid = true := by simpa using hfull
    have hi := h.front.decode_halt hh hd
    obtain ⟨⟨hhalt, hf, hpc⟩, hdec⟩ := step_examines_halt hs hr hd hi ht
    exact ⟨hhalt, hf, hpc, fun hempty => absurd hempty hfull, fun _ => ⟨hi, hdec⟩⟩

/-- Settles O58, by `exec_halt`, and by `alone_run` and `halt_retires` for HALT alone. -/
theorem haltStopsFetchThenTheCore : Obligations.HaltStopsFetchThenTheCore := by
  intro s
  refine ⟨fun rd rs1 rs2 rs3 imm => ?_, ?_, fun h => ?_, fun h => ?_⟩
  · simp [decode_packRecord, decodeTag]
  · obtain ⟨t, hx⟩ := exec_next .halt s
    exact ⟨t, hx, (exec_halt hx).1⟩
  · obtain ⟨t, hx, hdisp, -⟩ := dispatched_of (i := .halt) h
    exact ⟨_, t, hx, hdisp, rfl, rfl, hdisp.regs_eq rfl, hdisp.zero, (exec_halt hx).1⟩
  · obtain ⟨t, hrun, hdone⟩ := alone_run h (.inl rfl) nofun
    obtain ⟨t', hstep, hhalted, hstopped, hfault, hcompleted, hkept⟩ :=
      halt_retires h hdone (by decide)
    exact ⟨t, t', hrun, hdone.settled, hstep, hhalted, hstopped, hfault, hcompleted,
      same_of_written (hkept.trans hdone.result)⟩

end Sys2Proof.Machine

/-! PROOFS of the statements on the faults (spec/60_exceptions.md): when Fetch raises its fault and
what leads to an ill-formed PC, the steps that raise each of the three faults, and the one lemma
that says everything a step which leaves a fault has done. -/

namespace Sys2Proof.Machine

/-! ### The form of the PC (R22, R23) -/

theorem pcWellFormed_eq_false_iff {l : Launch} {pc : Word} : pcWellFormed l pc = false ↔
    pc.toNat < l.codeBase.toNat ∨ (pc.toNat - l.codeBase.toNat) % 4 ≠ 0 := by
  rw [pcWellFormed, decide_eq_false_iff_not, not_and_or, Nat.not_le]

/-- R23: from a well-formed PC an advance leads to an ill-formed one only by the wrap. -/
theorem wraps_of_pcWellFormed {l : Launch} {pc : Word} (h : pcWellFormed l pc = true)
    (h' : pcWellFormed l (pc + 4) = false) : 2 ^ 32 ≤ pc.toNat + 4 := by
  obtain ⟨hbase, halign⟩ := of_decide_eq_true h
  by_contra hlt
  have hadd : (pc + 4).toNat = pc.toNat + 4 := by
    rw [BitVec.toNat_add, show (4 : Word).toNat = 4 from rfl]
    exact Nat.mod_eq_of_lt (Nat.lt_of_not_le hlt)
  rw [pcWellFormed_eq_false_iff, hadd] at h'
  omega

/-! ### Fetch (R111, R205) -/

@[simp] theorem handed_pc (s : State) : (handed s).pc = s.pc := by
  unfold handed; split <;> rfl

@[simp] theorem handed_fault (s : State) : (handed s).fault = s.fault := by
  unfold handed; split <;> rfl

/-- R205: Fetch raises its fault exactly where it looks at an ill-formed PC. -/
theorem fetchStage_fault {s : State} (h : s.fault = none) : (fetchStage s).fault =
    if s.haltFetch = false ∧ ¬ (s.f.valid = true ∧ s.d.valid = true) ∧
        pcWellFormed s.launch s.pc = false then
      some { code := .fetchPcInvalid, pc := s.pc, info := s.pc.zeroExtend 64 }
    else none := by
  rcases fetch_cases s with
    ⟨hh, e⟩ | ⟨-, hheld, e⟩ | ⟨hh, hheld, ⟨hpc, e⟩ | ⟨hpc, -, e⟩ | ⟨hpc, w, -, e⟩⟩ <;> rw [e]
  · rw [if_neg (by simp [hh])]; exact h
  · rw [if_neg (by simp [hheld])]; exact h
  · rw [if_pos ⟨hh, hheld, hpc⟩]; rfl
  · rw [if_neg (by simp [hpc])]; simpa using h
  · rw [if_neg (by simp [hpc])]; simpa using h

/-- R111: Fetch advances only from a well-formed PC. -/
theorem fetch_advances (s : State) : (fetchStage s).pc = s.pc ∨
    pcWellFormed s.launch s.pc = true ∧ (fetchStage s).pc = s.pc + 4 := by
  rcases fetch_cases s with
    ⟨-, e⟩ | ⟨-, -, e⟩ | ⟨-, -, ⟨-, e⟩ | ⟨-, -, e⟩ | ⟨hpc, w, -, e⟩⟩ <;> rw [e]
  · exact .inl rfl
  · exact .inl rfl
  · exact .inl (by simp)
  · exact .inl (by simp)
  · exact .inr ⟨hpc, by simp⟩

/-- R205: the fault Fetch raises names the ill-formed PC, which stays. -/
theorem fetchStage_faulted {s : State} {r : FaultRecord} (h : s.fault = none)
    (hr : (fetchStage s).fault = some r) :
    pcWellFormed s.launch (fetchStage s).pc = false ∧
      r = { code := .fetchPcInvalid, pc := (fetchStage s).pc,
            info := (fetchStage s).pc.zeroExtend 64 } := by
  rw [fetchStage_fault h] at hr
  split at hr
  · next hraised =>
    obtain ⟨-, -, hpc⟩ := hraised
    have hkept : (fetchStage s).pc = s.pc := (fetch_advances s).resolve_right (by simp [hpc])
    rw [hkept]
    exact ⟨hpc, (Option.some.inj hr).symm⟩
  · cases hr

/-! ### The steps that raise a fault (R202 to R204) -/

/-- R202, R204: MEM1 has raised its fault, and the steps of the cycle after it have not run. -/
theorem step_outOfRange {s : State} {u : MicroOp} (hs : s.stopped = false) (hu : s.mem1 = some u)
    (hr : ¬ InRange s (u.a + u.b)) : step s = .next (backEnd s).tick ∧
      (backEnd s).fault =
        some { code := .dataAddressRange, pc := u.pc, info := (u.a + u.b).zeroExtend 64 } ∧
      (backEnd s).mem1 = s.mem1 ∧ (backEnd s).iq = s.iq ∧ (backEnd s).lsq = s.lsq := by
  refine ⟨?_, by simp [backEnd_bad hu hr]⟩
  rcases step_cases hs with ⟨-, -, -, e⟩ | ⟨hin, -⟩
  · exact e
  · exact absurd (hin u hu) hr

/-- R202, R203: Decode raises its fault and changes nothing else. -/
theorem step_illegal {s : State} (hs : s.stopped = false)
    (hr : ∀ u ∈ s.mem1, InRange s (u.a + u.b)) (hd : s.d.valid = true)
    (he : ∃ e, decode s.d.word = .error e) :
    step s = .next ((backEnd s).raise .illegalInstruction s.d.pc s.d.word).tick := by
  rcases step_cases hs with
    ⟨u, hu, hbad, -⟩ | ⟨-, -, ⟨hempty, -⟩ | ⟨-, -, e⟩ | ⟨-, i, x, hi, -⟩⟩
  · exact absurd (hr u hu) hbad
  · rw [hd] at hempty; cases hempty
  · exact e
  · exact absurd ⟨i, hi⟩ (decode_error_iff_not_ok.mp he)

/-- R200, R207: everything a step that leaves a fault has done. MEM1 has raised it; or MEM1 has not
and Decode has; or neither has and Fetch has. -/
theorem step_fault_cases {s t : State} {r : FaultRecord} (hs : s.stopped = false)
    (ht : step s = .next t) (hr : t.fault = some r) :
    (∃ u, s.mem1 = some u ∧ ¬ InRange s (u.a + u.b) ∧ t = (backEnd s).tick ∧
      r = { code := .dataAddressRange, pc := u.pc, info := (u.a + u.b).zeroExtend 64 }) ∨
    ((∀ u ∈ s.mem1, InRange s (u.a + u.b)) ∧ s.d.valid = true ∧
      (∃ e, decode s.d.word = .error e) ∧
      t = ((backEnd s).raise .illegalInstruction s.d.pc s.d.word).tick ∧
      r = { code := .illegalInstruction, pc := s.d.pc, info := s.d.word }) ∨
    ((∀ u ∈ s.mem1, InRange s (u.a + u.b)) ∧ (s.d.valid = true → ∃ i, decode s.d.word = .ok i) ∧
      pcWellFormed s.launch t.pc = false ∧
      r = { code := .fetchPcInvalid, pc := t.pc, info := t.pc.zeroExtend 64 }) := by
  rcases step_cases hs with
    ⟨u, hu, hbad, e⟩ | ⟨hin, hf, ⟨hd, e⟩ | ⟨hd, he, e⟩ | ⟨-, i, x, hi, hx, hxf, e⟩⟩ <;>
    (rw [e] at ht; cases ht)
  · obtain ⟨-, hfault, -⟩ := step_outOfRange hs hu hbad
    exact .inl ⟨u, hu, hbad, rfl, Option.some.inj (hr.symm.trans hfault)⟩
  · obtain ⟨hpc, rfl⟩ := fetchStage_faulted hf hr
    exact .inr (.inr ⟨hin, by simp [hd], by simpa using hpc, rfl⟩)
  · exact .inr (.inl ⟨hin, hd, he, rfl, (Option.some.inj hr).symm⟩)
  · obtain ⟨hpc, rfl⟩ := fetchStage_faulted hxf hr
    exact .inr (.inr ⟨hin, fun _ => ⟨i, hi⟩, by simpa [exec_launch hx] using hpc, rfl⟩)

/-! ### The settled statements -/

/-- Settles O20, by `step_illegal` and `decode_error_iff`; the loader's records are those of
instructions. -/
theorem illegalRecordFaults : Obligations.IllegalRecordFaults := by
  refine ⟨fun s hs hr hd hrecord => ?_, decode_error_iff, fun _ _ => decode_of_assembleLine⟩
  exact ⟨_, step_illegal hs hr hd ((decode_error_iff _).mpr hrecord), rfl, by simp, by simp,
    by simp, by simp, rfl, by simp, by simp⟩

/-- Settles O21: `step_outOfRange` out of range; in range every record moves on (O18), and a fault
is one of the two later ones. -/
theorem dataAddressRangeFaults : Obligations.DataAddressRangeFaults := by
  intro s u hs hu
  refine ⟨fun hbad => ?_, fun hin => ?_⟩
  · obtain ⟨hstep, hfault, hmem1, hiq, hlsq⟩ := step_outOfRange hs hu hbad
    obtain ⟨g, rfl, -, hregs, hz, -⟩ := backEnd_final s
    exact ⟨_, hstep, hfault, hmem1.trans hu, backEnd_mem s, hregs, hz, by simp, by simp, by simp,
      hiq, hlsq, by simp, by simp⟩
  · obtain ⟨t, ht, -, -, hmem2, -⟩ := everyRecordMovesOnEveryCycle s hs (by simpa [hu] using hin)
    refine ⟨t, ht, by simpa [hu] using hmem2, fun r hr => ?_⟩
    rcases step_fault_cases hs ht hr with
      ⟨v, hv, hbad, -⟩ | ⟨-, -, -, -, rfl⟩ | ⟨-, -, -, rfl⟩
    · obtain rfl : u = v := Option.some.inj (hu.symm.trans hv)
      exact absurd hin hbad
    · exact nofun
    · exact nofun

/-- Settles O22: `fetchStage_fault`; and of the writers of the PC, Fetch advances only from a
well-formed one, so that it leaves the form only by the wrap. -/
theorem fetchPcInvalidFaults : Obligations.FetchPcInvalidFaults := by
  refine ⟨fun s hs => ?_, fun s t ht hwf hill => ?_⟩
  · simp only [fetchStage_fault hs, pcWellFormed_eq_false_iff]
  rw [step_launch ht] at hill
  have hkept : t.pc ≠ s.pc := fun e => by simp [e, hwf] at hill
  have hadvanced (e : t.pc = s.pc + 4) : 2 ^ 32 ≤ s.pc.toNat + 4 :=
    wraps_of_pcWellFormed hwf (e ▸ hill)
  rcases step_next_cases ht with
    ⟨rfl, -⟩ | ⟨-, rfl⟩ | ⟨-, -, rfl | rfl | ⟨hd, i, x, hi, hx, rfl⟩⟩
  · exact absurd rfl hkept
  · exact absurd (backEnd_pc s) hkept
  · have hpc := (fetch_pc (backEnd s)).resolve_left (by simpa using hkept)
    exact .inl (hadvanced (by simpa using hpc))
  · exact absurd (backEnd_pc s) hkept
  · have hxl : x.launch = s.launch := by simp [exec_launch hx]
    rcases exec_pc hx with hpc | htaken
    · rw [backEnd_pc] at hpc
      exact .inl (hadvanced (hpc ▸ (fetch_pc x).resolve_left (hpc ▸ hkept)))
    · refine .inr ⟨i, x.pc, hd, hi, htaken, ?_⟩
      rcases fetch_advances x with e | ⟨htarget, e⟩
      · exact .inl ⟨e, e ▸ hill⟩
      · exact .inr ⟨e, wraps_of_pcWellFormed htarget (by rw [hxl, ← e]; exact hill)⟩

/-- Settles O23: the cases of `step_fault_cases`, and the steps that raise the first two faults. -/
theorem earliestFaultWins : Obligations.EarliestFaultWins := by
  refine fun s t hs ht => ⟨fun r hr => ?_, fun ⟨u, hu, hbad⟩ => ?_, fun hin hd he => ?_⟩
  · rcases step_fault_cases hs ht hr with
      ⟨u, hu, hbad, -, rfl⟩ | ⟨hin, hd, he, -, rfl⟩ | ⟨hin, hd, hpc, rfl⟩
    · exact .inl ⟨rfl, u, hu, hbad, rfl, rfl⟩
    · exact .inr (.inl ⟨rfl, hin, hd, he, rfl, rfl⟩)
    · exact .inr (.inr ⟨rfl, hin, hd, hpc, rfl, rfl⟩)
  · obtain ⟨hstep, hfault, -⟩ := step_outOfRange hs hu hbad
    rw [hstep] at ht; cases ht
    simp [hfault]
  · rw [step_illegal hs hin hd he] at ht; cases ht
    rfl

/-- Settles O24: a recorded fault stops the core, and `step_fault_cases` says what the step that
raised it has left alone. -/
theorem faultStopsTheCoreUntilReset : Obligations.FaultStopsTheCoreUntilReset := by
  intro s t r hs ht hr
  have hcycle : t.cycle = s.cycle + 1 := by
    obtain ⟨t', ht', hcycle⟩ := step_next hs
    rw [ht] at ht'; cases ht'
    exact hcycle
  have hstopped : t.stopped = true := (stopped_iff t).mpr (.inl (by simp [hr]))
  refine ⟨hcycle, hstopped, fun t' => step_of_stopped hstopped, rfl, ?_⟩
  rcases step_fault_cases hs ht hr with
    ⟨u, hu, hbad, rfl, rfl⟩ | ⟨-, hd, -, rfl, rfl⟩ | ⟨-, -, -, rfl⟩
  · obtain ⟨-, -, hmem1, hiq, hlsq⟩ := step_outOfRange hs hu hbad
    refine ⟨fun _ => ?_, nofun, nofun⟩
    simp [hmem1, hiq, hlsq, hu]
  · refine ⟨nofun, fun _ => ?_, nofun⟩
    simp [hd]
  · exact ⟨nofun, nofun, fun _ => rfl⟩

end Sys2Proof.Machine
